-- ==== Sys2Proof/Word.lean ====
section
/-!
DEFINITION. The unsigned widths of the spec (00_scope R5, R6). Every value of width N is a bit vector of N bits.
-/

namespace Sys2Proof

/-- A command nibble. -/
abbrev U4 := BitVec 4

/-- A post-delay value. -/
abbrev U6 := BitVec 6

/-- A byte. -/
abbrev U8 := BitVec 8

/-- The 16-bit per-command nonce and the 16-bit argument. -/
abbrev U16 := BitVec 16

/-- The low 20 bits of the KEY1 counter (30_encoding R78). -/
abbrev U20 := BitVec 20

/-- A nonce, a seed value or the KEY1 counter. -/
abbrev U24 := BitVec 24

/-- A control word, a header field, a chip id, an operand port. -/
abbrev U32 := BitVec 32

/-- A bus command, a keystream half, a result port. -/
abbrev U64 := BitVec 64

/-- The KEY1 key: three 32-bit words (00_scope R5). -/
structure Key where
  k0 : U32
  k1 : U32
  k2 : U32
deriving DecidableEq, Repr, Inhabited

end Sys2Proof
end

