-- ==== Sys2Proof/Syntax.lean ====
section
/-!
DEFINITION. The operations: one constructor for each row of `spec/opcode_table.json`. A host operation carries no
field, because its operands stand on the ports `A`, `B`, `C` and `SCHED_IN` (30_encoding R70). A bus command carries the fields
its word embeds (30_encoding R78, R79).
-/

namespace Sys2Proof

/-- The rows of the opcode table. -/
inductive Instr where
  /- State-machine operations (43_state_machine). -/
  | init
  | setup
  | begin1
  | readsec
  | begin2
  /- INSPECT, one row for each selector (30_encoding R74). -/
  | inspectEncState
  | inspectSchedValid
  | inspectHwSeed
  | inspectRawChipId
  | inspectHdrGameCode
  | inspectHdrKey1Timing
  | inspectHdrKey2Timing
  | inspectK2SeedByte
  | inspectK1Key0
  | inspectK1Key1
  | inspectK1Key2
  | inspectK1Ij
  | inspectK1K
  | inspectK1L
  | inspectK1Flags
  | inspectK1Sched
  | inspectK2Mn
  | inspectK2Flags
  | inspectK2ChipId
  | inspectK2X
  | inspectK2Y
  /- The control-word codec (40_control_word). -/
  | nfConstruct
  | nfGetPredelay
  | nfSetPredelay
  | nfGetPostdelay
  | nfSetPostdelay
  | nfGetPulse
  | nfSetPulse
  | nfGetCmdenc
  | nfSetCmdenc
  | nfGetDataenc
  | nfSetDataenc
  | nfGetSlow
  | nfSetSlow
  | nfGetSecen
  /- The encoder and the seeder (41_key1_encoder, 42_keystream_seeder). -/
  | k1Encode
  | k1Derive
  | k2Seed
  /- Bus commands (30_encoding R78 to R81): argument `a`, nonce `n` or `ij`, counter bits `k20`. -/
  | busDummy
  | busRawChipid
  | busHeaderRead
  | busActivateKey1 (ij : U24) (k20 : U20)
  | busKey2SeedInit (a : U16) (n : U24) (k20 : U20)
  | busKey1Chipid (a : U16) (n : U24) (k20 : U20)
  | busSecureRead (a : U16) (n : U24) (k20 : U20)
  | busActivateKey2 (a : U16) (n : U24) (k20 : U20)
  | busKey2Chipid
deriving DecidableEq, Repr

end Sys2Proof
end

