-- ==== Sys2Proof/WellFormed.lean ====
section
/-!
DEFINITION. Well-formed operations. Field widths are held by the types of `Instr`; the one further check is the argument
of the secure-block read, which takes the values 4, 5, 6 and 7 only (00_scope R4, 43_state_machine R167).
-/

namespace Sys2Proof

/-- The secure-block argument values (00_scope R4). -/
def isSecureArgument (a : U16) : Bool :=
  a == 4 || a == 5 || a == 6 || a == 7

/-- Is the operation one the engine's rules can produce or accept? -/
def Instr.wellFormed : Instr → Bool
  | .busSecureRead a _ _ => isSecureArgument a
  | .init | .setup | .begin1 | .readsec | .begin2 => true
  | .inspectEncState | .inspectSchedValid | .inspectHwSeed | .inspectRawChipId | .inspectHdrGameCode => true
  | .inspectHdrKey1Timing | .inspectHdrKey2Timing | .inspectK2SeedByte => true
  | .inspectK1Key0 | .inspectK1Key1 | .inspectK1Key2 | .inspectK1Ij | .inspectK1K | .inspectK1L => true
  | .inspectK1Flags | .inspectK1Sched | .inspectK2Mn | .inspectK2Flags | .inspectK2ChipId => true
  | .inspectK2X | .inspectK2Y => true
  | .nfConstruct | .nfGetPredelay | .nfSetPredelay | .nfGetPostdelay | .nfSetPostdelay => true
  | .nfGetPulse | .nfSetPulse | .nfGetCmdenc | .nfSetCmdenc | .nfGetDataenc | .nfSetDataenc => true
  | .nfGetSlow | .nfSetSlow | .nfGetSecen => true
  | .k1Encode | .k1Derive | .k2Seed => true
  | .busDummy | .busRawChipid | .busHeaderRead | .busKey2Chipid => true
  | .busActivateKey1 _ _ | .busKey2SeedInit _ _ _ | .busKey1Chipid _ _ _ | .busActivateKey2 _ _ _ => true

end Sys2Proof
end

