-- ==== Sys2Proof/Decode.lean ====
section
/-!
DEFINITION. Decoding of host operation words (30_encoding R70 to R74) and of the bus commands of the opcode table
(30_encoding R78 to R81), and the encoder. Decoding is total and rejects by name.

The engine itself decodes host operation words only. The bus rows' words are the table's CANDIDATE values of open parameters
(from general knowledge, log 5): they serve to read the table's rows, and no step of the engine depends on them.
-/

namespace Sys2Proof

/-- A word to decode: a host operation word, or a bus command's plaintext word. -/
inductive Code where
  | how (w : U32)
  | bus (w : U64)
deriving DecidableEq, Repr

/-- Why a word is no operation. The first four are the cases (b), (c), (d), (a) of 30_encoding R72. -/
inductive DecodeError where
  /-- `HOW[31:16]` is not 0 -/
  | reservedBits
  /-- `SEL` is not 0 and `OPC` is not 0x06 -/
  | selectorNotZero
  /-- `OPC` is 0x06 and `SEL` is not in the selector table -/
  | unknownSelector
  /-- `OPC` is not in the operation table -/
  | unknownOpcode
  /-- a bus word that is no row of the bus command table -/
  | unknownBusCommand
deriving DecidableEq, Repr

/-- `OPC = HOW[7:0]` (30_encoding R70). -/
def howOpc (w : U32) : U8 := w.extractLsb' 0 8

/-- `SEL = HOW[15:8]` (30_encoding R70). -/
def howSel (w : U32) : U8 := w.extractLsb' 8 8

/-- The reserved bits `HOW[31:16]` (30_encoding R70). -/
def howReserved (w : U32) : U16 := w.extractLsb' 16 16

/-- The selector table (30_encoding R74). -/
def selectorRow (sel : U8) : Option Instr :=
  match sel.toNat with
  | 0x00 => some .inspectEncState
  | 0x01 => some .inspectSchedValid
  | 0x02 => some .inspectHwSeed
  | 0x03 => some .inspectRawChipId
  | 0x04 => some .inspectHdrGameCode
  | 0x05 => some .inspectHdrKey1Timing
  | 0x06 => some .inspectHdrKey2Timing
  | 0x07 => some .inspectK2SeedByte
  | 0x08 => some .inspectK1Key0
  | 0x09 => some .inspectK1Key1
  | 0x0A => some .inspectK1Key2
  | 0x0B => some .inspectK1Ij
  | 0x0C => some .inspectK1K
  | 0x0D => some .inspectK1L
  | 0x0E => some .inspectK1Flags
  | 0x0F => some .inspectK1Sched
  | 0x10 => some .inspectK2Mn
  | 0x11 => some .inspectK2Flags
  | 0x12 => some .inspectK2ChipId
  | 0x13 => some .inspectK2X
  | 0x14 => some .inspectK2Y
  | _ => none

/-- The operation table (30_encoding R71), but for `inspect` (OPC 0x06), whose rows are `selectorRow`'s. -/
def opcodeRow (opc : U8) : Option Instr :=
  match opc.toNat with
  | 0x01 => some .init
  | 0x02 => some .setup
  | 0x03 => some .begin1
  | 0x04 => some .readsec
  | 0x05 => some .begin2
  | 0x10 => some .nfConstruct
  | 0x11 => some .nfGetPredelay
  | 0x12 => some .nfSetPredelay
  | 0x13 => some .nfGetPostdelay
  | 0x14 => some .nfSetPostdelay
  | 0x15 => some .nfGetPulse
  | 0x16 => some .nfSetPulse
  | 0x17 => some .nfGetCmdenc
  | 0x18 => some .nfSetCmdenc
  | 0x19 => some .nfGetDataenc
  | 0x1A => some .nfSetDataenc
  | 0x1B => some .nfGetSlow
  | 0x1C => some .nfSetSlow
  | 0x1D => some .nfGetSecen
  | 0x20 => some .k1Encode
  | 0x21 => some .k1Derive
  | 0x22 => some .k2Seed
  | _ => none

/-- The operation code of `inspect` (30_encoding R71). -/
def inspectOpc : U8 := 0x06

/-- Decode a host operation word (30_encoding R70 to R72, R74). -/
def decodeHow (w : U32) : Except DecodeError Instr :=
  if howReserved w ≠ 0 then .error .reservedBits
  else if howOpc w = inspectOpc then
    match selectorRow (howSel w) with
    | some i => .ok i
    | none => .error .unknownSelector
  else if howSel w ≠ 0 then .error .selectorNotZero
  else
    match opcodeRow (howOpc w) with
    | some i => .ok i
    | none => .error .unknownOpcode

/-- PRESUMED (log 5): the candidate KEY1 plaintext layout of 30_encoding R78, "Caaaannnnnnkkkkk". -/
def key1LayoutCandidate (c : U4) (a : U16) (n : U24) (k20 : U20) : U64 :=
  k20.extractLsb' 0 8 ++ k20.extractLsb' 8 8 ++ n.extractLsb' 0 4 ++ k20.extractLsb' 16 4 ++ n.extractLsb' 4 8
    ++ n.extractLsb' 12 8 ++ a.extractLsb' 0 4 ++ n.extractLsb' 20 4 ++ a.extractLsb' 4 8 ++ c
    ++ a.extractLsb' 12 4

/-- PRESUMED (log 5): the candidate activation layout of 30_encoding R79, "3Ciiijjjxkkkkkxx" with `x` read as 0. -/
def actLayoutCandidate (opc : U8) (ij : U24) (k20 : U20) : U64 :=
  (0 : U8) ++ k20.extractLsb' 0 8 ++ k20.extractLsb' 8 8 ++ (0 : U4) ++ k20.extractLsb' 16 4
    ++ ij.extractLsb' 0 8 ++ ij.extractLsb' 8 8 ++ ij.extractLsb' 16 8 ++ opc

/-- The argument field of a candidate KEY1 plaintext word (30_encoding R78). -/
def key1Argument (w : U64) : U16 :=
  w.extractLsb' 0 4 ++ w.extractLsb' 8 8 ++ w.extractLsb' 20 4

/-- The nonce field of a candidate KEY1 plaintext word (30_encoding R78). -/
def key1Nonce (w : U64) : U24 :=
  w.extractLsb' 16 4 ++ w.extractLsb' 24 8 ++ w.extractLsb' 32 8 ++ w.extractLsb' 44 4

/-- The counter field of a candidate KEY1 plaintext word (30_encoding R78). -/
def key1Counter (w : U64) : U20 :=
  w.extractLsb' 40 4 ++ w.extractLsb' 48 8 ++ w.extractLsb' 56 8

/-- The nonce field of a candidate activation word (30_encoding R79). -/
def actNonce (w : U64) : U24 :=
  w.extractLsb' 8 8 ++ w.extractLsb' 16 8 ++ w.extractLsb' 24 8

/-- The counter field of a candidate activation word (30_encoding R79). -/
def actCounter (w : U64) : U20 :=
  w.extractLsb' 32 4 ++ w.extractLsb' 40 8 ++ w.extractLsb' 48 8

/-- The candidate opcodes and command nibbles (00_scope R3). PRESUMED, log 5. -/
def dummyWord : U64 := 0x9F
/-- Candidate `RAW_CHIPID_CMD` (00_scope R3). PRESUMED, log 5. -/
def rawChipidWord : U64 := 0x90
/-- Candidate `HEADER_CMD` (00_scope R3). PRESUMED, log 5. -/
def headerWord : U64 := 0x00
/-- Candidate `K2_CHIPID_CMD` (00_scope R3). PRESUMED, log 5. -/
def key2ChipidWord : U64 := 0xB8
/-- Candidate `ACT1_OPC` (00_scope R3). PRESUMED, log 5. -/
def act1Opcode : U8 := 0x3C
/-- Candidate `K1_CMD_SEED` (00_scope R3). PRESUMED, log 5. -/
def seedNibble : U4 := 0x4
/-- Candidate `K1_CMD_CHIPID` (00_scope R3). PRESUMED, log 5. -/
def chipidNibble : U4 := 0x1
/-- Candidate `K1_CMD_SECREAD` (00_scope R3). PRESUMED, log 5. -/
def secreadNibble : U4 := 0x2
/-- Candidate `K1_CMD_ACT2` (00_scope R3). PRESUMED, log 5. -/
def act2Nibble : U4 := 0xA

/-- The fixed bits of an activation word: the opcode and the zero fields (the table's mask of `bus.ACTIVATE_KEY1`). -/
def actFixedMask : U64 := 0xFF0000F0000000FF

/-- Decode a bus word by the table's candidate rows (30_encoding R78 to R81; log 5). No two rows share a word. -/
def decodeBus (w : U64) : Except DecodeError Instr :=
  if w = dummyWord then .ok .busDummy
  else if w = rawChipidWord then .ok .busRawChipid
  else if w = headerWord then .ok .busHeaderRead
  else if w = key2ChipidWord then .ok .busKey2Chipid
  else if w &&& actFixedMask = act1Opcode.setWidth 64 then .ok (.busActivateKey1 (actNonce w) (actCounter w))
  else if w.extractLsb' 4 4 = seedNibble then .ok (.busKey2SeedInit (key1Argument w) (key1Nonce w) (key1Counter w))
  else if w.extractLsb' 4 4 = chipidNibble then .ok (.busKey1Chipid (key1Argument w) (key1Nonce w) (key1Counter w))
  else if w.extractLsb' 4 4 = secreadNibble then .ok (.busSecureRead (key1Argument w) (key1Nonce w) (key1Counter w))
  else if w.extractLsb' 4 4 = act2Nibble then .ok (.busActivateKey2 (key1Argument w) (key1Nonce w) (key1Counter w))
  else .error .unknownBusCommand

/-- Decode a word. -/
def decode : Code → Except DecodeError Instr
  | .how w => decodeHow w
  | .bus w => decodeBus w

/-- The host operation word of an operation code and a selector (30_encoding R70). -/
def howWord (sel opc : U8) : Code := .how ((0 : U16) ++ sel ++ opc)

/-- The word of an operation (30_encoding R71, R74; for the bus rows R78 to R81 with their candidates, log 5). -/
def encode : Instr → Code
  | .init => howWord 0 0x01
  | .setup => howWord 0 0x02
  | .begin1 => howWord 0 0x03
  | .readsec => howWord 0 0x04
  | .begin2 => howWord 0 0x05
  | .inspectEncState => howWord 0x00 inspectOpc
  | .inspectSchedValid => howWord 0x01 inspectOpc
  | .inspectHwSeed => howWord 0x02 inspectOpc
  | .inspectRawChipId => howWord 0x03 inspectOpc
  | .inspectHdrGameCode => howWord 0x04 inspectOpc
  | .inspectHdrKey1Timing => howWord 0x05 inspectOpc
  | .inspectHdrKey2Timing => howWord 0x06 inspectOpc
  | .inspectK2SeedByte => howWord 0x07 inspectOpc
  | .inspectK1Key0 => howWord 0x08 inspectOpc
  | .inspectK1Key1 => howWord 0x09 inspectOpc
  | .inspectK1Key2 => howWord 0x0A inspectOpc
  | .inspectK1Ij => howWord 0x0B inspectOpc
  | .inspectK1K => howWord 0x0C inspectOpc
  | .inspectK1L => howWord 0x0D inspectOpc
  | .inspectK1Flags => howWord 0x0E inspectOpc
  | .inspectK1Sched => howWord 0x0F inspectOpc
  | .inspectK2Mn => howWord 0x10 inspectOpc
  | .inspectK2Flags => howWord 0x11 inspectOpc
  | .inspectK2ChipId => howWord 0x12 inspectOpc
  | .inspectK2X => howWord 0x13 inspectOpc
  | .inspectK2Y => howWord 0x14 inspectOpc
  | .nfConstruct => howWord 0 0x10
  | .nfGetPredelay => howWord 0 0x11
  | .nfSetPredelay => howWord 0 0x12
  | .nfGetPostdelay => howWord 0 0x13
  | .nfSetPostdelay => howWord 0 0x14
  | .nfGetPulse => howWord 0 0x15
  | .nfSetPulse => howWord 0 0x16
  | .nfGetCmdenc => howWord 0 0x17
  | .nfSetCmdenc => howWord 0 0x18
  | .nfGetDataenc => howWord 0 0x19
  | .nfSetDataenc => howWord 0 0x1A
  | .nfGetSlow => howWord 0 0x1B
  | .nfSetSlow => howWord 0 0x1C
  | .nfGetSecen => howWord 0 0x1D
  | .k1Encode => howWord 0 0x20
  | .k1Derive => howWord 0 0x21
  | .k2Seed => howWord 0 0x22
  | .busDummy => .bus dummyWord
  | .busRawChipid => .bus rawChipidWord
  | .busHeaderRead => .bus headerWord
  | .busActivateKey1 ij k20 => .bus (actLayoutCandidate act1Opcode ij k20)
  | .busKey2SeedInit a n k20 => .bus (key1LayoutCandidate seedNibble a n k20)
  | .busKey1Chipid a n k20 => .bus (key1LayoutCandidate chipidNibble a n k20)
  | .busSecureRead a n k20 => .bus (key1LayoutCandidate secreadNibble a n k20)
  | .busActivateKey2 a n k20 => .bus (key1LayoutCandidate act2Nibble a n k20)
  | .busKey2Chipid => .bus key2ChipidWord

/-- The word of `nbits` bits numbered as the opcode table numbers it: 32 bits are a host operation word, any other size is
a bus command's word (log 17). -/
def codeOfTableWord (nbits w : Nat) : Code :=
  if nbits = 32 then .how (BitVec.ofNat 32 w) else .bus (BitVec.ofNat 64 w)

/-- What the decoder reads from an instruction whose bits are `w`. -/
def decodeTableWord (nbits w : Nat) : Option Instr :=
  match decode (codeOfTableWord nbits w) with
  | .ok i => some i
  | .error _ => none

end Sys2Proof
end

