-- ==== Sys2Proof/Machine/Flags.lean ====
section
/-!
DEFINITION. The control word and its codec functions (30_encoding R75 to R77, 40_control_word R100 to R114), and the enable
invariant (10_state R33).
-/

namespace Sys2Proof.Machine

/-- `PREDELAY`, bits 12:0 (30_encoding R75). -/
def predelayMask : U32 := 0x00001FFF
/-- `DATA_ENC`, bit 13 (30_encoding R75). -/
def dataEncMask : U32 := 0x00002000
/-- `SEC_EN`, bit 14 (30_encoding R75). -/
def secEnMask : U32 := 0x00004000
/-- `POSTDELAY`, bits 21:16 (30_encoding R75). -/
def postdelayMask : U32 := 0x003F0000
/-- `CMD_ENC`, bit 22 (30_encoding R75). -/
def cmdEncMask : U32 := 0x00400000
/-- `SLOW_CLK`, bit 27 (30_encoding R75). -/
def slowClkMask : U32 := 0x08000000
/-- `PULSE_CLK`, bit 28 (30_encoding R75). -/
def pulseClkMask : U32 := 0x10000000

/-- `TIMING_FIELDS_MASK` (30_encoding R76). -/
def timingFieldsMask : U32 := predelayMask ||| postdelayMask ||| slowClkMask ||| pulseClkMask
/-- `ENC_BITS` (30_encoding R76). -/
def encBits : U32 := dataEncMask ||| secEnMask ||| cmdEncMask
/-- `CODEC_BITS` (30_encoding R76). -/
def codecBits : U32 := timingFieldsMask ||| encBits
/-- `UNASSIGNED_BITS` (30_encoding R76). -/
def unassignedBits : U32 := ~~~codecBits

/-- `nf_get_predelay` (40_control_word R100). -/
def nfGetPredelay (w : U32) : BitVec 13 := w.extractLsb' 0 13

/-- `nf_set_predelay` (40_control_word R101). -/
def nfSetPredelay (w v : U32) : U32 := (w &&& ~~~predelayMask) ||| (v &&& 0x1FFF)

/-- `nf_get_postdelay` (40_control_word R102). -/
def nfGetPostdelay (w : U32) : U6 := w.extractLsb' 16 6

/-- `nf_set_postdelay` (40_control_word R103). -/
def nfSetPostdelay (w v : U32) : U32 := (w &&& ~~~postdelayMask) ||| ((v &&& 0x3F) <<< 16)

/-- `nf_get_pulse` (40_control_word R104). -/
def nfGetPulse (w : U32) : Bool := w.getLsbD 28

/-- `nf_set_pulse` (40_control_word R105). -/
def nfSetPulse (w : U32) (b : Bool) : U32 := if b then w ||| pulseClkMask else w &&& ~~~pulseClkMask

/-- `nf_get_cmdenc` (40_control_word R106). -/
def nfGetCmdenc (w : U32) : Bool := w.getLsbD 22

/-- `nf_set_cmdenc` (40_control_word R107). -/
def nfSetCmdenc (w : U32) (b : Bool) : U32 :=
  if b then w ||| cmdEncMask ||| secEnMask
  else
    let w' := w &&& ~~~cmdEncMask
    if w.getLsbD 13 then w' else w' &&& ~~~secEnMask

/-- `nf_get_dataenc` (40_control_word R108). -/
def nfGetDataenc (w : U32) : Bool := w.getLsbD 13

/-- `nf_set_dataenc` (40_control_word R109). -/
def nfSetDataenc (w : U32) (b : Bool) : U32 :=
  if b then w ||| dataEncMask ||| secEnMask
  else
    let w' := w &&& ~~~dataEncMask
    if w.getLsbD 22 then w' else w' &&& ~~~secEnMask

/-- `nf_get_slow` (40_control_word R110). -/
def nfGetSlow (w : U32) : Bool := w.getLsbD 27

/-- `nf_set_slow` (40_control_word R111). -/
def nfSetSlow (w : U32) (b : Bool) : U32 := if b then w ||| slowClkMask else w &&& ~~~slowClkMask

/-- `nf_get_secen` (40_control_word R112). -/
def nfGetSecen (w : U32) : Bool := w.getLsbD 14

/-- `nf_construct`: the setters in the document's field order, from zero (40_control_word R113). -/
def nfConstruct (p q : U32) (pulse cenc denc slow : Bool) : U32 :=
  nfSetSlow
    (nfSetDataenc (nfSetCmdenc (nfSetPulse (nfSetPostdelay (nfSetPredelay 0 p) q) pulse) cenc) denc) slow

/-- Both encryption sub-flags enabled, as BEGIN1 and READSEC do (43_state_machine R166, R167). -/
def enableBoth (w : U32) : U32 := nfSetDataenc (nfSetCmdenc w true) true

/-- The enable invariant of a control word (10_state R33). -/
def enableInvariant (w : U32) : Bool := w.getLsbD 14 == (w.getLsbD 22 || w.getLsbD 13)

end Sys2Proof.Machine
end

