-- ==== Sys2Proof/Machine/State.lean ====
section
/-!
DEFINITION. The state of the machine, as plain data: the register file (10_state R20), the fault latch (R27), the sequencer
and its working copy (R28, 43_state_machine R160), the bus trace (60_exceptions R214), the ports (30_encoding R70), and the two
lists of inputs the host and the platform still have to give (logs 1 and 2).
-/

namespace Sys2Proof.Machine

/-- `ENC_STATE`: exactly five values (10_state R21). -/
inductive EncState where
  | uninit
  | raw
  | key1
  | key2
  | unknown
deriving DecidableEq, Repr

/-- A byte buffer (20_memory R50): (offset, byte) cells in one canonical form, offsets strictly rising and no cell equal to
what an unlisted offset reads as (`Memory.wf` in `Machine/Memory.lean`; log 10). -/
abbrev Memory := List Host.Cell

/-- The registers that INSPECT selects and that a fault's `info` names (30_encoding R74, 60_exceptions R202). -/
inductive RegName where
  | encState
  | schedValid
  | hwSeed
  | rawChipId
  | hdrGameCode
  | hdrKey1Timing
  | hdrKey2Timing
  | k2SeedByte
  | k1Key0
  | k1Key1
  | k1Key2
  | k1Ij
  | k1K
  | k1L
  | k1Flags
  | k1Sched
  | k2Mn
  | k2Flags
  | k2ChipId
  | k2X
  | k2Y
deriving DecidableEq, Repr

/-- The register file: exactly the registers of 10_state R20. `none` is the spec's own "unwritten" (R23; log 6). -/
structure Regs where
  encState : EncState
  schedValid : Bool
  rawChipId : Option U32
  hdrGameCode : Option U32
  hdrKey1Timing : Option U32
  hdrKey2Timing : Option U32
  k2SeedByte : Option U8
  k1Sched : Option (List U32)
  k1Key : Option Key
  k1Ij : Option U24
  k1K : Option U24
  k1L : Option U16
  k1Flags : Option U32
  k2Mn : Option U24
  k2Flags : Option U32
  k2ChipId : Option U32
  k2X : Option U64
  k2Y : Option U64
deriving DecidableEq, Repr

/-- A status record `(code, stage, e)` (60_exceptions R205). -/
structure Status where
  code : U8
  stage : U8
  e : U32
deriving DecidableEq, Repr

/-- The error kinds (60_exceptions R201). -/
inductive ErrorKind where
  | platformIo
  | verificationMismatch
  | invalidStateTransition
deriving DecidableEq, Repr

/-- The fault reasons (60_exceptions R202). -/
inductive FaultReason where
  | illegalOp
  | contract
  | unwrittenRead
deriving DecidableEq, Repr

/-- The sub-reasons of a `CONTRACT` fault (60_exceptions R202). -/
inductive ContractBreach where
  | operandWidth
  | schedSize
  | noSchedule
  | index
deriving DecidableEq, Repr

/-- What the fault latch `FAULT` holds (10_state R27). -/
structure FaultRecord where
  reason : FaultReason
  info : U32
deriving DecidableEq, Repr

/-- An event of the bus trace (60_exceptions R214). The status of a reset or a send is `none` while the platform has not
answered it; a delay and a seed have no status. -/
inductive Event where
  | reset (st : Option U32)
  | send (cmd : U64) (size flags : U32) (st : Option U32)
  | delay (n : U32)
  | seed (x y : U64)
deriving DecidableEq, Repr

/-- The working copy `W` of an operation, with `kused` (43_state_machine R160) and the answer buffers it fills
(20_memory R50). -/
structure Work where
  regs : Regs
  kused : Bool
  rsp4 : Memory
  hdrBuf : Memory
deriving DecidableEq, Repr

/-- The operations that have a step list (43_state_machine R163, R165 to R169). -/
inductive SeqOp where
  | init
  | setup
  | begin1
  | readsec
  | begin2
  | inspect
deriving DecidableEq, Repr

/-- A sequencer position `(op, step)` (10_state R28): one constructor for each step of the step lists of 43_state_machine, in
their order. A step that sends a command carries the fields its command embeds (30_encoding R78, R79). -/
inductive Position where
  /-- INIT: `Platform.reset()`, stage 0 -/
  | initReset
  /-- INIT: the dummy command, stage 1 -/
  | initDummy
  /-- INIT: `Platform.delay` -/
  | initDelay
  /-- INIT: the raw chip-id command, stage 2 -/
  | initRawChipid
  /-- INIT: `W.RAW_CHIP_ID <- LE32(RSP4, 0)` -/
  | initCapture
  /-- INIT: the header read, stage 3 -/
  | initHeaderRead
  /-- INIT: `header_parse` -/
  | initParse
  /-- INIT: `HDR_OUT <- HDR_BUF` -/
  | initOutput
  /-- INIT: `W.ENC_STATE <- RAW` -/
  | initEnter
  /-- INIT: `commit() ; return Ok` -/
  | initReturn
  /-- SETUP: the derived key and its first application -/
  | setupFirst
  /-- SETUP: the second application -/
  | setupSecond
  /-- SETUP: the three registers are written -/
  | setupWrite
  /-- SETUP: `return Ok` -/
  | setupReturn
  /-- BEGIN1: the four constants -/
  | begin1Constants
  /-- BEGIN1: the raw activation command, stage 1 -/
  | begin1Activate (ij : U24) (k20 : U20)
  /-- BEGIN1: `W.K1_FLAGS` -/
  | begin1Word
  /-- BEGIN1: the encoded seed command, stage 2 -/
  | begin1SeedInit (a : U16) (n : U24) (k20 : U20)
  /-- BEGIN1: `k2_apply_seed()`, the keystream pair -/
  | begin1SeedPair
  /-- BEGIN1: `k2_apply_seed()`, `Platform.seed` -/
  | begin1PlatformSeed
  /-- BEGIN1: both sub-flags are enabled -/
  | begin1Enable
  /-- BEGIN1: the encoded chip-id request, stage 3 -/
  | begin1Chipid (a : U16) (n : U24) (k20 : U20)
  /-- BEGIN1: `W.K2_CHIP_ID` -/
  | begin1StoreId
  /-- BEGIN1: the comparison, `commit()` and the return -/
  | begin1Compare
  /-- READSEC: the encoded read of chunk `j`, stage `j + 1` -/
  | readsecRead (j : Fin 4) (a : U16) (n : U24) (k20 : U20)
  /-- READSEC: `K1_K <- W.K1_K` -/
  | readsecCounter
  /-- READSEC: the return -/
  | readsecReturn
  /-- BEGIN2: the encoded activation command, stage 1 -/
  | begin2Activate (a : U16) (n : U24) (k20 : U20)
  /-- BEGIN2: `W.K2_FLAGS` -/
  | begin2Word
  /-- BEGIN2: the raw chip-id request, stage 2 -/
  | begin2Chipid
  /-- BEGIN2: `W.K2_CHIP_ID` -/
  | begin2StoreId
  /-- BEGIN2: the comparison, `commit()` and the return -/
  | begin2Compare
  /-- INSPECT: is the register written? -/
  | inspectCheck (r : RegName)
  /-- INSPECT: `RES0` and the return -/
  | inspectRead (r : RegName)
deriving DecidableEq, Repr

/-- `SEQ` (10_state R28): `IDLE`, the step that comes next, or the step whose platform request is outstanding; with the
operation's working copy. -/
inductive Seq where
  | idle
  | run (p : Position) (w : Work)
  | wait (p : Position) (w : Work)
deriving DecidableEq, Repr

/-- A host operation: the word `HOW`, the operand ports and the bulk input `SCHED_IN` (30_encoding R70). -/
structure HostOp where
  how : U32
  a : U32
  b : U32
  c : U32
  schedIn : List U32
deriving DecidableEq, Repr

/-- What the host may do in a step: issue an operation, block-reset the engine (70_reset_and_hazards R230), or neither. -/
inductive HostEvent where
  | op (o : HostOp)
  | blockReset
  | pass
deriving DecidableEq, Repr

/-- The platform's answer to a request: a status, and the bytes received (60_exceptions R210, R211). The answer to a delay or a
seed is that it returns; nothing of it is read (60_exceptions R212, R213; log 2). -/
structure Answer where
  st : U32
  bytes : Memory
deriving DecidableEq, Repr

/-- The machine's state. -/
structure State where
  /-- the registers of 10_state R20 -/
  regs : Regs
  /-- the fault latch `FAULT` (10_state R27) -/
  fault : Option FaultRecord
  /-- the sequencer `SEQ` (10_state R28) -/
  seq : Seq
  /-- the bus trace `TRACE`, oldest event first (60_exceptions R214) -/
  trace : List Event
  /-- the operand ports, as the host drives them (30_encoding R70) -/
  ports : HostOp
  /-- the result port `STATUS`; `none` is "no value" -/
  status : Option Status
  /-- the result port `RES0` -/
  res0 : Option U64
  /-- the result port `RES1` -/
  res1 : Option U64
  /-- the result ports `CHUNK[0..3]` -/
  chunk : Vector (Option Status) 4
  /-- the bulk output `HDR_OUT` -/
  hdrOut : Option Memory
  /-- the bulk output `SEC_OUT` -/
  secOut : Option Memory
  /-- the model's own: what the host will still do, step by step (log 1) -/
  host : List HostEvent
  /-- the model's own: what the platform will still answer; `none` is a step without an answer (log 2) -/
  answers : List (Option Answer)
  /-- the model's own: how many free chunks have been drawn (log 9) -/
  freeCount : Nat
deriving DecidableEq, Repr

/-- The model's stops that are faults. The spec's own faults are not here: they are latched records, taken as next
states (60_exceptions R202). -/
inductive Fault where
  /-- A bus command was given to `exec` where the sequencer has no such request outstanding: no step of the engine emits it
  there (30_encoding R81, R82). `step` never raises it. Safe: the machine stops. -/
  | notOutstanding
deriving DecidableEq, Repr

/-- The model's refusals. -/
inductive Refusal where
  /-- Raised by an arm of `exec` for an operation with no meaning in the model. Safe: nothing runs. -/
  | notModelled (mnemonic : String)
  /-- Raised by every host operation given to `exec` while `SEQ` is not IDLE: "A model may refuse the operation"
  (70_reset_and_hazards R236). `step` never raises it. Safe: nothing runs. -/
  | engineBusy
deriving DecidableEq, Repr

/-- The registers after block reset (70_reset_and_hazards R230). -/
def Regs.reset : Regs where
  encState := .uninit
  schedValid := false
  rawChipId := none
  hdrGameCode := none
  hdrKey1Timing := none
  hdrKey2Timing := none
  k2SeedByte := none
  k1Sched := none
  k1Key := none
  k1Ij := none
  k1K := none
  k1L := none
  k1Flags := none
  k2Mn := none
  k2Flags := none
  k2ChipId := none
  k2X := none
  k2Y := none

/-- The machine after block reset (70_reset_and_hazards R230), with nothing yet from the host or the platform.
DESIGN CHOICE: the operand ports, which the spec gives no reset value, are zero (log 8), the input lists are empty
(logs 1 and 2) and no free chunk has been drawn (log 9). -/
def State.reset : State where
  regs := Regs.reset
  fault := none
  seq := .idle
  trace := []
  ports := ⟨0, 0, 0, 0, []⟩
  status := none
  res0 := none
  res1 := none
  chunk := #v[none, none, none, none]
  hdrOut := none
  secOut := none
  host := []
  answers := []
  freeCount := 0

end Sys2Proof.Machine
end

