-- ==== Sys2Proof/Machine/Memory.lean ====
section
/-!
DEFINITION. Operations over the byte buffers (00_scope R9, 20_memory R50 to R53). A buffer is a list of cells in one canonical
form; every operation here keeps it (`Laws/Memory.lean`).
-/

namespace Sys2Proof.Machine

/-- What an unlisted offset reads as. It is a way of writing a buffer down, not a claim about the hardware: a buffer that
holds no value is `none` (log 10). -/
def Memory.unlisted : U8 := 0

/-- The canonical form: offsets strictly rising, no cell equal to what an unlisted offset reads as. -/
def Memory.wf : Memory → Bool
  | [] => true
  | [c] => c.2 != Memory.unlisted
  | c :: d :: m => c.2 != Memory.unlisted && decide (c.1 < d.1) && Memory.wf (d :: m)

/-- The byte at an offset. -/
def Memory.read : Memory → Nat → U8
  | [], _ => Memory.unlisted
  | c :: m, i => if c.1 = i then c.2 else Memory.read m i

/-- `MemRead(buf, off, n)` (00_scope R9). -/
def Memory.memRead (m : Memory) (off n : Nat) : List U8 :=
  (List.range n).map fun i => Memory.read m (off + i)

/-- The first `n` bytes of a buffer: an answer of `n` bytes (60_exceptions R211). -/
def Memory.restrict (m : Memory) (n : Nat) : Memory :=
  m.filter fun c => decide (c.1 < n)

/-- `MemWrite(buf, off, n, bytes)` (00_scope R9): the `n` bytes at `off` become the first `n` bytes of `src`. -/
def Memory.memWrite (m : Memory) (off n : Nat) (src : Memory) : Memory :=
  (m.filter fun c => decide (c.1 < off))
    ++ (Memory.restrict src n).map (fun c => (off + c.1, c.2))
    ++ m.filter fun c => decide (off + n ≤ c.1)

/-- The buffer of `n` bytes whose byte `i` is `f i`. -/
def Memory.ofFn (n : Nat) (f : Nat → U8) : Memory :=
  (List.range n).filterMap fun i => if f i = Memory.unlisted then none else some (i, f i)

/-- `LE32(buf, off)` (00_scope R9). -/
def le32 (m : Memory) (off : Nat) : U32 :=
  Memory.read m (off + 3) ++ Memory.read m (off + 2) ++ Memory.read m (off + 1) ++ Memory.read m off

end Sys2Proof.Machine
end

