-- ==== Sys2Proof/Config.lean ====
section
/-!
DEFINITION. The configuration record `cfg` (00_scope R3, 10_state R29), constant for the engine's lifetime, and the
constants the source fixes (00_scope R4). Every field of `cfg` is OPEN in the spec, so the engine's own `cfg` is an
opaque constant: no proof can see a value of it (log 4). Candidate values stand in `Machine/Candidates.lean` and are used by
tests only.
-/

namespace Sys2Proof

/-- The configuration record, field by field as in the table of 00_scope R3. A schedule is a vector of exactly
`schedWords` words (41_key1_encoder R130, R131). -/
structure Cfg where
  /-- `SCHED_WORDS` -/
  schedWords : Nat
  /-- `SEED_TABLE[0..7]` -/
  seedTable : Vector U8 8
  /-- `HW_SEED`, the platform's static capability flag -/
  hwSeed : Bool
  /-- `KEY1_LAYOUT(c, a, n, k20)` (30_encoding R78) -/
  key1Layout : U4 → U16 → U24 → U20 → U64
  /-- `ACT_LAYOUT(opc, ij, k20)` (30_encoding R79) -/
  actLayout : U8 → U24 → U20 → U64
  /-- `ACT1_OPC` -/
  act1Opc : U8
  /-- `DUMMY_CMD` -/
  dummyCmd : U64
  /-- `DUMMY_READ_SIZE` -/
  dummyReadSize : U32
  /-- `DUMMY_POSTDELAY` -/
  dummyPostdelay : U6
  /-- `INIT_DELAY` -/
  initDelay : U32
  /-- `RAW_CHIPID_CMD` -/
  rawChipidCmd : U64
  /-- `RAW_CHIPID_FLAGS` -/
  rawChipidFlags : U32
  /-- `HEADER_CMD` -/
  headerCmd : U64
  /-- `HEADER_FLAGS` -/
  headerFlags : U32
  /-- `ACT1_MASK` -/
  act1Mask : U32
  /-- `K1_HDR_MASK` -/
  k1HdrMask : U32
  /-- `K1_CUR_MASK` -/
  k1CurMask : U32
  /-- `LARGE_SECURE_BLOCK_MASK` -/
  largeSecureBlockMask : U32
  /-- `K1_CMD_SEED` -/
  k1CmdSeed : U4
  /-- `K1_CMD_CHIPID` -/
  k1CmdChipid : U4
  /-- `K1_CMD_SECREAD` -/
  k1CmdSecread : U4
  /-- `K1_CMD_ACT2` -/
  k1CmdAct2 : U4
  /-- `SEC_HDR_MASK` -/
  secHdrMask : U32
  /-- `K2_HDR_MASK` -/
  k2HdrMask : U32
  /-- `K2_SET` -/
  k2Set : U32
  /-- `K2_CHIPID_CMD` -/
  k2ChipidCmd : U64
  /-- `APPLY_KEY(s, key)` (41_key1_encoder R130) -/
  applyKey : Vector U32 schedWords → Key → Vector U32 schedWords × Key
  /-- `ENCRYPT_BLOCK(s, b)` (41_key1_encoder R131) -/
  encryptBlock : Vector U32 schedWords → U64 → U64
deriving Inhabited

namespace Config

/-- The engine's configuration: every field OPEN (00_scope R3), so the constant has no body. Log 4. -/
opaque cfg : Cfg

/-- DESIGN CHOICE (log 9): byte `i` of the `n`-th free chunk. The bytes of a failed READSEC chunk hold any value
(93_implementation_defined U9), so this constant has no body. -/
opaque freeByte : Nat → Nat → U8

/-- `INIT_MN` (00_scope R4). -/
def initMn : U24 := 0xC99ACE

/-- `INIT_IJ` (00_scope R4). -/
def initIj : U24 := 0x11A473

/-- `INIT_K` (00_scope R4). -/
def initK : U24 := 0x39D46

/-- `INIT_L` (00_scope R4). -/
def initL : U16 := 0

/-- The seed addend (00_scope R4). -/
def seedAddend : U64 := 0x6000

/-- `SEED_Y` (00_scope R4). -/
def seedY : U64 := 0x5C879B9B05

/-- The size of a chip-id answer in bytes (20_memory R57). -/
def chipIdSize : U32 := 4

/-- The size of the header block in bytes (00_scope R4). -/
def headerSize : U32 := 0x1000

/-- The size of one secure-block chunk in bytes (00_scope R4). -/
def chunkSize : U32 := 0x1000

end Config

end Sys2Proof
end

