-- ==== Sys2Proof/Machine/Operands.lean ====
section
/-!
DEFINITION. Operand forms and the encodings of named values: the operand ports (30_encoding R70, R73), byte reversal
(00_scope R9), the codes of registers, states, errors and faults (30_encoding R74, 10_state R21, 60_exceptions R201, R202).
-/

namespace Sys2Proof.Machine

/-- Port `A` (30_encoding R70). -/
def State.portA (s : State) : U32 := s.ports.a

/-- Port `B` (30_encoding R70). -/
def State.portB (s : State) : U32 := s.ports.b

/-- Port `C` (30_encoding R70). -/
def State.portC (s : State) : U32 := s.ports.c

/-- The bulk input `SCHED_IN` (20_memory R50). -/
def State.portSched (s : State) : List U32 := s.ports.schedIn

/-- A boolean operand is true when it is not zero (30_encoding R73, 00_scope R7). -/
def boolOperand (v : U32) : Bool := v != 0

/-- Does an operand need more than `n` bits (30_encoding R73)? -/
def tooWide (v : U32) (n : Nat) : Bool := decide (2 ^ n ≤ v.toNat)

/-- `b2u` (00_scope R7). -/
def b2u (b : Bool) : U64 := if b then 1 else 0

/-- `bswap64(v)` (00_scope R9): byte `i` of the result is byte `7 - i` of `v`. -/
def bswap64 (v : U64) : U64 :=
  v.extractLsb' 0 8 ++ v.extractLsb' 8 8 ++ v.extractLsb' 16 8 ++ v.extractLsb' 24 8
    ++ v.extractLsb' 32 8 ++ v.extractLsb' 40 8 ++ v.extractLsb' 48 8 ++ v.extractLsb' 56 8

/-- A platform status is an error when it is negative as an i32 (60_exceptions R210, R211). -/
def isError (st : U32) : Bool := decide (st.toInt < 0)

/-- The low 20 bits of the counter, `k[19:0]` (30_encoding R78). -/
def lowCounter (k : U24) : U20 := k.extractLsb' 0 20

/-- The encoding of `ENC_STATE` (10_state R21). -/
def encStateCode : EncState → BitVec 3
  | .uninit => 0
  | .raw => 1
  | .key1 => 2
  | .key2 => 3
  | .unknown => 4

/-- The selector code of a register (30_encoding R74). -/
def regSelector : RegName → U8
  | .encState => 0x00
  | .schedValid => 0x01
  | .hwSeed => 0x02
  | .rawChipId => 0x03
  | .hdrGameCode => 0x04
  | .hdrKey1Timing => 0x05
  | .hdrKey2Timing => 0x06
  | .k2SeedByte => 0x07
  | .k1Key0 => 0x08
  | .k1Key1 => 0x09
  | .k1Key2 => 0x0A
  | .k1Ij => 0x0B
  | .k1K => 0x0C
  | .k1L => 0x0D
  | .k1Flags => 0x0E
  | .k1Sched => 0x0F
  | .k2Mn => 0x10
  | .k2Flags => 0x11
  | .k2ChipId => 0x12
  | .k2X => 0x13
  | .k2Y => 0x14

/-- The status codes of the error kinds (60_exceptions R201). -/
def errorCode : ErrorKind → U8
  | .platformIo => 1
  | .verificationMismatch => 2
  | .invalidStateTransition => 3

/-- The codes of the fault reasons (60_exceptions R202). -/
def faultCode : FaultReason → U8
  | .illegalOp => 0x10
  | .contract => 0x11
  | .unwrittenRead => 0x12

/-- The sub-reason numbers of a `CONTRACT` fault (60_exceptions R202). -/
def breachCode : ContractBreach → U32
  | .operandWidth => 1
  | .schedSize => 2
  | .noSchedule => 3
  | .index => 4

/-- The `OK` status (60_exceptions R205). -/
def okStatus : Status := ⟨0, 0, 0⟩

/-- The status of a platform error at a stage (60_exceptions R205). -/
def ioStatus (stage : U8) (e : U32) : Status := ⟨errorCode .platformIo, stage, e⟩

/-- The status of an error that carries no stage (60_exceptions R205). -/
def errStatus (k : ErrorKind) : Status := ⟨errorCode k, 0, 0⟩

/-- The status of a fault: stage 0, and `e` holds the info (60_exceptions R205). -/
def faultStatus (f : FaultRecord) : Status := ⟨faultCode f.reason, 0, f.info⟩

/-- The legacy integer of a `PLATFORM_IO` status, `e - 100 * stage`; no other status has one (60_exceptions R206). -/
def legacyCode (st : Status) : Option Int :=
  if st.code = errorCode .platformIo then some (st.e.toInt - 100 * st.stage.toNat) else none

/-- A list of words as a schedule of `n` words. On a list of `n` words it is that list; a schedule register of another
length is in no state a run reaches, and is cut or filled with zeros (log 11). -/
def schedVector (n : Nat) (l : List U32) : Vector U32 n :=
  ⟨((l ++ List.replicate n 0).take n).toArray, by simp⟩

end Sys2Proof.Machine
end

