-- ==== Sys2Proof/Machine/Ops.lean ====
section
/-!
DEFINITION. The shared operations: how an operation ends (result, error, fault), how a host operation is accepted, the
transaction rule, the platform requests, and block reset. TAKING A FAULT is `raise`; the return from one is `blockReset`,
the only way to clear the latch (10_state R27, 60_exceptions R207).
-/

namespace Sys2Proof.Machine

/-! ## Results -/

/-- Every result port holds no value (30_encoding R70; log 7). -/
def clearPorts (s : State) : State :=
  { s with
    status := none, res0 := none, res1 := none, chunk := #v[none, none, none, none], hdrOut := none, secOut := none }

/-- An operation ends with a status: the sequencer is IDLE again (10_state R28, 60_exceptions R205). -/
def finish (s : State) (st : Status) : State :=
  { s with seq := .idle, status := some st }

/-- `return Ok` (00_scope R11). -/
def returnOk (s : State) : State := finish s okStatus

/-- `RES0 <- v ; return Ok`. -/
def returnRes0 (s : State) (v : U64) : State := finish { s with res0 := some v } okStatus

/-- `RES0 <- v ; RES1 <- v' ; return Ok`. -/
def returnRes01 (s : State) (v v' : U64) : State := finish { s with res0 := some v, res1 := some v' } okStatus

/-- `return Err(kind)` for the kinds that carry no stage (00_scope R11, 60_exceptions R201). -/
def returnErr (s : State) (k : ErrorKind) : State := finish s (errStatus k)

/-- TAKING A FAULT (60_exceptions R202): the latch records it, `STATUS` is written, the operation ends, and no other register
is written. The other result ports hold no value (R205). -/
def raise (s : State) (f : FaultRecord) : State :=
  { finish (clearPorts s) (faultStatus f) with fault := some f }

/-- `raise Fault(ILLEGAL_OP, HOW)` (30_encoding R72). -/
def raiseIllegal (s : State) (how : U32) : State := raise s ⟨.illegalOp, how⟩

/-- `raise Fault(CONTRACT, sub-reason)` (60_exceptions R202). -/
def raiseContract (s : State) (b : ContractBreach) : State := raise s ⟨.contract, breachCode b⟩

/-- `raise Fault(UNWRITTEN_READ, reg)` (10_state R23, 60_exceptions R202). -/
def raiseUnwritten (s : State) (r : RegName) : State := raise s ⟨.unwrittenRead, (regSelector r).setWidth 32⟩

/-- Reading a register (00_scope R8): the value, or the fault UNWRITTEN_READ when it holds none. -/
def readReg {α : Type} (s : State) (r : RegName) (v : Option α) (k : α → State) : State :=
  match v with
  | some x => k x
  | none => raiseUnwritten s r

/-! ## Accepting a host operation -/

/-- A host operation under a latched fault: it returns the latched status and has no other effect (60_exceptions R202). -/
def refuseLatched (s : State) (f : FaultRecord) : State :=
  { clearPorts s with status := some (faultStatus f) }

/-- A host operation. While `SEQ` is not IDLE it is refused (70_reset_and_hazards R236; log 13). Under a latched fault it is
answered by that fault (60_exceptions R204 (1)). Otherwise its body runs, with every result port holding no value yet
(30_encoding R70). -/
def hostOp (s : State) (body : State → State) : Host.Outcome State Fault Refusal :=
  match s.seq with
  | .run _ _ => .refused .engineBusy
  | .wait _ _ => .refused .engineBusy
  | .idle =>
    .next (match s.fault with
      | some f => refuseLatched s f
      | none => body (clearPorts s))

/-- An illegal host operation word (30_encoding R72): the fault ILLEGAL_OP with the whole word as its info. -/
def illegalOperation (s : State) : Host.Outcome State Fault Refusal :=
  hostOp s fun s => raiseIllegal s s.ports.how

/-- The precondition of a state-machine operation (43_state_machine R161): in any other state it returns
INVALID_STATE_TRANSITION and does nothing else. -/
def requireState (s : State) (e : EncState) (body : State → State) : State :=
  if s.regs.encState = e then body s else returnErr s .invalidStateTransition

/-! ## The transaction rule (43_state_machine R160) -/

/-- `W <- registers ; kused <- false`. -/
def beginWork (s : State) : Work := ⟨s.regs, false, [], []⟩

/-- `commit()`: every `W.REG` becomes the register. -/
def commit (s : State) (w : Work) : State := { s with regs := w.regs }

/-- `abort(stage, e)`: only `K1_K` is written, and only if the encoder has run; then `Err(PLATFORM_IO, stage, e)`. -/
def abort (s : State) (w : Work) (stage : U8) (e : U32) : State :=
  finish { s with regs := { s.regs with k1K := if w.kused then w.regs.k1K else s.regs.k1K } } (ioStatus stage e)

/-! ## The sequencer and platform requests (10_state R28, 60_exceptions R210 to R214) -/

/-- `seq <- step` (00_scope R11). -/
def advance (s : State) (p : Position) (w : Work) : State := { s with seq := .run p w }

/-- A platform event is appended to `TRACE` when it is called (60_exceptions R214). -/
def record (s : State) (e : Event) : State := { s with trace := s.trace ++ [e] }

/-- A request is made: its event is in `TRACE`, without a status, and the sequencer waits (10_state R28, 60_exceptions
R214). -/
def request (s : State) (p : Position) (w : Work) (e : Event) : State :=
  { record s e with seq := .wait p w }

/-- Has the event a status still to come? A delay and a seed never have one. -/
def Event.pending : Event → Bool
  | .reset none => true
  | .send _ _ _ none => true
  | _ => false

/-- An event whose status is to come takes that of its answer; any other stays as it is. -/
def Event.answered : Event → U32 → Event
  | .reset none, st => .reset (some st)
  | .send cmd size flags none, st => .send cmd size flags (some st)
  | e, _ => e

/-- The last event of the trace is answered. -/
def settle : List Event → U32 → List Event
  | [], _ => []
  | [e], st => [e.answered st]
  | e :: e' :: l, st => e :: settle (e' :: l) st

/-- The answer to the outstanding request: its status joins its event, if that has one, and the operation goes on. While the platform has not
answered, the engine has no step (10_state R28, 60_exceptions R203; log 3). -/
def onAnswer (s : State) (k : State → Answer → State) : State :=
  match s.answers with
  | [] => s
  | none :: rest => { s with answers := rest }
  | some a :: rest => k { s with answers := rest, trace := settle s.trace a.st } a

/-- The answer to a request that returns nothing and cannot fail (60_exceptions R212, R213): the operation goes on, once the
platform has returned (log 3). -/
def onReturn (s : State) (w : Work) (next : Position) : State := onAnswer s fun s _ => advance s next w

/-- A platform request of a step: making it, and what its answer does. -/
abbrev Exchange : Type := (State → Work → State) × (State → Work → State)

/-- A step that makes a request takes the answer with it if the platform has one (20_memory R57; log 3). -/
def exchange (q : Exchange) (s : State) (w : Work) : State :=
  match (q.1 s w).seq with
  | .wait _ w' => q.2 (q.1 s w) w'
  | .idle => q.1 s w
  | .run _ _ => q.1 s w

/-- The destination of an answer (60_exceptions R211): nothing is kept, or a buffer of the working copy. -/
inductive Dest where
  | none
  | discard
  | rsp4
  | hdrBuf
deriving DecidableEq, Repr

/-- The bytes of an answer go to their destination (43_state_machine R162). -/
def deliver (w : Work) (d : Dest) (bytes : Memory) : Work :=
  match d with
  | .none => w
  | .discard => w
  | .rsp4 => { w with rsp4 := bytes }
  | .hdrBuf => { w with hdrBuf := bytes }

/-- The answer of `call(stage, cmd, size, dest, flags)` (43_state_machine R162): an error aborts; otherwise exactly `size`
bytes (60_exceptions R211) are delivered and the operation goes on. -/
def callAnswer (s : State) (w : Work) (stage : U8) (size : U32) (d : Dest) (next : Position) : State :=
  onAnswer s fun s a =>
    if isError a.st then abort s w stage a.st
    else advance s next (deliver w d (Memory.restrict a.bytes size.toNat))

/-! ## Block reset (70_reset_and_hazards R230) -/

/-- Block reset: every piece of engine state goes to its reset value. The operand ports, the host's and the platform's
lists and the free-value counter are not the engine's and stay (log 14). -/
def blockReset (s : State) : State :=
  { State.reset with ports := s.ports, host := s.host, answers := s.answers, freeCount := s.freeCount }

end Sys2Proof.Machine
end

