-- ==== Sys2Proof/Machine/Encoder.lean ====
section
/-!
DEFINITION. KEY1 key derivation and command encoder (41_key1_encoder). The functions take the configuration as an argument;
the operations use the engine's `Config.cfg`.
-/

namespace Sys2Proof.Machine

/-- `derive_key(gc)`: logical shifts (41_key1_encoder R132). -/
def deriveKey (gc : U32) : Key := ⟨gc, gc >>> 1, gc <<< 1⟩

/-- `k1_plain(c, a, n, kk)` (41_key1_encoder R134). -/
def k1Plain (cfg : Cfg) (c : U4) (a : U16) (n : U24) (kk : U24) : U64 := cfg.key1Layout c a n (lowCounter kk)

/-- From plaintext to wire command: byte reversal, the cipher, byte reversal (41_key1_encoder R135). -/
def k1Wire (cfg : Cfg) (sched : List U32) (p : U64) : U64 :=
  bswap64 (cfg.encryptBlock (schedVector cfg.schedWords sched) (bswap64 p))

/-- The counter after one encoding: `(kk + 1) mod 2^24` (41_key1_encoder R135, 10_state R25). -/
def nextCounter (kk : U24) : U24 := kk + 1

/-- `k1_encode` of a plaintext, in a working copy (41_key1_encoder R135, 43_state_machine R160): the wire command and the copy
with the counter consumed. -/
def encodeInWork (cfg : Cfg) (s : State) (w : Work) (p : U24 → U64) (k : U64 → Work → State) : State :=
  readReg s .k1K w.regs.k1K fun kk =>
  readReg s .k1Sched w.regs.k1Sched fun sched =>
    k (k1Wire cfg sched (p kk)) { w with regs := { w.regs with k1K := some (nextCounter kk) }, kused := true }

/-- `k1.encode` (41_key1_encoder R136), for a configuration. -/
def k1EncodeOp (cfg : Cfg) (s : State) : Host.Outcome State Fault Refusal :=
  hostOp s fun s =>
    if tooWide s.portA 4 || tooWide s.portB 16 || tooWide s.portC 24 then raiseContract s .operandWidth
    else if s.regs.schedValid = false then raiseUnwritten s .k1Sched
    else
      encodeInWork cfg s (beginWork s)
        (k1Plain cfg (s.portA.setWidth 4) (s.portB.setWidth 16) (s.portC.setWidth 24))
        fun word w => returnRes0 { s with regs := { s.regs with k1K := w.regs.k1K } } word

/-- `k1.encode` (41_key1_encoder R136). -/
def execK1Encode (s : State) : Host.Outcome State Fault Refusal := k1EncodeOp Config.cfg s

/-- `k1.derive` (41_key1_encoder R133). -/
def execK1Derive (s : State) : Host.Outcome State Fault Refusal :=
  hostOp s fun s =>
    let key := deriveKey s.portA
    returnRes01 s (key.k1 ++ key.k0) (key.k2.setWidth 64)

end Sys2Proof.Machine
end

