-- ==== Sys2Proof/Machine/Seeder.lean ====
section
/-!
DEFINITION. The KEY2 keystream seeder (42_keystream_seeder).
-/

namespace Sys2Proof.Machine

/-- The seed table entry that bits 2:0 of the seed byte select (42_keystream_seeder R150). -/
def seedEntry (cfg : Cfg) (sb : U8) : U8 := cfg.seedTable[(sb &&& 7).toNat % 8]

/-- `x` of `k2_seed(sb, mn)` (42_keystream_seeder R150). -/
def k2SeedX (cfg : Cfg) (sb : U8) (mn : U24) : U64 :=
  (seedEntry cfg sb).setWidth 64 + (mn.setWidth 64 <<< 15) + Config.seedAddend

/-- `y` of `k2_seed(sb, mn)` (42_keystream_seeder R150). -/
def k2SeedY : U64 := Config.seedY

/-- `k2_apply_seed()` (42_keystream_seeder R151): the pair goes into the working copy. -/
def k2SeedPair (cfg : Cfg) (s : State) (w : Work) (k : Work → State) : State :=
  readReg s .k2SeedByte s.regs.k2SeedByte fun sb =>
  readReg s .k2Mn w.regs.k2Mn fun mn =>
    k { w with regs := { w.regs with k2X := some (k2SeedX cfg sb mn), k2Y := some k2SeedY } }

/-- `k2_apply_seed()` (42_keystream_seeder R151): `Platform.seed` of the pair, which returns nothing and cannot fail
(60_exceptions R213); the platform still answers the request (00_scope R1). -/
def platformSeed : Exchange :=
  (fun s w =>
    readReg s .k2X w.regs.k2X fun x =>
    readReg s .k2Y w.regs.k2Y fun y =>
      request s .begin1PlatformSeed w (.seed x y),
   fun s w => onReturn s w .begin1Enable)

/-- `k2.seed` (42_keystream_seeder R152), for a configuration. -/
def k2SeedOp (cfg : Cfg) (s : State) : Host.Outcome State Fault Refusal :=
  hostOp s fun s =>
    if tooWide s.portA 8 || tooWide s.portB 24 then raiseContract s .operandWidth
    else returnRes01 s (k2SeedX cfg (s.portA.setWidth 8) (s.portB.setWidth 24)) k2SeedY

/-- `k2.seed` (42_keystream_seeder R152). -/
def execK2Seed (s : State) : Host.Outcome State Fault Refusal := k2SeedOp Config.cfg s

end Sys2Proof.Machine
end

