-- ==== Sys2Proof/Machine/Sequencer.lean ====
section
/-!
DEFINITION. The sequencer (10_state R28): the steps of the operations of 43_state_machine R163 to R169, one definition for each,
in the order of their step lists. A step that makes a platform request is an `Exchange`: making the request, and what its
answer does. A line of a step list that only names a value belongs to the step that uses it, and a line that acts on the
value its request returned belongs to the request's step (log 12).
-/

namespace Sys2Proof.Machine

/-! ## INIT (43_state_machine R163) -/

/-- `Platform.reset()`, stage 0. -/
def linkReset : Exchange :=
  (fun s w => request s .initReset w (.reset none),
   fun s w => onAnswer s fun s a => if isError a.st then abort s w 0 a.st else advance s .initDummy w)

/-- The dummy flags word `fd`: slow clock and the fixed post-delay. -/
def dummyFlags (cfg : Cfg) : U32 := nfConstruct 0 (cfg.dummyPostdelay.setWidth 32) false false false true

/-- The dummy raw command, whose answer is not kept, stage 1. -/
def dummyCommand (cfg : Cfg) : Exchange :=
  (fun s w => request s .initDummy w (.send cfg.dummyCmd cfg.dummyReadSize (dummyFlags cfg) none),
   fun s w => callAnswer s w 1 cfg.dummyReadSize .discard .initDelay)

/-- `Platform.delay`, a blocking wait: it returns nothing and cannot fail (60_exceptions R203, R212). -/
def delayRequest (cfg : Cfg) : Exchange :=
  (fun s w => request s .initDelay w (.delay cfg.initDelay),
   fun s w => onReturn s w .initRawChipid)

/-- The raw chip-id command, stage 2. -/
def rawChipidCommand (cfg : Cfg) : Exchange :=
  (fun s w => request s .initRawChipid w (.send cfg.rawChipidCmd Config.chipIdSize cfg.rawChipidFlags none),
   fun s w => callAnswer s w 2 Config.chipIdSize .rsp4 .initCapture)

/-- `W.RAW_CHIP_ID <- LE32(RSP4, 0)`. -/
def captureStep (s : State) (w : Work) : State :=
  advance s .initHeaderRead { w with regs := { w.regs with rawChipId := some (le32 w.rsp4 0) } }

/-- The header read, stage 3. -/
def headerCommand (cfg : Cfg) : Exchange :=
  (fun s w => request s .initHeaderRead w (.send cfg.headerCmd Config.headerSize cfg.headerFlags none),
   fun s w => callAnswer s w 3 Config.headerSize .hdrBuf .initParse)

/-- `header_parse(W, H)` (43_state_machine R164, 20_memory R52). -/
def headerParse (r : Regs) (h : Memory) : Regs :=
  { r with
    hdrGameCode := some (le32 h 0x0C), k2SeedByte := some (Memory.read h 0x13)
    hdrKey2Timing := some (le32 h 0x60), hdrKey1Timing := some (le32 h 0x64) }

/-- `header_parse(W, HDR_BUF)`. -/
def parseStep (s : State) (w : Work) : State := advance s .initOutput { w with regs := headerParse w.regs w.hdrBuf }

/-- `HDR_OUT <- HDR_BUF`. -/
def outputStep (s : State) (w : Work) : State := advance { s with hdrOut := some w.hdrBuf } .initEnter w

/-- `W.ENC_STATE <- RAW`. -/
def enterStep (s : State) (w : Work) : State := advance s .initReturn { w with regs := { w.regs with encState := .raw } }

/-- `commit() ; return Ok`. -/
def commitStep (s : State) (w : Work) : State := returnOk (commit s w)

/-! ## SETUP (43_state_machine R165) -/

/-- `APPLY_KEY` on a schedule (41_key1_encoder R130). -/
def applyKey (cfg : Cfg) (sched : List U32) (key : Key) : List U32 × Key :=
  let result := cfg.applyKey (schedVector cfg.schedWords sched) key
  (result.1.toList, result.2)

/-- The working copy takes the schedule and key an application returned. -/
def keepApplied (w : Work) (result : List U32 × Key) : Work :=
  { w with regs := { w.regs with k1Sched := some result.1, k1Key := some result.2 } }

/-- The first application, of the derived key to the host's table. -/
def firstApplication (cfg : Cfg) (s : State) (w : Work) : State :=
  readReg s .hdrGameCode s.regs.hdrGameCode fun gameCode =>
    advance s .setupSecond (keepApplied w (applyKey cfg s.portSched (deriveKey gameCode)))

/-- The second application, of the key and to the schedule that the first returned. -/
def secondApplication (cfg : Cfg) (s : State) (w : Work) : State :=
  readReg s .k1Sched w.regs.k1Sched fun sched =>
  readReg s .k1Key0 w.regs.k1Key fun key =>
    advance s .setupWrite (keepApplied w (applyKey cfg sched key))

/-- `K1_SCHED <- s2 ; K1_KEY <- key2 ; SCHED_VALID <- 1`. -/
def writeSchedule (s : State) (w : Work) : State :=
  advance { s with regs := { s.regs with k1Sched := w.regs.k1Sched, k1Key := w.regs.k1Key, schedValid := true } }
    .setupReturn w

/-! ## BEGIN1 (43_state_machine R166) -/

/-- The registers BEGIN1 sets first. -/
def loadConstants (r : Regs) : Regs :=
  { r with
    k2Mn := some Config.initMn, k1Ij := some Config.initIj, k1K := some Config.initK, k1L := some Config.initL }

/-- The four constants; the activation command comes next and embeds two of them. -/
def constantsStep (s : State) (w : Work) : State :=
  advance s (.begin1Activate Config.initIj (lowCounter Config.initK)) { w with regs := loadConstants w.regs }

/-- A KEY1-encoded command comes next: its argument, its nonce and the low counter bits, from the working copy. -/
def formKey1 (s : State) (w : Work) (a : U16) (nonceReg : RegName) (nonce : Option U24)
    (mk : U16 → U24 → U20 → Position) : State :=
  readReg s nonceReg nonce fun n =>
  readReg s .k1K w.regs.k1K fun kk =>
    advance s (mk a n (lowCounter kk)) w

/-- A KEY1-encoded request: the command is encoded, which consumes a counter value, and sent (41_key1_encoder R135). -/
def requestEncoded (cfg : Cfg) (s : State) (w : Work) (p : Position) (c : U4) (a : U16) (n : U24) (k20 : U20)
    (size flags : U32) : State :=
  encodeInWork cfg s w (fun _ => cfg.key1Layout c a n k20) fun word w => request s p w (.send word size flags none)

/-- `f_act`: the activation command's word (43_state_machine R166). -/
def actFlags (cfg : Cfg) (key2Timing : U32) : U32 := key2Timing &&& cfg.act1Mask

/-- The raw activation command, stage 1; the counter is embedded, not consumed. -/
def activateKey1Command (cfg : Cfg) (ij : U24) (k20 : U20) : Exchange :=
  (fun s w =>
    readReg s .hdrKey2Timing s.regs.hdrKey2Timing fun key2Timing =>
      request s (.begin1Activate ij k20) w
        (.send (cfg.actLayout cfg.act1Opc ij k20) 0 (actFlags cfg key2Timing) none),
   fun s w => callAnswer s w 1 0 .none .begin1Word)

/-- `K1_FLAGS` before the sub-flags are enabled (43_state_machine R166). -/
def k1WorkingWord (cfg : Cfg) (key1Timing fAct : U32) : U32 :=
  (key1Timing &&& cfg.k1HdrMask) ||| (fAct &&& cfg.k1CurMask) ||| cfg.largeSecureBlockMask

/-- `W.K1_FLAGS`; the seed command comes next. -/
def k1WordStep (cfg : Cfg) (s : State) (w : Work) : State :=
  readReg s .hdrKey2Timing s.regs.hdrKey2Timing fun key2Timing =>
  readReg s .hdrKey1Timing s.regs.hdrKey1Timing fun key1Timing =>
  readReg s .k1L w.regs.k1L fun l =>
    formKey1 s
      { w with regs := { w.regs with k1Flags := some (k1WorkingWord cfg key1Timing (actFlags cfg key2Timing)) } }
      l .k2Mn w.regs.k2Mn .begin1SeedInit

/-- The encoded seed command, stage 2. -/
def key2SeedInitCommand (cfg : Cfg) (a : U16) (n : U24) (k20 : U20) : Exchange :=
  (fun s w =>
    readReg s .k1Flags w.regs.k1Flags fun flags =>
      requestEncoded cfg s w (.begin1SeedInit a n k20) cfg.k1CmdSeed a n k20 0 flags,
   fun s w => callAnswer s w 2 0 .none .begin1SeedPair)

/-- `k2_apply_seed()`: the keystream pair (42_keystream_seeder R151). -/
def seedPairStep (cfg : Cfg) (s : State) (w : Work) : State := k2SeedPair cfg s w fun w => advance s .begin1PlatformSeed w

/-- `k2_apply_seed()`: the pair is handed to the platform when it seeds in hardware; else the step makes no request
(42_keystream_seeder R151, 60_exceptions R213). -/
def platformSeedStep (cfg : Cfg) (s : State) (w : Work) : State :=
  if cfg.hwSeed then exchange platformSeed s w else advance s .begin1Enable w

/-- Both sub-flags are enabled; the chip-id request comes next. -/
def enableStep (s : State) (w : Work) : State :=
  readReg s .k1Flags w.regs.k1Flags fun flags =>
  readReg s .k1L w.regs.k1L fun l =>
    formKey1 s { w with regs := { w.regs with k1Flags := some (enableBoth flags) } }
      l .k1Ij w.regs.k1Ij .begin1Chipid

/-- The encoded chip-id request, stage 3. -/
def key1ChipidCommand (cfg : Cfg) (a : U16) (n : U24) (k20 : U20) : Exchange :=
  (fun s w =>
    readReg s .k1Flags w.regs.k1Flags fun flags =>
      requestEncoded cfg s w (.begin1Chipid a n k20) cfg.k1CmdChipid a n k20 Config.chipIdSize flags,
   fun s w => callAnswer s w 3 Config.chipIdSize .rsp4 .begin1StoreId)

/-- `W.K2_CHIP_ID <- LE32(RSP4, 0)`, in BEGIN1 and BEGIN2. -/
def storeIdStep (s : State) (w : Work) (next : Position) : State :=
  advance s next { w with regs := { w.regs with k2ChipId := some (le32 w.rsp4 0) } }

/-- The chip-id check that ends BEGIN1 and BEGIN2: the working copy is committed in the state the comparison gives
(43_state_machine R166, R168). -/
def compareStep (s : State) (w : Work) (entered : EncState) : State :=
  readReg s .k2ChipId w.regs.k2ChipId fun chipId =>
  readReg s .rawChipId s.regs.rawChipId fun rawId =>
    if chipId = rawId then returnOk (commit s { w with regs := { w.regs with encState := entered } })
    else returnErr (commit s { w with regs := { w.regs with encState := .unknown } }) .verificationMismatch

/-! ## READSEC (43_state_machine R167) -/

/-- `fs`: the secure reads' word, with both sub-flags enabled. -/
def secureFlags (cfg : Cfg) (key1Timing : U32) : U32 :=
  enableBoth ((key1Timing &&& cfg.secHdrMask) ||| cfg.largeSecureBlockMask)

/-- The argument of the secure read into chunk `j` (20_memory R51). -/
def secureArgument (j : Fin 4) : U16 := 4 + BitVec.ofNat 16 j.val

/-- The offset of chunk `j` (20_memory R51). -/
def chunkOffset (j : Fin 4) : Nat := j.val * 0x1000

/-- DESIGN CHOICE (log 9): the bytes of a failed chunk hold any value (93_implementation_defined U9); draw `n` of the opaque
`Config.freeByte`. -/
def freeChunk (n : Nat) : Memory := Memory.ofFn Config.chunkSize.toNat (Config.freeByte n)

/-- The answer to the secure read of chunk `j` (43_state_machine R167): its bytes and its status. -/
def storeChunk (s : State) (j : Fin 4) (st : U32) (bytes : Memory) : State :=
  let out := s.secOut.getD []
  if isError st then
    { s with
      secOut := some (Memory.memWrite out (chunkOffset j) Config.chunkSize.toNat (freeChunk s.freeCount))
      freeCount := s.freeCount + 1
      chunk := s.chunk.set j.val (some (ioStatus (BitVec.ofNat 8 (j.val + 1)) st)) }
  else
    { s with
      secOut := some (Memory.memWrite out (chunkOffset j) Config.chunkSize.toNat bytes)
      chunk := s.chunk.set j.val (some okStatus) }

/-- After chunk `j`: the next secure read, or the end of the loop. -/
def afterChunk (s : State) (w : Work) (j : Fin 4) : State :=
  if h : j.val + 1 < 4 then
    formKey1 s w (secureArgument ⟨j.val + 1, h⟩) .k1Ij w.regs.k1Ij (.readsecRead ⟨j.val + 1, h⟩)
  else advance s .readsecCounter w

/-- The secure read into chunk `j`, stage `j + 1`. A failed one does not stop the later ones. -/
def secureReadCommand (cfg : Cfg) (j : Fin 4) (a : U16) (n : U24) (k20 : U20) : Exchange :=
  (fun s w =>
    readReg s .hdrKey1Timing s.regs.hdrKey1Timing fun key1Timing =>
      requestEncoded cfg s w (.readsecRead j a n k20) cfg.k1CmdSecread a n k20 Config.chunkSize
        (secureFlags cfg key1Timing),
   fun s w => onAnswer s fun s answer => afterChunk (storeChunk s j answer.st answer.bytes) w j)

/-- `K1_K <- W.K1_K`: the only register READSEC writes. -/
def counterStep (s : State) (w : Work) : State :=
  advance { s with regs := { s.regs with k1K := w.regs.k1K } } .readsecReturn w

/-- The summary status of READSEC: the first chunk that is not OK, else OK (43_state_machine R167). -/
def summaryStatus : List (Option Status) → Status
  | [] => okStatus
  | some st :: l => if st = okStatus then summaryStatus l else st
  | none :: l => summaryStatus l

/-- READSEC returns. -/
def summaryStep (s : State) : State := finish s (summaryStatus s.chunk.toList)

/-! ## BEGIN2 (43_state_machine R168) -/

/-- The encoded activation command of the second regime, stage 1. -/
def activateKey2Command (cfg : Cfg) (a : U16) (n : U24) (k20 : U20) : Exchange :=
  (fun s w =>
    readReg s .k1Flags w.regs.k1Flags fun flags =>
      requestEncoded cfg s w (.begin2Activate a n k20) cfg.k1CmdAct2 a n k20 0 flags,
   fun s w => callAnswer s w 1 0 .none .begin2Word)

/-- `K2_FLAGS` (43_state_machine R168). -/
def k2WorkingWord (cfg : Cfg) (key2Timing : U32) : U32 := (key2Timing &&& cfg.k2HdrMask) ||| cfg.k2Set

/-- `W.K2_FLAGS`. -/
def k2WordStep (cfg : Cfg) (s : State) (w : Work) : State :=
  readReg s .hdrKey2Timing s.regs.hdrKey2Timing fun key2Timing =>
    advance s .begin2Chipid { w with regs := { w.regs with k2Flags := some (k2WorkingWord cfg key2Timing) } }

/-- The raw chip-id request under the second regime's word, stage 2. -/
def key2ChipidCommand (cfg : Cfg) : Exchange :=
  (fun s w =>
    readReg s .k2Flags w.regs.k2Flags fun flags =>
      request s .begin2Chipid w (.send cfg.k2ChipidCmd Config.chipIdSize flags none),
   fun s w => callAnswer s w 2 Config.chipIdSize .rsp4 .begin2StoreId)

/-! ## INSPECT (43_state_machine R169) -/

/-- The value of the register a selector names, zero-extended; `none` when it is unwritten (30_encoding R74, 43_state_machine
R169). `i` is the index into the schedule. -/
def regValue (cfg : Cfg) (r : Regs) (i : Nat) : RegName → Option U64
  | .encState => some ((encStateCode r.encState).setWidth 64)
  | .schedValid => some (b2u r.schedValid)
  | .hwSeed => some (b2u cfg.hwSeed)
  | .rawChipId => r.rawChipId.map (BitVec.setWidth 64)
  | .hdrGameCode => r.hdrGameCode.map (BitVec.setWidth 64)
  | .hdrKey1Timing => r.hdrKey1Timing.map (BitVec.setWidth 64)
  | .hdrKey2Timing => r.hdrKey2Timing.map (BitVec.setWidth 64)
  | .k2SeedByte => r.k2SeedByte.map (BitVec.setWidth 64)
  | .k1Key0 => r.k1Key.map fun key => key.k0.setWidth 64
  | .k1Key1 => r.k1Key.map fun key => key.k1.setWidth 64
  | .k1Key2 => r.k1Key.map fun key => key.k2.setWidth 64
  | .k1Ij => r.k1Ij.map (BitVec.setWidth 64)
  | .k1K => r.k1K.map (BitVec.setWidth 64)
  | .k1L => r.k1L.map (BitVec.setWidth 64)
  | .k1Flags => r.k1Flags.map (BitVec.setWidth 64)
  | .k1Sched => if r.schedValid then r.k1Sched.map fun l => (l.getD i 0).setWidth 64 else none
  | .k2Mn => r.k2Mn.map (BitVec.setWidth 64)
  | .k2Flags => r.k2Flags.map (BitVec.setWidth 64)
  | .k2ChipId => r.k2ChipId.map (BitVec.setWidth 64)
  | .k2X => r.k2X
  | .k2Y => r.k2Y

/-- The register INSPECT reads, with the index of port `A`. -/
def inspected (cfg : Cfg) (s : State) (r : RegName) : Option U64 := regValue cfg s.regs s.portA.toNat r

/-- `if reg is unwritten: raise Fault(UNWRITTEN_READ, reg)`. -/
def inspectCheckStep (cfg : Cfg) (s : State) (w : Work) (r : RegName) : State :=
  readReg s r (inspected cfg s r) fun _ => advance s (.inspectRead r) w

/-- `RES0 <- zext_64(reg) ; return Ok`. -/
def inspectReadStep (cfg : Cfg) (s : State) (r : RegName) : State :=
  readReg s r (inspected cfg s r) fun v => returnRes0 s v

/-! ## Running the sequencer -/

/-- The platform request of a step, if it makes one (00_scope R1): the link reset, a command, the delay, and the seed where the
platform seeds in hardware. -/
def exchangeOf (cfg : Cfg) : Position → Option Exchange
  | .initReset => some linkReset
  | .initDummy => some (dummyCommand cfg)
  | .initDelay => some (delayRequest cfg)
  | .initRawChipid => some (rawChipidCommand cfg)
  | .initHeaderRead => some (headerCommand cfg)
  | .begin1Activate ij k20 => some (activateKey1Command cfg ij k20)
  | .begin1SeedInit a n k20 => some (key2SeedInitCommand cfg a n k20)
  | .begin1PlatformSeed => if cfg.hwSeed then some platformSeed else none
  | .begin1Chipid a n k20 => some (key1ChipidCommand cfg a n k20)
  | .readsecRead j a n k20 => some (secureReadCommand cfg j a n k20)
  | .begin2Activate a n k20 => some (activateKey2Command cfg a n k20)
  | .begin2Chipid => some (key2ChipidCommand cfg)
  | .initCapture | .initParse | .initOutput | .initEnter | .initReturn => none
  | .setupFirst | .setupSecond | .setupWrite | .setupReturn => none
  | .begin1Constants | .begin1Word | .begin1SeedPair | .begin1Enable | .begin1StoreId | .begin1Compare => none
  | .readsecCounter | .readsecReturn => none
  | .begin2Word | .begin2StoreId | .begin2Compare => none
  | .inspectCheck _ | .inspectRead _ => none

/-- A step: the request it makes, or what it does by itself. -/
def runPosition (cfg : Cfg) (s : State) (w : Work) : Position → State
  | .initReset => exchange linkReset s w
  | .initDummy => exchange (dummyCommand cfg) s w
  | .initDelay => exchange (delayRequest cfg) s w
  | .initRawChipid => exchange (rawChipidCommand cfg) s w
  | .initCapture => captureStep s w
  | .initHeaderRead => exchange (headerCommand cfg) s w
  | .initParse => parseStep s w
  | .initOutput => outputStep s w
  | .initEnter => enterStep s w
  | .initReturn => commitStep s w
  | .setupFirst => firstApplication cfg s w
  | .setupSecond => secondApplication cfg s w
  | .setupWrite => writeSchedule s w
  | .setupReturn => returnOk s
  | .begin1Constants => constantsStep s w
  | .begin1Activate ij k20 => exchange (activateKey1Command cfg ij k20) s w
  | .begin1Word => k1WordStep cfg s w
  | .begin1SeedInit a n k20 => exchange (key2SeedInitCommand cfg a n k20) s w
  | .begin1SeedPair => seedPairStep cfg s w
  | .begin1PlatformSeed => platformSeedStep cfg s w
  | .begin1Enable => enableStep s w
  | .begin1Chipid a n k20 => exchange (key1ChipidCommand cfg a n k20) s w
  | .begin1StoreId => storeIdStep s w .begin1Compare
  | .begin1Compare => compareStep s w .key1
  | .readsecRead j a n k20 => exchange (secureReadCommand cfg j a n k20) s w
  | .readsecCounter => counterStep s w
  | .readsecReturn => summaryStep s
  | .begin2Activate a n k20 => exchange (activateKey2Command cfg a n k20) s w
  | .begin2Word => k2WordStep cfg s w
  | .begin2Chipid => exchange (key2ChipidCommand cfg) s w
  | .begin2StoreId => storeIdStep s w .begin2Compare
  | .begin2Compare => compareStep s w .key2
  | .inspectCheck r => inspectCheckStep cfg s w r
  | .inspectRead r => inspectReadStep cfg s r

/-- The answer of an outstanding request. -/
def answerPosition (cfg : Cfg) (s : State) (w : Work) (p : Position) : State :=
  match exchangeOf cfg p with
  | some q => q.2 s w
  | none => s

/-- One step of the sequencer (10_state R28). An engine with a latched fault has no step (10_state R27; log 16). -/
def seqStep (cfg : Cfg) (s : State) : State :=
  match s.fault with
  | some _ => s
  | none =>
    match s.seq with
    | .idle => s
    | .run p w => runPosition cfg s w p
    | .wait p w => answerPosition cfg s w p

/-- `n` steps of the sequencer; at IDLE there is none left. -/
def drive (cfg : Cfg) : Nat → State → State
  | 0, s => s
  | n + 1, s => drive cfg n (seqStep cfg s)

/-- No step list is longer than this. -/
def maxSteps : Nat := 10

/-- As many steps as the longest step list has: to the end of the running operation where the platform answers each request in
its step, or to the first request that it does not answer. -/
def toEnd (s : State) : State := drive Config.cfg maxSteps s

/-! ## The step lists -/

/-- The operation of a position. -/
def Position.op : Position → SeqOp
  | .initReset | .initDummy | .initDelay | .initRawChipid | .initCapture | .initHeaderRead | .initParse | .initOutput
  | .initEnter | .initReturn => .init
  | .setupFirst | .setupSecond | .setupWrite | .setupReturn => .setup
  | .begin1Constants | .begin1Activate _ _ | .begin1Word | .begin1SeedInit _ _ _ | .begin1SeedPair
  | .begin1PlatformSeed | .begin1Enable | .begin1Chipid _ _ _ | .begin1StoreId | .begin1Compare => .begin1
  | .readsecRead _ _ _ _ | .readsecCounter | .readsecReturn => .readsec
  | .begin2Activate _ _ _ | .begin2Word | .begin2Chipid | .begin2StoreId | .begin2Compare => .begin2
  | .inspectCheck _ | .inspectRead _ => .inspect

/-- The index of a position in its operation's step list. -/
def Position.index : Position → Nat
  | .initReset => 0
  | .initDummy => 1
  | .initDelay => 2
  | .initRawChipid => 3
  | .initCapture => 4
  | .initHeaderRead => 5
  | .initParse => 6
  | .initOutput => 7
  | .initEnter => 8
  | .initReturn => 9
  | .setupFirst => 0
  | .setupSecond => 1
  | .setupWrite => 2
  | .setupReturn => 3
  | .begin1Constants => 0
  | .begin1Activate _ _ => 1
  | .begin1Word => 2
  | .begin1SeedInit _ _ _ => 3
  | .begin1SeedPair => 4
  | .begin1PlatformSeed => 5
  | .begin1Enable => 6
  | .begin1Chipid _ _ _ => 7
  | .begin1StoreId => 8
  | .begin1Compare => 9
  | .readsecRead j _ _ _ => j.val
  | .readsecCounter => 4
  | .readsecReturn => 5
  | .begin2Activate _ _ _ => 0
  | .begin2Word => 1
  | .begin2Chipid => 2
  | .begin2StoreId => 3
  | .begin2Compare => 4
  | .inspectCheck _ => 0
  | .inspectRead _ => 1

end Sys2Proof.Machine
end

