-- ==== Sys2Proof/Machine/Bus.lean ====
section
/-!
DEFINITION. The bus commands (30_encoding R81): each is the platform request of one step, made where the sequencer stands at it,
and what that step does with the answer. No step of the engine emits a bus command anywhere else (30_encoding R82), so
elsewhere it is the fault `notOutstanding` (log 5).
-/

namespace Sys2Proof.Machine

/-- What a step at a request does; an engine with a latched fault has no step (10_state R27; log 16). -/
def unlessLatched (s : State) (t : State) : State :=
  match s.fault with
  | some _ => s
  | none => t

/-- A bus command at the sequencer: if its step comes next, the request is made; if it is outstanding, its answer is taken. -/
def atRequest (s : State) (p : Position) (q : Exchange) : Host.Outcome State Fault Refusal :=
  match s.seq with
  | .idle => .fault .notOutstanding
  | .run p' w => if p' = p then .next (unlessLatched s (exchange q s w)) else .fault .notOutstanding
  | .wait p' w => if p' = p then .next (unlessLatched s (q.2 s w)) else .fault .notOutstanding

/-- `bus.DUMMY` (30_encoding R81; 43_state_machine R163 stage 1). -/
def execBusDummy (s : State) : Host.Outcome State Fault Refusal :=
  atRequest s .initDummy (dummyCommand Config.cfg)

/-- `bus.RAW_CHIPID` (30_encoding R81; 43_state_machine R163 stage 2). -/
def execBusRawChipid (s : State) : Host.Outcome State Fault Refusal :=
  atRequest s .initRawChipid (rawChipidCommand Config.cfg)

/-- `bus.HEADER_READ` (30_encoding R81; 43_state_machine R163 stage 3). -/
def execBusHeaderRead (s : State) : Host.Outcome State Fault Refusal :=
  atRequest s .initHeaderRead (headerCommand Config.cfg)

/-- `bus.ACTIVATE_KEY1` (30_encoding R79, R81; 43_state_machine R166 stage 1). -/
def execBusActivateKey1 (ij : U24) (k20 : U20) (s : State) : Host.Outcome State Fault Refusal :=
  atRequest s (.begin1Activate ij k20) (activateKey1Command Config.cfg ij k20)

/-- `bus.KEY2_SEED_INIT` (30_encoding R78, R81; 43_state_machine R166 stage 2). -/
def execBusKey2SeedInit (a : U16) (n : U24) (k20 : U20) (s : State) : Host.Outcome State Fault Refusal :=
  atRequest s (.begin1SeedInit a n k20) (key2SeedInitCommand Config.cfg a n k20)

/-- `bus.KEY1_CHIPID` (30_encoding R78, R81; 43_state_machine R166 stage 3). -/
def execBusKey1Chipid (a : U16) (n : U24) (k20 : U20) (s : State) : Host.Outcome State Fault Refusal :=
  atRequest s (.begin1Chipid a n k20) (key1ChipidCommand Config.cfg a n k20)

/-- The chunk the sequencer is reading (20_memory R51), if any. -/
def currentChunk (s : State) : Fin 4 :=
  match s.seq with
  | .run (.readsecRead j _ _ _) _ => j
  | .wait (.readsecRead j _ _ _) _ => j
  | _ => 0

/-- `bus.SECURE_READ` (30_encoding R78, R81; 43_state_machine R167 stages 1 to 4). -/
def execBusSecureRead (a : U16) (n : U24) (k20 : U20) (s : State) : Host.Outcome State Fault Refusal :=
  let j := currentChunk s
  atRequest s (.readsecRead j a n k20) (secureReadCommand Config.cfg j a n k20)

/-- `bus.ACTIVATE_KEY2` (30_encoding R78, R81; 43_state_machine R168 stage 1). -/
def execBusActivateKey2 (a : U16) (n : U24) (k20 : U20) (s : State) : Host.Outcome State Fault Refusal :=
  atRequest s (.begin2Activate a n k20) (activateKey2Command Config.cfg a n k20)

/-- `bus.KEY2_CHIPID` (30_encoding R81; 43_state_machine R168 stage 2). -/
def execBusKey2Chipid (s : State) : Host.Outcome State Fault Refusal :=
  atRequest s .begin2Chipid (key2ChipidCommand Config.cfg)

end Sys2Proof.Machine
end

