-- ==== Sys2Proof/Machine/Codec.lean ====
section
/-!
DEFINITION. The control-word codec operations (40_control_word). Each is allowed in every `ENC_STATE`, reads the operand
ports, writes result ports only and returns OK.
-/

namespace Sys2Proof.Machine

/-- A codec getter: `RES0` is a field of the word in `A`, zero-extended. -/
def codecGet {n : Nat} (s : State) (f : U32 → BitVec n) : Host.Outcome State Fault Refusal :=
  hostOp s fun s => returnRes0 s ((f s.portA).setWidth 64)

/-- A one-bit codec getter. -/
def codecGetBit (s : State) (f : U32 → Bool) : Host.Outcome State Fault Refusal :=
  hostOp s fun s => returnRes0 s (b2u (f s.portA))

/-- A codec setter with a value operand: `RES0` is the word in `A` with a field set from `B`. -/
def codecSet (s : State) (f : U32 → U32 → U32) : Host.Outcome State Fault Refusal :=
  hostOp s fun s => returnRes0 s ((f s.portA s.portB).setWidth 64)

/-- A codec setter with a boolean operand (30_encoding R73). -/
def codecSetBool (s : State) (f : U32 → Bool → U32) : Host.Outcome State Fault Refusal :=
  hostOp s fun s => returnRes0 s ((f s.portA (boolOperand s.portB)).setWidth 64)

/-- `nf.construct` (40_control_word R113). -/
def execNfConstruct (s : State) : Host.Outcome State Fault Refusal :=
  hostOp s fun s =>
    let c := s.portC
    returnRes0 s
      ((nfConstruct s.portA s.portB (c.getLsbD 0) (c.getLsbD 1) (c.getLsbD 2) (c.getLsbD 3)).setWidth 64)

/-- `nf.get.predelay` (40_control_word R100). -/
def execNfGetPredelay (s : State) : Host.Outcome State Fault Refusal := codecGet s nfGetPredelay

/-- `nf.set.predelay` (40_control_word R101). -/
def execNfSetPredelay (s : State) : Host.Outcome State Fault Refusal := codecSet s nfSetPredelay

/-- `nf.get.postdelay` (40_control_word R102). -/
def execNfGetPostdelay (s : State) : Host.Outcome State Fault Refusal := codecGet s nfGetPostdelay

/-- `nf.set.postdelay` (40_control_word R103). -/
def execNfSetPostdelay (s : State) : Host.Outcome State Fault Refusal := codecSet s nfSetPostdelay

/-- `nf.get.pulse` (40_control_word R104). -/
def execNfGetPulse (s : State) : Host.Outcome State Fault Refusal := codecGetBit s nfGetPulse

/-- `nf.set.pulse` (40_control_word R105). -/
def execNfSetPulse (s : State) : Host.Outcome State Fault Refusal := codecSetBool s nfSetPulse

/-- `nf.get.cmdenc` (40_control_word R106). -/
def execNfGetCmdenc (s : State) : Host.Outcome State Fault Refusal := codecGetBit s nfGetCmdenc

/-- `nf.set.cmdenc` (40_control_word R107). -/
def execNfSetCmdenc (s : State) : Host.Outcome State Fault Refusal := codecSetBool s nfSetCmdenc

/-- `nf.get.dataenc` (40_control_word R108). -/
def execNfGetDataenc (s : State) : Host.Outcome State Fault Refusal := codecGetBit s nfGetDataenc

/-- `nf.set.dataenc` (40_control_word R109). -/
def execNfSetDataenc (s : State) : Host.Outcome State Fault Refusal := codecSetBool s nfSetDataenc

/-- `nf.get.slow` (40_control_word R110). -/
def execNfGetSlow (s : State) : Host.Outcome State Fault Refusal := codecGetBit s nfGetSlow

/-- `nf.set.slow` (40_control_word R111). -/
def execNfSetSlow (s : State) : Host.Outcome State Fault Refusal := codecSetBool s nfSetSlow

/-- `nf.get.secen` (40_control_word R112). -/
def execNfGetSecen (s : State) : Host.Outcome State Fault Refusal := codecGetBit s nfGetSecen

end Sys2Proof.Machine
end

