-- ==== Sys2Proof/Machine/Inspect.lean ====
section
/-!
DEFINITION. `inspect` (43_state_machine R169), one operation for each selector (30_encoding R74). Allowed in every `ENC_STATE`;
it writes `RES0` and `STATUS` only. Each puts the sequencer at the check of its register; the sequencer reads it in the step
after that.
-/

namespace Sys2Proof.Machine

/-- INSPECT of a register begins. -/
def inspectReg (s : State) (r : RegName) : Host.Outcome State Fault Refusal :=
  hostOp s fun s => advance s (.inspectCheck r) (beginWork s)

/-- `inspect ENC_STATE`; it never faults. -/
def execInspectEncState (s : State) : Host.Outcome State Fault Refusal := inspectReg s .encState

/-- `inspect SCHED_VALID`; it never faults. -/
def execInspectSchedValid (s : State) : Host.Outcome State Fault Refusal := inspectReg s .schedValid

/-- `inspect HW_SEED`; it never faults. -/
def execInspectHwSeed (s : State) : Host.Outcome State Fault Refusal := inspectReg s .hwSeed

/-- `inspect RAW_CHIP_ID`. -/
def execInspectRawChipId (s : State) : Host.Outcome State Fault Refusal := inspectReg s .rawChipId

/-- `inspect HDR_GAME_CODE`. -/
def execInspectHdrGameCode (s : State) : Host.Outcome State Fault Refusal := inspectReg s .hdrGameCode

/-- `inspect HDR_KEY1_TIMING`. -/
def execInspectHdrKey1Timing (s : State) : Host.Outcome State Fault Refusal := inspectReg s .hdrKey1Timing

/-- `inspect HDR_KEY2_TIMING`. -/
def execInspectHdrKey2Timing (s : State) : Host.Outcome State Fault Refusal := inspectReg s .hdrKey2Timing

/-- `inspect K2_SEED_BYTE`. -/
def execInspectK2SeedByte (s : State) : Host.Outcome State Fault Refusal := inspectReg s .k2SeedByte

/-- `inspect K1_KEY[0]`. -/
def execInspectK1Key0 (s : State) : Host.Outcome State Fault Refusal := inspectReg s .k1Key0

/-- `inspect K1_KEY[1]`. -/
def execInspectK1Key1 (s : State) : Host.Outcome State Fault Refusal := inspectReg s .k1Key1

/-- `inspect K1_KEY[2]`. -/
def execInspectK1Key2 (s : State) : Host.Outcome State Fault Refusal := inspectReg s .k1Key2

/-- `inspect K1_IJ`. -/
def execInspectK1Ij (s : State) : Host.Outcome State Fault Refusal := inspectReg s .k1Ij

/-- `inspect K1_K`. -/
def execInspectK1K (s : State) : Host.Outcome State Fault Refusal := inspectReg s .k1K

/-- `inspect K1_L`. -/
def execInspectK1L (s : State) : Host.Outcome State Fault Refusal := inspectReg s .k1L

/-- `inspect K1_FLAGS`. -/
def execInspectK1Flags (s : State) : Host.Outcome State Fault Refusal := inspectReg s .k1Flags

/-- `inspect K1_SCHED, A`, for a configuration: the index check comes first (43_state_machine R169). -/
def inspectSchedOp (cfg : Cfg) (s : State) : Host.Outcome State Fault Refusal :=
  hostOp s fun s =>
    if cfg.schedWords ≤ s.portA.toNat then raiseContract s .index
    else advance s (.inspectCheck .k1Sched) (beginWork s)

/-- `inspect K1_SCHED, A`. -/
def execInspectK1Sched (s : State) : Host.Outcome State Fault Refusal := inspectSchedOp Config.cfg s

/-- `inspect K2_MN`. -/
def execInspectK2Mn (s : State) : Host.Outcome State Fault Refusal := inspectReg s .k2Mn

/-- `inspect K2_FLAGS`. -/
def execInspectK2Flags (s : State) : Host.Outcome State Fault Refusal := inspectReg s .k2Flags

/-- `inspect K2_CHIP_ID`. -/
def execInspectK2ChipId (s : State) : Host.Outcome State Fault Refusal := inspectReg s .k2ChipId

/-- `inspect K2_X`. -/
def execInspectK2X (s : State) : Host.Outcome State Fault Refusal := inspectReg s .k2X

/-- `inspect K2_Y`. -/
def execInspectK2Y (s : State) : Host.Outcome State Fault Refusal := inspectReg s .k2Y

end Sys2Proof.Machine
end

