-- ==== Sys2Proof/Machine/StateMachine.lean ====
section
/-!
DEFINITION. The state-machine operations (43_state_machine R163, R165 to R168). Each checks its precondition, takes the working
copy, and puts the sequencer at its first step; the sequencer then takes one step of its list at a time (10_state R28).
-/

namespace Sys2Proof.Machine

/-- `init` (43_state_machine R163). -/
def execInit (s : State) : Host.Outcome State Fault Refusal :=
  hostOp s fun s => requireState s .uninit fun s => advance s .initReset (beginWork s)

/-- `setup` (43_state_machine R165), for a configuration. -/
def setupOp (cfg : Cfg) (s : State) : Host.Outcome State Fault Refusal :=
  hostOp s fun s => requireState s .raw fun s =>
    if s.portSched.length ≠ cfg.schedWords then raiseContract s .schedSize
    else advance s .setupFirst (beginWork s)

/-- `setup` (43_state_machine R165). -/
def execSetup (s : State) : Host.Outcome State Fault Refusal := setupOp Config.cfg s

/-- `begin1` (43_state_machine R166). -/
def execBegin1 (s : State) : Host.Outcome State Fault Refusal :=
  hostOp s fun s => requireState s .raw fun s =>
    if s.regs.schedValid = false then raiseContract s .noSchedule
    else advance s .begin1Constants (beginWork s)

/-- `readsec` (43_state_machine R167). -/
def execReadsec (s : State) : Host.Outcome State Fault Refusal :=
  hostOp s fun s => requireState s .key1 fun s =>
    formKey1 s (beginWork s) (secureArgument 0) .k1Ij s.regs.k1Ij (.readsecRead 0)

/-- `begin2` (43_state_machine R168). -/
def execBegin2 (s : State) : Host.Outcome State Fault Refusal :=
  hostOp s fun s => requireState s .key1 fun s =>
    readReg s .k1L s.regs.k1L fun l => formKey1 s (beginWork s) l .k1Ij s.regs.k1Ij .begin2Activate

end Sys2Proof.Machine
end

