-- ==== Sys2Proof/Machine/Dispatch.lean ====
section
/-!
DEFINITION. The dispatch: each operation of the opcode table to its meaning.
-/

namespace Sys2Proof.Machine

def exec (i : Instr) (s : State) : Host.Outcome State Fault Refusal :=
  match i with
  | .init => Sys2Proof.Machine.execInit s
  | .setup => Sys2Proof.Machine.execSetup s
  | .begin1 => Sys2Proof.Machine.execBegin1 s
  | .readsec => Sys2Proof.Machine.execReadsec s
  | .begin2 => Sys2Proof.Machine.execBegin2 s
  | .inspectEncState => Sys2Proof.Machine.execInspectEncState s
  | .inspectSchedValid => Sys2Proof.Machine.execInspectSchedValid s
  | .inspectHwSeed => Sys2Proof.Machine.execInspectHwSeed s
  | .inspectRawChipId => Sys2Proof.Machine.execInspectRawChipId s
  | .inspectHdrGameCode => Sys2Proof.Machine.execInspectHdrGameCode s
  | .inspectHdrKey1Timing => Sys2Proof.Machine.execInspectHdrKey1Timing s
  | .inspectHdrKey2Timing => Sys2Proof.Machine.execInspectHdrKey2Timing s
  | .inspectK2SeedByte => Sys2Proof.Machine.execInspectK2SeedByte s
  | .inspectK1Key0 => Sys2Proof.Machine.execInspectK1Key0 s
  | .inspectK1Key1 => Sys2Proof.Machine.execInspectK1Key1 s
  | .inspectK1Key2 => Sys2Proof.Machine.execInspectK1Key2 s
  | .inspectK1Ij => Sys2Proof.Machine.execInspectK1Ij s
  | .inspectK1K => Sys2Proof.Machine.execInspectK1K s
  | .inspectK1L => Sys2Proof.Machine.execInspectK1L s
  | .inspectK1Flags => Sys2Proof.Machine.execInspectK1Flags s
  | .inspectK1Sched => Sys2Proof.Machine.execInspectK1Sched s
  | .inspectK2Mn => Sys2Proof.Machine.execInspectK2Mn s
  | .inspectK2Flags => Sys2Proof.Machine.execInspectK2Flags s
  | .inspectK2ChipId => Sys2Proof.Machine.execInspectK2ChipId s
  | .inspectK2X => Sys2Proof.Machine.execInspectK2X s
  | .inspectK2Y => Sys2Proof.Machine.execInspectK2Y s
  | .nfConstruct => Sys2Proof.Machine.execNfConstruct s
  | .nfGetPredelay => Sys2Proof.Machine.execNfGetPredelay s
  | .nfSetPredelay => Sys2Proof.Machine.execNfSetPredelay s
  | .nfGetPostdelay => Sys2Proof.Machine.execNfGetPostdelay s
  | .nfSetPostdelay => Sys2Proof.Machine.execNfSetPostdelay s
  | .nfGetPulse => Sys2Proof.Machine.execNfGetPulse s
  | .nfSetPulse => Sys2Proof.Machine.execNfSetPulse s
  | .nfGetCmdenc => Sys2Proof.Machine.execNfGetCmdenc s
  | .nfSetCmdenc => Sys2Proof.Machine.execNfSetCmdenc s
  | .nfGetDataenc => Sys2Proof.Machine.execNfGetDataenc s
  | .nfSetDataenc => Sys2Proof.Machine.execNfSetDataenc s
  | .nfGetSlow => Sys2Proof.Machine.execNfGetSlow s
  | .nfSetSlow => Sys2Proof.Machine.execNfSetSlow s
  | .nfGetSecen => Sys2Proof.Machine.execNfGetSecen s
  | .k1Encode => Sys2Proof.Machine.execK1Encode s
  | .k1Derive => Sys2Proof.Machine.execK1Derive s
  | .k2Seed => Sys2Proof.Machine.execK2Seed s
  | .busDummy => Sys2Proof.Machine.execBusDummy s
  | .busRawChipid => Sys2Proof.Machine.execBusRawChipid s
  | .busHeaderRead => Sys2Proof.Machine.execBusHeaderRead s
  | .busActivateKey1 ij k20 => Sys2Proof.Machine.execBusActivateKey1 ij k20 s
  | .busKey2SeedInit a n k20 => Sys2Proof.Machine.execBusKey2SeedInit a n k20 s
  | .busKey1Chipid a n k20 => Sys2Proof.Machine.execBusKey1Chipid a n k20 s
  | .busSecureRead a n k20 => Sys2Proof.Machine.execBusSecureRead a n k20 s
  | .busActivateKey2 a n k20 => Sys2Proof.Machine.execBusActivateKey2 a n k20 s
  | .busKey2Chipid => Sys2Proof.Machine.execBusKey2Chipid s

end Sys2Proof.Machine
end

