-- ==== Sys2Proof/Machine/Fetch.lean ====
section
/-!
DEFINITION. What the engine does next (10_state R28, 70_reset_and_hazards R230): a block reset from the host, the step at which
the sequencer stands, or the host's next operation word. The engine fetches no instructions from memory (20_memory R61).
-/

namespace Sys2Proof.Machine

/-- What a step does. -/
inductive Fetched where
  /-- nothing: IDLE with no operation from the host -/
  | waiting (s : State)
  /-- the host block-resets the engine; the state is the one after -/
  | blockReset (s : State)
  /-- a step of the sequencer that is no bus command -/
  | sequencer (s : State)
  /-- an operation runs: a decoded host operation on its ports, or the bus command at which the sequencer stands -/
  | operation (i : Instr) (s : State)
  /-- the host's word is illegal; the state holds its ports -/
  | illegal (s : State)
deriving DecidableEq, Repr

/-- The bus command that a step sends (30_encoding R81). The link reset is none, and no other step sends one. -/
def positionInstr : Position → Option Instr
  | .initDummy => some .busDummy
  | .initRawChipid => some .busRawChipid
  | .initHeaderRead => some .busHeaderRead
  | .begin1Activate ij k20 => some (.busActivateKey1 ij k20)
  | .begin1SeedInit a n k20 => some (.busKey2SeedInit a n k20)
  | .begin1Chipid a n k20 => some (.busKey1Chipid a n k20)
  | .readsecRead _ a n k20 => some (.busSecureRead a n k20)
  | .begin2Activate a n k20 => some (.busActivateKey2 a n k20)
  | .begin2Chipid => some .busKey2Chipid
  | .initReset | .initDelay | .initCapture | .initParse | .initOutput | .initEnter | .initReturn => none
  | .setupFirst | .setupSecond | .setupWrite | .setupReturn => none
  | .begin1Constants | .begin1Word | .begin1SeedPair | .begin1PlatformSeed | .begin1Enable | .begin1StoreId
  | .begin1Compare => none
  | .readsecCounter | .readsecReturn => none
  | .begin2Word | .begin2StoreId | .begin2Compare => none
  | .inspectCheck _ | .inspectRead _ => none

/-- The engine accepts a host operation: the ports take its word and operands, and the word is decoded
(30_encoding R70, R72). -/
def accept (s : State) (o : HostOp) (rest : List HostEvent) : Fetched :=
  let s' := { s with host := rest, ports := o }
  match decode (.how o.how) with
  | .ok i => .operation i s'
  | .error _ => .illegal s'

/-- The step at which the sequencer stands. -/
def atPosition (s : State) (p : Position) : Fetched :=
  match positionInstr p with
  | some i => .operation i s
  | none => .sequencer s

/-- What the engine does when the host does nothing in this step. -/
def goOn (s : State) : Fetched :=
  match s.seq with
  | .idle => .waiting s
  | .run p _ => atPosition s p
  | .wait p _ => atPosition s p

/-- The engine and an operation of the host: it is accepted at IDLE, and waits in the host's list meanwhile (log 13). -/
def offered (s : State) (o : HostOp) (rest : List HostEvent) : Fetched :=
  match s.seq with
  | .idle => accept s o rest
  | .run _ _ => goOn s
  | .wait _ _ => goOn s

/-- What the step does next. A block reset is taken at any point (10_state R22; log 14). -/
def fetch (s : State) : Fetched :=
  match s.host with
  | .blockReset :: rest => .blockReset (blockReset { s with host := rest })
  | .pass :: rest => goOn { s with host := rest }
  | .op o :: rest => offered s o rest
  | [] => goOn s

/-- The step that sends a bus command; a secure read stands at the chunk its argument names (20_memory R51). -/
def instrPosition : Instr → Option Position
  | .busDummy => some .initDummy
  | .busRawChipid => some .initRawChipid
  | .busHeaderRead => some .initHeaderRead
  | .busActivateKey1 ij k20 => some (.begin1Activate ij k20)
  | .busKey2SeedInit a n k20 => some (.begin1SeedInit a n k20)
  | .busKey1Chipid a n k20 => some (.begin1Chipid a n k20)
  | .busSecureRead a n k20 => some (.readsecRead (if a = 5 then 1 else if a = 6 then 2 else if a = 7 then 3 else 0) a n k20)
  | .busActivateKey2 a n k20 => some (.begin2Activate a n k20)
  | .busKey2Chipid => some .begin2Chipid
  | _ => none

/-- The working copy that agrees with a command's embedded fields (30_encoding R81): the counter, the nonce, the argument. -/
def embedFields (i : Instr) (w : Work) : Work :=
  match i with
  | .busActivateKey1 ij k20 => { w with regs := { w.regs with k1Ij := some ij, k1K := some (k20.setWidth 24) } }
  | .busKey2SeedInit a n k20 =>
    { w with regs := { w.regs with k1L := some a, k2Mn := some n, k1K := some (k20.setWidth 24) } }
  | .busKey1Chipid a n k20 =>
    { w with regs := { w.regs with k1L := some a, k1Ij := some n, k1K := some (k20.setWidth 24) } }
  | .busSecureRead _ n k20 => { w with regs := { w.regs with k1Ij := some n, k1K := some (k20.setWidth 24) } }
  | .busActivateKey2 a n k20 =>
    { w with regs := { w.regs with k1L := some a, k1Ij := some n, k1K := some (k20.setWidth 24) } }
  | _ => w

/-- The host's events without the block resets that come first: they would be taken before the placed command. -/
def dropResets (h : List HostEvent) : List HostEvent := h.dropWhile fun e => e == .blockReset

/-- The state whose next step runs a word (logs 1 and 5): a host operation word becomes the host's next operation, on the
operands the ports hold; a bus command becomes the step at which the sequencer stands. DESIGN CHOICE (log 13): an operation
that runs when a word is placed is dropped, with its working copy, and `SEQ` is IDLE or at the placed command; the spec leaves
a second operation open (70_reset_and_hazards R236). -/
def placeCode (s : State) (c : Code) : State :=
  match c with
  | .how w => { s with seq := .idle, host := .op { s.ports with how := w } :: s.host }
  | .bus _ =>
    match decode c with
    | .ok i =>
      match instrPosition i with
      | some p => { s with seq := .run p (embedFields i (beginWork s)), host := dropResets s.host }
      | none => s
    | .error _ => s

end Sys2Proof.Machine
end

