-- ==== Sys2Proof/Machine/Step.lean ====
section
/-!
DEFINITION. One step of the machine.
-/

namespace Sys2Proof.Machine

/-- One step: what `fetch` finds. -/
def step (s : State) : Host.Outcome State Fault Refusal :=
  match fetch s with
  | .waiting s' => .next s'
  | .blockReset s' => .next s'
  | .sequencer s' => .next (seqStep Config.cfg s')
  | .operation i s' => exec i s'
  | .illegal s' => illegalOperation s'

/-- The state whose next step runs the instruction of `nbits` bits whose bits are `w`, numbered as
`spec/opcode_table.json` numbers them (logs 1, 5, 13 and 17). -/
def State.withFetchWord (s : State) (nbits w : Nat) : State := placeCode s (codeOfTableWord nbits w)

end Sys2Proof.Machine
end

