-- ==== Sys2Proof/Safety.lean ====
section
/-!
DEFINITION. What a good state is, in the terms the statements use: which registers hold values in which `ENC_STATE`
(10_state R20 to R26), what the working copy of a running operation holds (43_state_machine R160, R163 to R168), canonical
buffers, and the edges of `ENC_STATE` (10_state R22).
-/

namespace Sys2Proof.Safety

open Sys2Proof.Machine

/-- The five registers INIT captures hold values (10_state R24). -/
def headerWritten (r : Regs) : Bool :=
  r.rawChipId.isSome && r.hdrGameCode.isSome && r.hdrKey1Timing.isSome && r.hdrKey2Timing.isSome
    && r.k2SeedByte.isSome

/-- The registers that BEGIN1 writes hold values (43_state_machine R166). -/
def regimeWritten (r : Regs) : Bool :=
  r.k1Ij.isSome && r.k1K.isSome && r.k1L.isSome && r.k1Flags.isSome && r.k2Mn.isSome && r.k2X.isSome
    && r.k2Y.isSome && r.k2ChipId.isSome

/-- The registers that BEGIN1 writes, but for the counter that an aborted BEGIN1 keeps, hold no value. -/
def regimeUnwritten (r : Regs) : Bool :=
  r.k1Ij.isNone && r.k1L.isNone && r.k1Flags.isNone && r.k2Mn.isNone && r.k2X.isNone && r.k2Y.isNone
    && r.k2ChipId.isNone && r.k2Flags.isNone

/-- `SCHED_VALID` is 1 exactly when `K1_SCHED` and `K1_KEY` hold values, and the schedule has `SCHED_WORDS` words
(10_state R26, R32). -/
def ScheduleOk (cfg : Cfg) (r : Regs) : Prop :=
  r.k1Sched.isSome = r.schedValid ∧ r.k1Key.isSome = r.schedValid
    ∧ ∀ l, r.k1Sched = some l → l.length = cfg.schedWords

/-- Which registers hold values in each `ENC_STATE` (10_state R20 to R26). -/
def WrittenOk (r : Regs) : Prop :=
  match r.encState with
  | .uninit => r = Regs.reset
  | .raw => headerWritten r = true ∧ regimeUnwritten r = true ∧ (r.k1K.isSome = true → r.schedValid = true)
  | .key1 => headerWritten r = true ∧ r.schedValid = true ∧ regimeWritten r = true ∧ r.k2Flags = none
  | .key2 => headerWritten r = true ∧ r.schedValid = true ∧ regimeWritten r = true ∧ r.k2Flags.isSome = true
  | .unknown => headerWritten r = true ∧ r.schedValid = true ∧ regimeWritten r = true

/-- The register file of a good state. -/
def RegsOk (cfg : Cfg) (r : Regs) : Prop := ScheduleOk cfg r ∧ WrittenOk r

/-- The working copy of INIT once the chip id is captured: nothing but the captured registers differs. -/
def capturing (r w : Regs) : Prop :=
  w = { r with
    rawChipId := w.rawChipId, hdrGameCode := w.hdrGameCode, hdrKey1Timing := w.hdrKey1Timing
    hdrKey2Timing := w.hdrKey2Timing, k2SeedByte := w.k2SeedByte }

/-- The registers of the working copy of BEGIN1 after `n` encodings. -/
def begun1 (r : Regs) (n : Nat) : Regs :=
  { loadConstants r with k1K := some (Config.initK + BitVec.ofNat 24 n) }

/-- What the state and the working copy are where a step comes next (43_state_machine R160, R163 to R169). -/
def WorkOk (cfg : Cfg) (s : State) (p : Position) (w : Work) : Prop :=
  let r := s.regs
  match p with
  | .initReset | .initDummy | .initDelay | .initRawChipid | .initCapture =>
    r.encState = .uninit ∧ w.kused = false ∧ w.regs = r
  | .initHeaderRead | .initParse =>
    r.encState = .uninit ∧ w.kused = false ∧ ∃ id, w.regs = { r with rawChipId := some id }
  | .initOutput | .initEnter =>
    r.encState = .uninit ∧ w.kused = false ∧ capturing r w.regs ∧ headerWritten w.regs = true
  | .initReturn =>
    r.encState = .uninit ∧ w.kused = false ∧ capturing { r with encState := .raw } w.regs ∧ headerWritten w.regs = true
  | .setupFirst => r.encState = .raw ∧ w.kused = false ∧ w.regs = r
  | .setupSecond | .setupWrite =>
    r.encState = .raw ∧ w.kused = false ∧ ∃ l key, w.regs = { r with k1Sched := some l, k1Key := some key }
      ∧ l.length = cfg.schedWords
  | .setupReturn => r.encState = .raw ∧ r.schedValid = true
  | .begin1Constants => r.encState = .raw ∧ r.schedValid = true ∧ w.kused = false ∧ w.regs = r
  | .begin1Activate ij k20 =>
    r.encState = .raw ∧ r.schedValid = true ∧ w.kused = false ∧ w.regs = begun1 r 0
      ∧ ij = Config.initIj ∧ k20 = lowCounter Config.initK
  | .begin1Word => r.encState = .raw ∧ r.schedValid = true ∧ w.kused = false ∧ w.regs = begun1 r 0
  | .begin1SeedInit a n k20 =>
    r.encState = .raw ∧ r.schedValid = true ∧ w.kused = false
      ∧ (∃ f, w.regs = { begun1 r 0 with k1Flags := some f })
      ∧ a = Config.initL ∧ n = Config.initMn ∧ k20 = lowCounter Config.initK
  | .begin1SeedPair =>
    r.encState = .raw ∧ r.schedValid = true ∧ w.kused = true ∧ ∃ f, w.regs = { begun1 r 1 with k1Flags := some f }
  | .begin1PlatformSeed | .begin1Enable =>
    r.encState = .raw ∧ r.schedValid = true ∧ w.kused = true
      ∧ ∃ f x y, w.regs = { begun1 r 1 with k1Flags := some f, k2X := some x, k2Y := some y }
  | .begin1Chipid a n k20 =>
    r.encState = .raw ∧ r.schedValid = true ∧ w.kused = true
      ∧ (∃ f x y, w.regs = { begun1 r 1 with k1Flags := some f, k2X := some x, k2Y := some y })
      ∧ a = Config.initL ∧ n = Config.initIj ∧ k20 = lowCounter (nextCounter Config.initK)
  | .begin1StoreId =>
    r.encState = .raw ∧ r.schedValid = true ∧ w.kused = true
      ∧ ∃ f x y, w.regs = { begun1 r 2 with k1Flags := some f, k2X := some x, k2Y := some y }
  | .begin1Compare =>
    r.encState = .raw ∧ r.schedValid = true ∧ w.kused = true
      ∧ ∃ f x y id, w.regs = { begun1 r 2 with
          k1Flags := some f, k2X := some x, k2Y := some y, k2ChipId := some id }
  | .readsecRead j a n k20 =>
    r.encState = .key1 ∧ (∃ kk, w.regs = { r with k1K := some kk } ∧ k20 = lowCounter kk)
      ∧ a = secureArgument j ∧ r.k1Ij = some n
  | .readsecCounter => r.encState = .key1 ∧ ∃ kk, w.regs = { r with k1K := some kk }
  | .readsecReturn => r.encState = .key1
  | .begin2Activate a n k20 =>
    r.encState = .key1 ∧ w.kused = false ∧ w.regs = r
      ∧ r.k1L = some a ∧ r.k1Ij = some n ∧ ∃ kk, r.k1K = some kk ∧ k20 = lowCounter kk
  | .begin2Word =>
    r.encState = .key1 ∧ w.kused = true
      ∧ ∃ kk, r.k1K = some kk ∧ w.regs = { r with k1K := some (nextCounter kk) }
  | .begin2Chipid | .begin2StoreId =>
    r.encState = .key1 ∧ w.kused = true
      ∧ ∃ kk f, r.k1K = some kk ∧ w.regs = { r with k1K := some (nextCounter kk), k2Flags := some f }
  | .begin2Compare =>
    r.encState = .key1 ∧ w.kused = true
      ∧ ∃ kk f id, r.k1K = some kk
        ∧ w.regs = { r with k1K := some (nextCounter kk), k2Flags := some f, k2ChipId := some id }
  | .inspectCheck _ => True
  | .inspectRead reg => (inspected cfg s reg).isSome = true

/-- Does a step encode the command it sends (30_encoding R82)? -/
def encodes : Position → Bool
  | .begin1SeedInit _ _ _ | .begin1Chipid _ _ _ | .readsecRead _ _ _ _ | .begin2Activate _ _ _ => true
  | _ => false

/-- The working copy while a step's request is outstanding: the encoder has consumed a counter value (41_key1_encoder
R135). -/
def requested (p : Position) (w : Work) : Work :=
  if encodes p then { w with regs := { w.regs with k1K := w.regs.k1K.map nextCounter }, kused := true } else w

/-- Is an event one of a step's request while that is outstanding? A reset or a send that has no status yet, the delay, the
seed. -/
def outstanding : Position → Event → Bool
  | .initReset, .reset none => true
  | .initDelay, .delay _ => true
  | .begin1PlatformSeed, .seed _ _ => true
  | p, .send _ _ _ none => (positionInstr p).isSome
  | _, _ => false

/-- The trace of a good state: the request that is outstanding is its last event, and every other reset or send has its
status (60_exceptions R214; log 3). -/
def TraceOk (s : State) : Prop :=
  match s.seq with
  | .wait p _ => ∃ l e, s.trace = l ++ [e] ∧ outstanding p e = true ∧ ∀ x ∈ l, x.pending = false
  | .idle | .run _ _ => ∀ x ∈ s.trace, x.pending = false

/-- The sequencer of a good state: no operation runs under a latched fault (10_state R27), and a running operation's working
copy is as its steps left it. -/
def SeqOk (cfg : Cfg) (s : State) : Prop :=
  match s.seq with
  | .idle => True
  | .run p w => s.fault = none ∧ WorkOk cfg s p w
  | .wait p w =>
    s.fault = none ∧ (exchangeOf cfg p).isSome = true ∧ ∃ w₀, WorkOk cfg s p w₀ ∧ w = requested p w₀

/-- A good state: good registers, a good sequencer and a good trace. -/
def GoodState (s : State) : Prop := RegsOk Config.cfg s.regs ∧ SeqOk Config.cfg s ∧ TraceOk s

/-- A buffer that holds a value holds it in canonical form (log 10). -/
def bufferOk : Option Memory → Bool
  | none => true
  | some m => Memory.wf m

/-- Every byte buffer of the state is in canonical form. -/
def BuffersOk (s : State) : Prop :=
  bufferOk s.hdrOut = true ∧ bufferOk s.secOut = true ∧ (∀ a, some a ∈ s.answers → Memory.wf a.bytes = true)
    ∧ ∀ p w, s.seq = .run p w ∨ s.seq = .wait p w → Memory.wf w.rsp4 = true ∧ Memory.wf w.hdrBuf = true

/-- The engine is IDLE and no fault is latched: it runs the next host operation (10_state R27, R28). -/
def Ready (s : State) : Prop := s.seq = .idle ∧ s.fault = none

/-- The edges of `ENC_STATE` but for block reset (10_state R22). -/
def encEdge : EncState → EncState → Bool
  | .uninit, .raw => true
  | .raw, .key1 => true
  | .raw, .unknown => true
  | .key1, .key2 => true
  | .key1, .unknown => true
  | _, _ => false

/-- The host offers an operation and then nothing, or does nothing: it changes nothing while the engine runs. -/
def hostQuiet (s : State) : Bool :=
  match s.host with
  | [] => true
  | .op _ :: _ => true
  | _ => false

/-- The state once the host has passed this step. -/
def afterPass (s : State) : State :=
  match s.host with
  | .pass :: rest => { s with host := rest }
  | _ => s

/-- The raw chip id of the register file and of a running operation's working copy is another. -/
def withRawChipId (id : U32) (s : State) : State :=
  { s with
    regs := { s.regs with rawChipId := some id }
    seq := match s.seq with
      | .idle => .idle
      | .run p w => .run p { w with regs := { w.regs with rawChipId := some id } }
      | .wait p w => .wait p { w with regs := { w.regs with rawChipId := some id } } }

/-- Is the host's next event a block reset? -/
def resetNext (s : State) : Bool :=
  match s.host with
  | .blockReset :: _ => true
  | _ => false

/-- Is a host operation word illegal? The four cases of 30_encoding R72, on the tables of R71 and R74 written out. -/
def illegalWord (w : U32) : Bool :=
  !([0x01, 0x02, 0x03, 0x04, 0x05, 0x06, 0x10, 0x11, 0x12, 0x13, 0x14, 0x15, 0x16, 0x17, 0x18, 0x19, 0x1A, 0x1B, 0x1C,
      0x1D, 0x20, 0x21, 0x22] : List Nat).contains (w.toNat % 256)
    || w.toNat / 65536 != 0
    || (w.toNat / 256 % 256 != 0 && w.toNat % 256 != 0x06)
    || (w.toNat % 256 == 0x06 && 0x14 < w.toNat / 256 % 256)

/-- The operation of a host operation word that has a step list (30_encoding R71, 43_state_machine R163 to R169). -/
def listedOperation (how : U32) : Option SeqOp :=
  match (howOpc how).toNat with
  | 0x01 => some .init
  | 0x02 => some .setup
  | 0x03 => some .begin1
  | 0x04 => some .readsec
  | 0x05 => some .begin2
  | 0x06 => some .inspect
  | _ => none

/-- The operations of the host operation table (30_encoding R71); the others are bus commands. -/
def isHostOperation (i : Instr) : Bool :=
  match encode i with
  | .how _ => true
  | .bus _ => false

end Sys2Proof.Safety
end

