-- ==== Sys2Proof/Certificates/Slice0/Obligations.lean ====
section
/-!
DEFINITION. The statements about the machine. Each docstring names the rules of the spec it formalises. A next state is
written as the state before with the fields that change: that is the statement's frame.
-/

open Sys2Proof Sys2Proof.Machine Sys2Proof.Safety

/-! ## Encoding -/

/-- 30_encoding R70, R71, R74 for the host operations. For the bus commands the words are the table's candidates, which the
model presumes (log 5). -/
def Obligations.DecodeOfEncodeIsTheInstruction : Prop :=
  ∀ i : Instr, i.wellFormed = true → decode (encode i) = .ok i

/-- R85: a 32-bit word is illegal by R72 exactly when the decoder rejects it, and any other word is the word of exactly one
operation, the one the decoder answers. -/
def Obligations.EveryHostWordIsOneRowOrIllegal : Prop :=
  ∀ w : U32,
    (illegalWord w = true ∧ (∃ e, decode (.how w) = .error e) ∧ ∀ j, encode j ≠ .how w)
    ∨ (illegalWord w = false ∧ ∃ i, decode (.how w) = .ok i ∧ ∀ j, encode j = .how w ↔ j = i)

/-- Words written out from 30_encoding R71 and R74, and from the opcode table's candidates for the bus commands (log 5). -/
def Obligations.WordsOfTheTablesDecode : Prop :=
  decode (.how 0x00000001) = .ok .init ∧ decode (.how 0x00000C06) = .ok .inspectK1K
  ∧ decode (.how 0x00000F06) = .ok .inspectK1Sched ∧ decode (.how 0x00000018) = .ok .nfSetCmdenc
  ∧ decode (.how 0x00000020) = .ok .k1Encode ∧ decode (.how 0x00000022) = .ok .k2Seed
  ∧ decode (.how 0x00001506) = .error .unknownSelector ∧ decode (.how 0x00000007) = .error .unknownOpcode
  ∧ decode (.how 0x00000101) = .error .selectorNotZero ∧ decode (.how 0x00010001) = .error .reservedBits
  ∧ decode (.bus 0x00469D0373A4113C) = .ok (.busActivateKey1 0x11A473 0x39D46)
  ∧ decode (.bus 0x469DE3AC990C0040) = .ok (.busKey2SeedInit 0 0xC99ACE 0x39D46)
  ∧ decode (.bus 0x4A9D33471A610020) = .ok (.busSecureRead 6 0x11A473 0x39D4A)

/-! ## The step -/

/-- 30_encoding R70, 10_state R28: at IDLE the step takes the host's operation, its word and operands on the ports, and runs the
decoded operation. -/
def Obligations.StepRunsTheHostOperation : Prop :=
  ∀ (s : State) (o : HostOp) (rest : List HostEvent) (i : Instr),
    s.seq = .idle → s.host = .op o :: rest → decode (.how o.how) = .ok i → i.wellFormed = true →
    step s = exec i { s with host := rest, ports := o }

/-- 10_state R28, 30_encoding R81: while an operation runs, a step is one step of the sequencer, whatever operation the host
offers; where that step sends a bus command, it runs that command. With nothing from the host, a run is the sequencer's own
steps. -/
def Obligations.StepRunsTheOutstandingCommand : Prop :=
  (∀ (s : State) (p : Position) (w : Work), s.seq = .run p w ∨ s.seq = .wait p w → resetNext s = false →
    step s = .next (seqStep Config.cfg (afterPass s))
      ∧ ∀ i, positionInstr p = some i → step s = exec i (afterPass s))
  ∧ ∀ (s : State) (n : Nat), s.host = [] → Sys2Proof.core.run n s = .next (drive Config.cfg n s)

/-- R72, 60_exceptions R202, R204 (1) and (2): an illegal word at IDLE latches ILLEGAL_OP with the whole word, with no other
effect; under a latched fault it is answered by that fault, which stays latched. The result ports hold no value (log 7). -/
def Obligations.IllegalWordLatchesIllegalOp : Prop :=
  ∀ (s : State) (o : HostOp) (rest : List HostEvent), s.seq = .idle → s.host = .op o :: rest →
    illegalWord o.how = true →
    (s.fault = none → step s = .next { clearPorts s with
      host := rest, ports := o, fault := some ⟨.illegalOp, o.how⟩, status := some ⟨0x10, 0, o.how⟩ })
    ∧ ∀ f, s.fault = some f → step s = .next { clearPorts s with
      host := rest, ports := o, fault := some f, status := some ⟨faultCode f.reason, 0, f.info⟩ }

/-- 70_reset_and_hazards section 1, R230: a block reset, at any point, gives every piece of engine state its reset value. That
the operand ports, the host's and the platform's lists and the free-value counter stay is the model's choice (log 14). -/
def Obligations.BlockResetGivesTheResetState : Prop :=
  ∀ (s : State) (rest : List HostEvent), s.host = .blockReset :: rest →
    ∃ t, step s = .next t
      ∧ t.regs.encState = .uninit ∧ t.regs.schedValid = false ∧ t.fault = none ∧ t.seq = .idle ∧ t.trace = []
      ∧ t.regs.rawChipId = none ∧ t.regs.hdrGameCode = none ∧ t.regs.hdrKey1Timing = none
      ∧ t.regs.hdrKey2Timing = none ∧ t.regs.k2SeedByte = none ∧ t.regs.k1Sched = none ∧ t.regs.k1Key = none
      ∧ t.regs.k1Ij = none ∧ t.regs.k1K = none ∧ t.regs.k1L = none ∧ t.regs.k1Flags = none ∧ t.regs.k2Mn = none
      ∧ t.regs.k2Flags = none ∧ t.regs.k2ChipId = none ∧ t.regs.k2X = none ∧ t.regs.k2Y = none
      ∧ t.status = none ∧ t.res0 = none ∧ t.res1 = none ∧ t.chunk = #v[none, none, none, none]
      ∧ t.hdrOut = none ∧ t.secOut = none
      ∧ t.host = rest ∧ t.answers = s.answers ∧ t.ports = s.ports ∧ t.freeCount = s.freeCount

/-- 60_exceptions R202: under a latched fault every host operation returns the latched status and has no other effect. The
model clears the other result ports (log 7). -/
def Obligations.LatchedFaultAnswersEveryOperation : Prop :=
  ∀ (i : Instr) (s : State) (f : FaultRecord), isHostOperation i = true → s.seq = .idle → s.fault = some f →
    exec i s = .next { clearPorts s with status := some ⟨faultCode f.reason, 0, f.info⟩ }

/-- The model's choice for 70_reset_and_hazards R236 (log 13): a host operation given to a running engine is refused. -/
def Obligations.BusyEngineRefusesHostOperations : Prop :=
  ∀ (i : Instr) (s : State) (p : Position) (w : Work), isHostOperation i = true →
    s.seq = .run p w ∨ s.seq = .wait p w → exec i s = .refused .engineBusy

/-- R203: the steps that make a request are the link reset, the delay, the seed where the platform seeds in hardware, and those
that send a command. While the platform does not answer one, no step changes anything: the operation never ends and no
operation of the host is accepted. A step without an answer passes, and an answer that comes later does what it would have
done at once (log 3). -/
def Obligations.UnansweredRequestIsStuck : Prop :=
  (∀ p : Position, (exchangeOf Config.cfg p).isSome = true ↔
    p = .initReset ∨ p = .initDelay ∨ (p = .begin1PlatformSeed ∧ Config.cfg.hwSeed = true)
      ∨ (positionInstr p).isSome = true)
  ∧ (∀ (s : State) (p : Position) (w : Work), s.seq = .wait p w → s.answers = [] → hostQuiet s = true →
    ∀ n, Sys2Proof.core.run n s = .next s)
  ∧ (∀ (s : State) (p : Position) (w : Work) (rest : List (Option Answer)), GoodState s → s.seq = .wait p w →
    s.answers = none :: rest → resetNext s = false → step s = .next { afterPass s with answers := rest })
  ∧ ∀ (s : State) (p : Position) (w : Work) (a : Answer) (rest : List (Option Answer)), GoodState s →
    s.seq = .run p w → (exchangeOf Config.cfg p).isSome = true → s.answers = [] →
    seqStep Config.cfg { seqStep Config.cfg s with answers := some a :: rest }
      = seqStep Config.cfg { s with answers := some a :: rest }

/-- The model's choice (log 5), after 30_encoding R81 and R82: a bus command given to an IDLE engine, or to one whose sequencer
stands at a step that does not send it, is a fault. -/
def Obligations.BusCommandNeedsItsStage : Prop :=
  ∀ (i : Instr) (s : State), isHostOperation i = false →
    (s.seq = .idle → exec i s = .fault .notOutstanding)
    ∧ ∀ (p : Position) (w : Work), s.seq = .run p w ∨ s.seq = .wait p w → positionInstr p ≠ some i →
      exec i s = .fault .notOutstanding

/-- 10_state R28, with the model's choice of what one step is (log 12): an operation begins at the first step of its own list; a
step moves the sequencer to the next step of that list or to IDLE, or leaves it where its request waits. It never goes
back. -/
def Obligations.SequencerTakesItsStepsInOrder : Prop :=
  (∀ (i : Instr) (how : U32) (s t : State), encode i = .how how → exec i s = .next t →
    t.seq = .idle ∨ ∃ p w, t.seq = .run p w ∧ p.index = 0 ∧ listedOperation how = some p.op)
  ∧ ∀ (s t : State) (p : Position) (w : Work), s.fault = none → s.seq = .run p w ∨ s.seq = .wait p w →
    resetNext s = false → step s = .next t →
    t.seq = .idle ∨ (∃ w', t.seq = .wait p w')
      ∨ ∃ p' w', t.seq = .run p' w' ∧ p'.op = p.op ∧ p'.index = p.index + 1

/-! ## Invariants -/

/-- The reset state is good, and its buffers are canonical. -/
def Obligations.ResetStateIsGood : Prop := GoodState State.reset ∧ BuffersOk State.reset

/-- 10_state R20 to R26, 43_state_machine R160: which registers hold values in each `ENC_STATE`, and what a running operation's
working copy holds, is kept by every step from every good state. -/
def Obligations.StepKeepsTheRegisterInvariant : Prop :=
  ∀ s t : State, GoodState s → step s = .next t → GoodState t

/-- Every step keeps every byte buffer in canonical form (log 10). -/
def Obligations.StepKeepsBuffersCanonical : Prop :=
  ∀ s t : State, BuffersOk s → step s = .next t → BuffersOk t

/-- R22: `ENC_STATE` changes only along the five edges, each to a state other than UNKNOWN with STATUS OK and to UNKNOWN with
VERIFICATION_MISMATCH, or by block reset to UNINIT. -/
def Obligations.EncStateMovesAlongItsEdges : Prop :=
  ∀ s t : State, GoodState s → step s = .next t →
    (resetNext s = true ∧ t.regs.encState = .uninit)
    ∨ (resetNext s = false ∧
        (t.regs.encState = s.regs.encState
          ∨ (encEdge s.regs.encState t.regs.encState = true
              ∧ t.status = some (if t.regs.encState = .unknown then ⟨2, 0, 0⟩ else ⟨0, 0, 0⟩))))

/-- R171: UNKNOWN is entered only by a chip id that differs from the raw chip id, reported as VERIFICATION_MISMATCH, and KEY1
and KEY2 only by one that equals it. -/
def Obligations.RegimesAreEnteredByTheChipIdCheck : Prop :=
  ∀ s t : State, GoodState s → step s = .next t → t.regs.encState ≠ s.regs.encState →
    (t.regs.encState = .unknown →
      t.status = some ⟨2, 0, 0⟩ ∧ t.regs.k2ChipId ≠ t.regs.rawChipId
        ∧ (s.regs.encState = .raw ∨ s.regs.encState = .key1))
    ∧ (t.regs.encState = .key1 ∨ t.regs.encState = .key2 →
      t.status = some ⟨0, 0, 0⟩ ∧ t.regs.k2ChipId = t.regs.rawChipId ∧ t.regs.schedValid = true)

/-- R24: the five captured registers are written only by an INIT that succeeds, and are read-only after it until block
reset. -/
def Obligations.CapturedRegistersAreReadOnly : Prop :=
  ∀ s t : State, GoodState s → resetNext s = false → step s = .next t →
    (t.regs.rawChipId = s.regs.rawChipId ∧ t.regs.hdrGameCode = s.regs.hdrGameCode
        ∧ t.regs.hdrKey1Timing = s.regs.hdrKey1Timing ∧ t.regs.hdrKey2Timing = s.regs.hdrKey2Timing
        ∧ t.regs.k2SeedByte = s.regs.k2SeedByte)
    ∨ (s.regs.encState = .uninit ∧ t.regs.encState = .raw ∧ t.status = some ⟨0, 0, 0⟩)

/-- R231: without a block reset, UNKNOWN is never left and a latched fault is never cleared. -/
def Obligations.OnlyBlockResetLeavesUnknownOrFault : Prop :=
  ∀ s t : State, GoodState s → resetNext s = false → step s = .next t →
    (s.regs.encState = .unknown → t.regs.encState = .unknown) ∧ (∀ f, s.fault = some f → t.fault = some f)

/-- R153: once BEGIN1 has entered the first regime, `K2_X` and `K2_Y` never change until block reset. -/
def Obligations.KeystreamPairNeverChanges : Prop :=
  ∀ s t : State, GoodState s → resetNext s = false → step s = .next t →
    s.regs.encState ≠ .uninit → s.regs.encState ≠ .raw →
    t.regs.k2X = s.regs.k2X ∧ t.regs.k2Y = s.regs.k2Y

/-- R214: until block reset, no event of the bus trace is removed, and events are only ever appended. A request is in the trace
from the step that makes it, before its answer: the event that making the request of that step records. That an event
is recorded without its status and takes it later, as the last event, is the model's choice (log 3). -/
def Obligations.TraceIsAppendOnly : Prop :=
  (∀ s t : State, resetNext s = false → step s = .next t →
    ∃ es, t.trace = s.trace ++ es
      ∨ ∃ l e st, s.trace = l ++ [e] ∧ e.pending = true ∧ t.trace = l ++ [e.answered st] ++ es)
  ∧ ∀ (s : State) (p : Position) (w : Work) (q : Exchange), GoodState s → s.seq = .run p w →
    exchangeOf Config.cfg p = some q → s.answers = [] → resetNext s = false →
    ∃ e, outstanding p e = true ∧ q.1 s w = request s p (requested p w) e
      ∧ step s = .next { afterPass s with seq := .wait p (requested p w), trace := s.trace ++ [e] }

/-- R207 (a): a fault happens before any register write or platform request of its operation: in the step that accepts it, or
in the first step of an INSPECT, and that step writes no register and makes no request. -/
def Obligations.FaultHappensBeforeAnyEffect : Prop :=
  ∀ s t : State, GoodState s → step s = .next t → s.fault = none → t.fault ≠ none →
    (s.seq = .idle ∨ ∃ r w, s.seq = .run (.inspectCheck r) w)
      ∧ t.regs = s.regs ∧ t.trace = s.trace ∧ t.answers = s.answers ∧ t.seq = .idle
      ∧ t.res0 = none ∧ t.res1 = none ∧ t.hdrOut = none ∧ t.secOut = none

/-- R23: UNWRITTEN_READ arises only from an INSPECT (any selector but ENC_STATE, SCHED_VALID and HW_SEED), whose check names the
register, and from `k1.encode`; and only an INSPECT word begins such a check. -/
def Obligations.UnwrittenReadOnlyFromInspectOrEncode : Prop :=
  (∀ (s t : State) (info : U32), GoodState s → step s = .next t → s.fault = none →
    t.fault = some ⟨.unwrittenRead, info⟩ →
    (∃ r w, s.seq = .run (.inspectCheck r) w ∧ info = (regSelector r).setWidth 32 ∧ 3 ≤ info.toNat)
      ∨ ∃ o rest, s.seq = .idle ∧ s.host = .op o :: rest ∧ o.how = 0x20)
  ∧ ∀ (s t : State) (r : RegName) (w : Work), s.fault = none → step s = .next t →
    t.seq = .run (.inspectCheck r) w →
    ∃ o rest, s.seq = .idle ∧ s.host = .op o :: rest ∧ howOpc o.how = 0x06 ∧ howSel o.how = regSelector r

/-! ## State-machine operations -/

/-- R161: an operation outside its state returns INVALID_STATE_TRANSITION, makes no platform request and writes no
register. -/
def Obligations.WrongStateIsRejected : Prop :=
  ∀ s : State, Ready s →
    let rejected : Host.Outcome State Fault Refusal := .next { clearPorts s with status := some ⟨3, 0, 0⟩ }
    (s.regs.encState ≠ .uninit → exec .init s = rejected)
    ∧ (s.regs.encState ≠ .raw → exec .setup s = rejected ∧ exec .begin1 s = rejected)
    ∧ (s.regs.encState ≠ .key1 → exec .readsec s = rejected ∧ exec .begin2 s = rejected)

/-- R163, R164, 20_memory R52, R53, 60_exceptions R212: INIT begins with the link reset, and with four requests that succeed and
a delay `d` that returns, whatever its answer, it captures the chip id and the header, returns the header block and enters
RAW. -/
def Obligations.InitCapturesChipIdAndHeader : Prop :=
  ∀ (s : State) (a0 a1 d a2 a3 : Answer) (rest : List (Option Answer)),
    Ready s → s.regs.encState = .uninit → s.answers = some a0 :: some a1 :: some d :: some a2 :: some a3 :: rest →
    0 ≤ a0.st.toInt → 0 ≤ a1.st.toInt → 0 ≤ a2.st.toInt → 0 ≤ a3.st.toInt →
    let id := a2.bytes
    let h := a3.bytes
    let fd := nfConstruct 0 (Config.cfg.dummyPostdelay.setWidth 32) false false false true
    let t : State := { clearPorts s with seq := .run .initReset (beginWork s) }
    exec .init s = .next t ∧ toEnd t = { clearPorts s with
      regs := { s.regs with
        encState := .raw
        rawChipId := some (id.read 3 ++ id.read 2 ++ id.read 1 ++ id.read 0)
        hdrGameCode := some (h.read 0x0F ++ h.read 0x0E ++ h.read 0x0D ++ h.read 0x0C)
        k2SeedByte := some (h.read 0x13)
        hdrKey2Timing := some (h.read 0x63 ++ h.read 0x62 ++ h.read 0x61 ++ h.read 0x60)
        hdrKey1Timing := some (h.read 0x67 ++ h.read 0x66 ++ h.read 0x65 ++ h.read 0x64) }
      hdrOut := some (h.restrict 0x1000)
      status := some ⟨0, 0, 0⟩
      answers := rest
      trace := s.trace ++
        [.reset (some a0.st), .send Config.cfg.dummyCmd Config.cfg.dummyReadSize fd (some a1.st),
          .delay Config.cfg.initDelay, .send Config.cfg.rawChipidCmd 4 Config.cfg.rawChipidFlags (some a2.st),
          .send Config.cfg.headerCmd 0x1000 Config.cfg.headerFlags (some a3.st)] }

/-- R163, R160: INIT stops at its first failing request, with that stage and the platform's status, and writes no
register. The delay `d` cannot fail, whatever its answer. -/
def Obligations.InitAbortsAtTheFailingStage : Prop :=
  ∀ (s : State) (a0 a1 d a2 a3 : Answer) (rest : List (Option Answer)), Ready s → s.regs.encState = .uninit →
    let fd := nfConstruct 0 (Config.cfg.dummyPostdelay.setWidth 32) false false false true
    let e0 : Event := .reset (some a0.st)
    let e1 : Event := .send Config.cfg.dummyCmd Config.cfg.dummyReadSize fd (some a1.st)
    let e2 : Event := .delay Config.cfg.initDelay
    let e3 : Event := .send Config.cfg.rawChipidCmd 4 Config.cfg.rawChipidFlags (some a2.st)
    let e4 : Event := .send Config.cfg.headerCmd 0x1000 Config.cfg.headerFlags (some a3.st)
    let t : State := { clearPorts s with seq := .run .initReset (beginWork s) }
    exec .init s = .next t
    ∧ (s.answers = some a0 :: rest → a0.st.toInt < 0 →
      toEnd t = { clearPorts s with
        status := some ⟨1, 0, a0.st⟩, answers := rest, trace := s.trace ++ [e0] })
    ∧ (s.answers = some a0 :: some a1 :: rest → 0 ≤ a0.st.toInt → a1.st.toInt < 0 →
      toEnd t = { clearPorts s with
        status := some ⟨1, 1, a1.st⟩, answers := rest, trace := s.trace ++ [e0, e1] })
    ∧ (s.answers = some a0 :: some a1 :: some d :: some a2 :: rest → 0 ≤ a0.st.toInt → 0 ≤ a1.st.toInt →
      a2.st.toInt < 0 →
      toEnd t = { clearPorts s with
        status := some ⟨1, 2, a2.st⟩, answers := rest, trace := s.trace ++ [e0, e1, e2, e3] })
    ∧ (s.answers = some a0 :: some a1 :: some d :: some a2 :: some a3 :: rest → 0 ≤ a0.st.toInt → 0 ≤ a1.st.toInt →
      0 ≤ a2.st.toInt → a3.st.toInt < 0 →
      toEnd t = { clearPorts s with
        status := some ⟨1, 3, a3.st⟩, answers := rest, trace := s.trace ++ [e0, e1, e2, e3, e4] })

/-- R165, 41_key1_encoder R132: SETUP applies the derived key to the host's table exactly twice, the second time with the key the
first application returned. -/
def Obligations.SetupAppliesTheKeyTwice : Prop :=
  ∀ (s : State) (gc : U32) (h : s.ports.schedIn.length = Config.cfg.schedWords),
    Ready s → s.regs.encState = .raw → s.regs.hdrGameCode = some gc →
    let table : Vector U32 Config.cfg.schedWords := ⟨s.ports.schedIn.toArray, by simpa using h⟩
    let first := Config.cfg.applyKey table ⟨gc, gc >>> 1, gc <<< 1⟩
    let second := Config.cfg.applyKey first.1 first.2
    let t : State := { clearPorts s with seq := .run .setupFirst (beginWork s) }
    exec .setup s = .next t ∧ toEnd t = { clearPorts s with
      regs := { s.regs with k1Sched := some second.1.toList, k1Key := some second.2, schedValid := true }
      status := some ⟨0, 0, 0⟩ }

/-- R165: a table of the wrong size latches `CONTRACT SCHED_SIZE`. -/
def Obligations.SetupChecksTheTableSize : Prop :=
  ∀ s : State, Ready s → s.regs.encState = .raw → s.ports.schedIn.length ≠ Config.cfg.schedWords →
    exec .setup s = .next { clearPorts s with
      fault := some ⟨.contract, 2⟩, status := some ⟨0x11, 0, 2⟩ }

/-- R166, 70_reset_and_hazards R235: BEGIN1 without a SETUP latches `CONTRACT NO_SCHEDULE`. -/
def Obligations.Begin1NeedsASchedule : Prop :=
  ∀ s : State, Ready s → s.regs.encState = .raw → s.regs.schedValid = false →
    exec .begin1 s = .next { clearPorts s with
      fault := some ⟨.contract, 3⟩, status := some ⟨0x11, 0, 3⟩ }

/-- R166, 42_keystream_seeder R150, R151: BEGIN1 whose three commands succeed writes the first regime's registers and the
keystream pair, and enters KEY1 when the chip id it reads equals the raw one, else UNKNOWN. Where the platform seeds in
hardware it answers the seed too, with an answer `d` that is not read. -/
def Obligations.Begin1EntersKey1OrUnknown : Prop :=
  ∀ (s : State) (a1 a2 d a3 : Answer) (rest : List (Option Answer)) (rawId t1 t2 : U32) (sb : U8) (sched : List U32),
    Ready s → s.regs.encState = .raw → s.regs.schedValid = true → s.regs.k1Sched = some sched →
    s.regs.rawChipId = some rawId → s.regs.hdrKey1Timing = some t1 → s.regs.hdrKey2Timing = some t2 →
    s.regs.k2SeedByte = some sb →
    s.answers = some a1 :: some a2 :: ((if Config.cfg.hwSeed then [some d] else []) ++ some a3 :: rest) →
    0 ≤ a1.st.toInt → 0 ≤ a2.st.toInt → 0 ≤ a3.st.toInt →
    let cfg := Config.cfg
    let fAct := t2 &&& cfg.act1Mask
    let f := (t1 &&& cfg.k1HdrMask) ||| (fAct &&& cfg.k1CurMask) ||| cfg.largeSecureBlockMask
    let c2 := k1Wire cfg sched (cfg.key1Layout cfg.k1CmdSeed 0 0xC99ACE 0x39D46)
    let c3 := k1Wire cfg sched (cfg.key1Layout cfg.k1CmdChipid 0 0x11A473 0x39D47)
    let x := (seedEntry cfg sb).setWidth 64 + ((0xC99ACE : U64) <<< 15) + 0x6000
    let y : U64 := 0x5C879B9B05
    let id := a3.bytes.read 3 ++ a3.bytes.read 2 ++ a3.bytes.read 1 ++ a3.bytes.read 0
    let t : State := { clearPorts s with seq := .run .begin1Constants (beginWork s) }
    exec .begin1 s = .next t ∧ toEnd t = { clearPorts s with
      regs := { s.regs with
        encState := if id = rawId then .key1 else .unknown
        k2Mn := some 0xC99ACE, k1Ij := some 0x11A473, k1K := some 0x39D48, k1L := some 0
        k1Flags := some (f ||| 0x00406000), k2X := some x, k2Y := some y, k2ChipId := some id }
      status := some (if id = rawId then ⟨0, 0, 0⟩ else ⟨2, 0, 0⟩)
      answers := rest
      trace := s.trace ++ [.send (cfg.actLayout cfg.act1Opc 0x11A473 0x39D46) 0 fAct (some a1.st), .send c2 0 f (some a2.st)]
        ++ (if cfg.hwSeed then [.seed x y] else []) ++ [.send c3 4 (f ||| 0x00406000) (some a3.st)] }

/-- R166, R160: a failing command of BEGIN1 is reported with its stage and reverts every register but the counter, which keeps
what the encoder consumed. The seed cannot fail, whatever its answer `d`. -/
def Obligations.Begin1AbortKeepsOnlyTheCounter : Prop :=
  ∀ (s : State) (a1 a2 d a3 : Answer) (rest : List (Option Answer)) (t1 t2 : U32) (sb : U8) (sched : List U32),
    Ready s → s.regs.encState = .raw → s.regs.schedValid = true → s.regs.k1Sched = some sched →
    s.regs.hdrKey1Timing = some t1 → s.regs.hdrKey2Timing = some t2 → s.regs.k2SeedByte = some sb →
    let cfg := Config.cfg
    let fAct := t2 &&& cfg.act1Mask
    let f := (t1 &&& cfg.k1HdrMask) ||| (fAct &&& cfg.k1CurMask) ||| cfg.largeSecureBlockMask
    let e1 : Event := .send (cfg.actLayout cfg.act1Opc 0x11A473 0x39D46) 0 fAct (some a1.st)
    let e2 : Event := .send (k1Wire cfg sched (cfg.key1Layout cfg.k1CmdSeed 0 0xC99ACE 0x39D46)) 0 f (some a2.st)
    let seeding : List Event :=
      if cfg.hwSeed then [.seed ((seedEntry cfg sb).setWidth 64 + ((0xC99ACE : U64) <<< 15) + 0x6000) 0x5C879B9B05]
      else []
    let e3 : Event :=
      .send (k1Wire cfg sched (cfg.key1Layout cfg.k1CmdChipid 0 0x11A473 0x39D47)) 4 (f ||| 0x00406000) (some a3.st)
    let t : State := { clearPorts s with seq := .run .begin1Constants (beginWork s) }
    exec .begin1 s = .next t
    ∧ (s.answers = some a1 :: rest → a1.st.toInt < 0 →
      toEnd t = { clearPorts s with
        status := some ⟨1, 1, a1.st⟩, answers := rest, trace := s.trace ++ [e1] })
    ∧ (s.answers = some a1 :: some a2 :: rest → 0 ≤ a1.st.toInt → a2.st.toInt < 0 →
      toEnd t = { clearPorts s with
        regs := { s.regs with k1K := some 0x39D47 }
        status := some ⟨1, 2, a2.st⟩, answers := rest, trace := s.trace ++ [e1, e2] })
    ∧ (s.answers = some a1 :: some a2 :: ((if cfg.hwSeed then [some d] else []) ++ some a3 :: rest) →
      0 ≤ a1.st.toInt → 0 ≤ a2.st.toInt → a3.st.toInt < 0 →
      toEnd t = { clearPorts s with
        regs := { s.regs with k1K := some 0x39D48 }
        status := some ⟨1, 3, a3.st⟩, answers := rest, trace := s.trace ++ [e1, e2] ++ seeding ++ [e3] })

/-- R167, 20_memory R51: READSEC makes four secure reads whatever their answers, reports each in CHUNK and the lowest failing one
in STATUS, delivers the bytes of every chunk that is OK, and writes no register but the counter. -/
def Obligations.ReadsecReportsEveryChunk : Prop :=
  ∀ (s : State) (a0 a1 a2 a3 : Answer) (rest : List (Option Answer)) (t1 : U32) (ij kk : U24) (sched : List U32),
    Ready s → s.regs.encState = .key1 → s.regs.k1Ij = some ij → s.regs.k1K = some kk →
    s.regs.k1Sched = some sched → s.regs.hdrKey1Timing = some t1 →
    s.answers = some a0 :: some a1 :: some a2 :: some a3 :: rest →
    let cfg := Config.cfg
    let fs := (t1 &&& cfg.secHdrMask) ||| cfg.largeSecureBlockMask ||| 0x00406000
    let word := fun (a : U16) (k : U24) => k1Wire cfg sched (cfg.key1Layout cfg.k1CmdSecread a ij (lowCounter k))
    let report := fun (stage : U8) (st : U32) => if st.toInt < 0 then Status.mk 1 stage st else Status.mk 0 0 0
    let t : State := { clearPorts s with seq := .run (.readsecRead 0 4 ij (lowCounter kk)) (beginWork s) }
    exec .readsec s = .next t
      ∧ ∃ out free, toEnd t = { clearPorts s with
        regs := { s.regs with k1K := some (kk + 4) }
        chunk := #v[some (report 1 a0.st), some (report 2 a1.st), some (report 3 a2.st), some (report 4 a3.st)]
        status := some (if a0.st.toInt < 0 then ⟨1, 1, a0.st⟩ else if a1.st.toInt < 0 then ⟨1, 2, a1.st⟩
          else if a2.st.toInt < 0 then ⟨1, 3, a2.st⟩ else report 4 a3.st)
        secOut := some out
        freeCount := free
        answers := rest
        trace := s.trace ++
          [.send (word 4 kk) 0x1000 fs (some a0.st), .send (word 5 (kk + 1)) 0x1000 fs (some a1.st),
            .send (word 6 (kk + 2)) 0x1000 fs (some a2.st), .send (word 7 (kk + 3)) 0x1000 fs (some a3.st)] }
      ∧ (∀ i, i < 0x1000 →
        (0 ≤ a0.st.toInt → out.read i = a0.bytes.read i)
        ∧ (0 ≤ a1.st.toInt → out.read (0x1000 + i) = a1.bytes.read i)
        ∧ (0 ≤ a2.st.toInt → out.read (0x2000 + i) = a2.bytes.read i)
        ∧ (0 ≤ a3.st.toInt → out.read (0x3000 + i) = a3.bytes.read i))

/-- R240: READSEC does the same whatever `RAW_CHIP_ID` holds, its top bit among others: as it begins, and after any number of
its steps. -/
def Obligations.ReadsecIgnoresTheRawChipId : Prop :=
  ∀ (s : State) (id : U32), s.seq = .idle →
    ∃ t, exec .readsec s = .next t ∧ exec .readsec (withRawChipId id s) = .next (withRawChipId id t)
      ∧ ∀ n, drive Config.cfg n (withRawChipId id t) = withRawChipId id (drive Config.cfg n t)

/-- R168: BEGIN2 whose two requests succeed writes the second regime's word and the chip id it reads, consumes one counter
value, and enters KEY2 when the chip id equals the raw one, else UNKNOWN. -/
def Obligations.Begin2EntersKey2OrUnknown : Prop :=
  ∀ (s : State) (a1 a2 : Answer) (rest : List (Option Answer)) (rawId t2 f : U32) (ij kk : U24) (l : U16)
    (sched : List U32),
    Ready s → s.regs.encState = .key1 → s.regs.k1Sched = some sched → s.regs.rawChipId = some rawId →
    s.regs.hdrKey2Timing = some t2 → s.regs.k1Ij = some ij → s.regs.k1K = some kk → s.regs.k1L = some l →
    s.regs.k1Flags = some f → s.answers = some a1 :: some a2 :: rest → 0 ≤ a1.st.toInt → 0 ≤ a2.st.toInt →
    let cfg := Config.cfg
    let f2 := (t2 &&& cfg.k2HdrMask) ||| cfg.k2Set
    let c1 := k1Wire cfg sched (cfg.key1Layout cfg.k1CmdAct2 l ij (lowCounter kk))
    let id := a2.bytes.read 3 ++ a2.bytes.read 2 ++ a2.bytes.read 1 ++ a2.bytes.read 0
    let t : State := { clearPorts s with seq := .run (.begin2Activate l ij (lowCounter kk)) (beginWork s) }
    exec .begin2 s = .next t ∧ toEnd t = { clearPorts s with
      regs := { s.regs with
        encState := if id = rawId then .key2 else .unknown
        k1K := some (kk + 1), k2Flags := some f2, k2ChipId := some id }
      status := some (if id = rawId then ⟨0, 0, 0⟩ else ⟨2, 0, 0⟩)
      answers := rest
      trace := s.trace ++ [.send c1 0 f (some a1.st), .send cfg.k2ChipidCmd 4 f2 (some a2.st)] }

/-- R168, R160: a failing request of BEGIN2 is reported with its stage and reverts every register but the counter. -/
def Obligations.Begin2AbortKeepsOnlyTheCounter : Prop :=
  ∀ (s : State) (a1 a2 : Answer) (rest : List (Option Answer)) (t2 f : U32) (ij kk : U24) (l : U16)
    (sched : List U32),
    Ready s → s.regs.encState = .key1 → s.regs.k1Sched = some sched → s.regs.hdrKey2Timing = some t2 →
    s.regs.k1Ij = some ij → s.regs.k1K = some kk → s.regs.k1L = some l → s.regs.k1Flags = some f →
    let cfg := Config.cfg
    let e1 : Event := .send (k1Wire cfg sched (cfg.key1Layout cfg.k1CmdAct2 l ij (lowCounter kk))) 0 f (some a1.st)
    let e2 : Event := .send cfg.k2ChipidCmd 4 ((t2 &&& cfg.k2HdrMask) ||| cfg.k2Set) (some a2.st)
    let t : State := { clearPorts s with seq := .run (.begin2Activate l ij (lowCounter kk)) (beginWork s) }
    exec .begin2 s = .next t
    ∧ (s.answers = some a1 :: rest → a1.st.toInt < 0 →
      toEnd t = { clearPorts s with
        regs := { s.regs with k1K := some (kk + 1) }
        status := some ⟨1, 1, a1.st⟩, answers := rest, trace := s.trace ++ [e1] })
    ∧ (s.answers = some a1 :: some a2 :: rest → 0 ≤ a1.st.toInt → a2.st.toInt < 0 →
      toEnd t = { clearPorts s with
        regs := { s.regs with k1K := some (kk + 1) }
        status := some ⟨1, 2, a2.st⟩, answers := rest, trace := s.trace ++ [e1, e2] })

/-! ## INSPECT -/

/-- R169, R74: INSPECT of a register that holds a value gives it zero-extended; the first three never fault. -/
def Obligations.InspectReadsWrittenRegisters : Prop :=
  ∀ s : State, Ready s →
    let begun := fun (r : RegName) => { clearPorts s with seq := .run (.inspectCheck r) (beginWork s) }
    let reads := fun (i : Instr) (r : RegName) (v : U64) =>
      exec i s = .next (begun r)
        ∧ toEnd (begun r) = { clearPorts s with res0 := some v, status := some ⟨0, 0, 0⟩ }
    reads .inspectEncState .encState (match s.regs.encState with
      | .uninit => 0 | .raw => 1 | .key1 => 2 | .key2 => 3 | .unknown => 4)
    ∧ reads .inspectSchedValid .schedValid (if s.regs.schedValid then 1 else 0)
    ∧ reads .inspectHwSeed .hwSeed (if Config.cfg.hwSeed then 1 else 0)
    ∧ (∀ v, s.regs.rawChipId = some v → reads .inspectRawChipId .rawChipId (v.setWidth 64))
    ∧ (∀ v, s.regs.hdrGameCode = some v → reads .inspectHdrGameCode .hdrGameCode (v.setWidth 64))
    ∧ (∀ v, s.regs.hdrKey1Timing = some v → reads .inspectHdrKey1Timing .hdrKey1Timing (v.setWidth 64))
    ∧ (∀ v, s.regs.hdrKey2Timing = some v → reads .inspectHdrKey2Timing .hdrKey2Timing (v.setWidth 64))
    ∧ (∀ v, s.regs.k2SeedByte = some v → reads .inspectK2SeedByte .k2SeedByte (v.setWidth 64))
    ∧ (∀ k, s.regs.k1Key = some k → reads .inspectK1Key0 .k1Key0 (k.k0.setWidth 64)
      ∧ reads .inspectK1Key1 .k1Key1 (k.k1.setWidth 64) ∧ reads .inspectK1Key2 .k1Key2 (k.k2.setWidth 64))
    ∧ (∀ v, s.regs.k1Ij = some v → reads .inspectK1Ij .k1Ij (v.setWidth 64))
    ∧ (∀ v, s.regs.k1K = some v → reads .inspectK1K .k1K (v.setWidth 64))
    ∧ (∀ v, s.regs.k1L = some v → reads .inspectK1L .k1L (v.setWidth 64))
    ∧ (∀ v, s.regs.k1Flags = some v → reads .inspectK1Flags .k1Flags (v.setWidth 64))
    ∧ (∀ v, s.regs.k2Mn = some v → reads .inspectK2Mn .k2Mn (v.setWidth 64))
    ∧ (∀ v, s.regs.k2Flags = some v → reads .inspectK2Flags .k2Flags (v.setWidth 64))
    ∧ (∀ v, s.regs.k2ChipId = some v → reads .inspectK2ChipId .k2ChipId (v.setWidth 64))
    ∧ (∀ v, s.regs.k2X = some v → reads .inspectK2X .k2X v)
    ∧ (∀ v, s.regs.k2Y = some v → reads .inspectK2Y .k2Y v)

/-- R23, R169, 60_exceptions R202: INSPECT of an unwritten register latches UNWRITTEN_READ with the register's selector. -/
def Obligations.InspectFaultsOnUnwrittenRegisters : Prop :=
  ∀ s : State, Ready s →
    let begun := fun (r : RegName) => { clearPorts s with seq := .run (.inspectCheck r) (beginWork s) }
    let faults := fun (i : Instr) (r : RegName) (sel : U32) =>
      exec i s = .next (begun r)
        ∧ toEnd (begun r)
          = { clearPorts s with fault := some ⟨.unwrittenRead, sel⟩, status := some ⟨0x12, 0, sel⟩ }
    (s.regs.rawChipId = none → faults .inspectRawChipId .rawChipId 0x03)
    ∧ (s.regs.hdrGameCode = none → faults .inspectHdrGameCode .hdrGameCode 0x04)
    ∧ (s.regs.hdrKey1Timing = none → faults .inspectHdrKey1Timing .hdrKey1Timing 0x05)
    ∧ (s.regs.hdrKey2Timing = none → faults .inspectHdrKey2Timing .hdrKey2Timing 0x06)
    ∧ (s.regs.k2SeedByte = none → faults .inspectK2SeedByte .k2SeedByte 0x07)
    ∧ (s.regs.k1Key = none → faults .inspectK1Key0 .k1Key0 0x08 ∧ faults .inspectK1Key1 .k1Key1 0x09 ∧ faults .inspectK1Key2 .k1Key2 0x0A)
    ∧ (s.regs.k1Ij = none → faults .inspectK1Ij .k1Ij 0x0B)
    ∧ (s.regs.k1K = none → faults .inspectK1K .k1K 0x0C)
    ∧ (s.regs.k1L = none → faults .inspectK1L .k1L 0x0D)
    ∧ (s.regs.k1Flags = none → faults .inspectK1Flags .k1Flags 0x0E)
    ∧ (s.regs.k2Mn = none → faults .inspectK2Mn .k2Mn 0x10)
    ∧ (s.regs.k2Flags = none → faults .inspectK2Flags .k2Flags 0x11)
    ∧ (s.regs.k2ChipId = none → faults .inspectK2ChipId .k2ChipId 0x12)
    ∧ (s.regs.k2X = none → faults .inspectK2X .k2X 0x13)
    ∧ (s.regs.k2Y = none → faults .inspectK2Y .k2Y 0x14)

/-- R169: `inspect K1_SCHED, A` gives entry `A`; an index outside the schedule latches `CONTRACT INDEX`, before the fault
UNWRITTEN_READ of a schedule that SETUP has not written. For every configuration, and `exec` uses the engine's. -/
def Obligations.InspectScheduleEntry : Prop :=
  (∀ (cfg : Cfg) (s : State), Ready s →
    let begun : State := { clearPorts s with seq := .run (.inspectCheck .k1Sched) (beginWork s) }
    (∀ l, s.regs.schedValid = true → s.regs.k1Sched = some l → s.ports.a.toNat < cfg.schedWords →
      inspectSchedOp cfg s = .next begun
        ∧ drive cfg maxSteps begun = { clearPorts s with
          res0 := some ((l.getD s.ports.a.toNat 0).setWidth 64), status := some ⟨0, 0, 0⟩ })
    ∧ (s.regs.schedValid = false → s.ports.a.toNat < cfg.schedWords →
      inspectSchedOp cfg s = .next begun
        ∧ drive cfg maxSteps begun = { clearPorts s with
          fault := some ⟨.unwrittenRead, 0x0F⟩, status := some ⟨0x12, 0, 0x0F⟩ })
    ∧ (cfg.schedWords ≤ s.ports.a.toNat →
      inspectSchedOp cfg s = .next { clearPorts s with
        fault := some ⟨.contract, 4⟩, status := some ⟨0x11, 0, 4⟩ }))
  ∧ (∀ (s : State) (l : List U32), Ready s → s.regs.schedValid = true → s.regs.k1Sched = some l →
    ∃ t, exec .inspectK1Sched s = .next t ∧ toEnd t = (if s.ports.a.toNat < Config.cfg.schedWords
      then { clearPorts s with res0 := some ((l.getD s.ports.a.toNat 0).setWidth 64), status := some ⟨0, 0, 0⟩ }
      else { clearPorts s with fault := some ⟨.contract, 4⟩, status := some ⟨0x11, 0, 4⟩ }))

/-! ## The encoder and the seeder -/

/-- R132, R133: the derived key of a game code, by logical shifts, on `RES0` and `RES1`. -/
def Obligations.DeriveShiftsTheGameCode : Prop :=
  decode (.how 0x21) = .ok .k1Derive
  ∧ ∀ s : State, Ready s →
    exec .k1Derive s = .next { clearPorts s with
      res0 := some ((s.ports.a >>> 1) ++ s.ports.a), res1 := some ((s.ports.a <<< 1).setWidth 64)
      status := some ⟨0, 0, 0⟩ }

/-- R135, R136: `k1.encode` gives the reversed, encrypted and reversed plaintext, and consumes exactly one counter value; the
reversal puts byte `7 - i` at byte `i` (00_scope R9, 20_memory R55). -/
def Obligations.EncodeConsumesOneCounterValue : Prop :=
  (∀ (v : U64) (i : Nat), i < 8 → (bswap64 v).extractLsb' (8 * i) 8 = v.extractLsb' (8 * (7 - i)) 8)
  ∧ ∀ (s : State) (kk : U24) (sched : List U32) (h : sched.length = Config.cfg.schedWords),
    Ready s → s.ports.a.toNat < 2 ^ 4 → s.ports.b.toNat < 2 ^ 16 → s.ports.c.toNat < 2 ^ 24 →
    s.regs.schedValid = true → s.regs.k1Sched = some sched → s.regs.k1K = some kk →
    let table : Vector U32 Config.cfg.schedWords := ⟨sched.toArray, by simpa using h⟩
    let p := Config.cfg.key1Layout (s.ports.a.extractLsb' 0 4) (s.ports.b.extractLsb' 0 16)
      (s.ports.c.extractLsb' 0 24) (kk.extractLsb' 0 20)
    exec .k1Encode s = .next { clearPorts s with
      regs := { s.regs with k1K := some (kk + 1) }
      res0 := some (bswap64 (Config.cfg.encryptBlock table (bswap64 p)))
      status := some ⟨0, 0, 0⟩ }

/-- R136, 60_exceptions R204: the faults of `k1.encode`, the operand width first, then the schedule, then the counter. -/
def Obligations.EncodeFaults : Prop :=
  ∀ s : State, Ready s →
    let faults := fun (f : FaultRecord) (code : U8) =>
      exec .k1Encode s = .next { clearPorts s with fault := some f, status := some ⟨code, 0, f.info⟩ }
    let wide := 2 ^ 4 ≤ s.ports.a.toNat ∨ 2 ^ 16 ≤ s.ports.b.toNat ∨ 2 ^ 24 ≤ s.ports.c.toNat
    (wide → faults ⟨.contract, 1⟩ 0x11)
    ∧ (¬ wide → s.regs.schedValid = false → faults ⟨.unwrittenRead, 0x0F⟩ 0x12)
    ∧ (¬ wide → s.regs.schedValid = true → s.regs.k1K = none → faults ⟨.unwrittenRead, 0x0C⟩ 0x12)

/-- R137, for every configuration: what `k1.encode` gives depends on its operands, the schedule and the counter's low 20 bits
alone, and it advances the counter by exactly one. -/
def Obligations.EncodeDependsOnItsInputsOnly : Prop :=
  ∀ (cfg : Cfg) (s t : State) (sched : List U32) (k k' : U24), Ready s → Ready t →
    s.regs.schedValid = true → t.regs.schedValid = true → s.regs.k1Sched = some sched → t.regs.k1Sched = some sched →
    s.regs.k1K = some k → t.regs.k1K = some k' → k.extractLsb' 0 20 = k'.extractLsb' 0 20 →
    s.ports.a = t.ports.a → s.ports.b = t.ports.b → s.ports.c = t.ports.c →
    s.ports.a.toNat < 2 ^ 4 → s.ports.b.toNat < 2 ^ 16 → s.ports.c.toNat < 2 ^ 24 →
    ∃ s' t', k1EncodeOp cfg s = .next s' ∧ k1EncodeOp cfg t = .next t' ∧ s'.res0 ≠ none ∧ s'.res0 = t'.res0
      ∧ s'.status = t'.status ∧ s'.regs.k1K = some (k + 1) ∧ t'.regs.k1K = some (k' + 1)

/-- R138, for every configuration: under an injective cipher and a layout injective in its counter, two consecutive encodings
of the same operands give different words. -/
def Obligations.ConsecutiveEncodingsDiffer : Prop :=
  ∀ (cfg : Cfg) (s t u : State) (sched : List U32),
    (∀ b b', cfg.encryptBlock (schedVector cfg.schedWords sched) b
      = cfg.encryptBlock (schedVector cfg.schedWords sched) b' → b = b') →
    (∀ c a n k k', cfg.key1Layout c a n k = cfg.key1Layout c a n k' → k = k') →
    s.regs.k1Sched = some sched → s.fault = none → t.fault = none → u.fault = none →
    k1EncodeOp cfg s = .next t → k1EncodeOp cfg t = .next u →
    t.res0 ≠ none ∧ u.res0 ≠ none ∧ t.res0 ≠ u.res0

/-- R150, R152: `k2.seed` gives the keystream pair of a seed byte and a seed value: the exact sum, which no 64-bit addition
wraps; only bits 2:0 of the byte select the entry. -/
def Obligations.SeedGivesTheKeystreamPair : Prop :=
  ∀ s : State, Ready s → s.ports.a.toNat < 2 ^ 8 → s.ports.b.toNat < 2 ^ 24 →
    let x : Nat := (Config.cfg.seedTable[s.ports.a.toNat % 8]).toNat + s.ports.b.toNat * 2 ^ 15 + 0x6000
    x < 2 ^ 40
      ∧ exec .k2Seed s = .next { clearPorts s with
        res0 := some (BitVec.ofNat 64 x), res1 := some 0x5C879B9B05, status := some ⟨0, 0, 0⟩ }

/-- R152, 30_encoding R73: a seed byte of more than 8 bits or a seed value of more than 24 latches `CONTRACT OPERAND_WIDTH`. -/
def Obligations.SeedChecksOperandWidths : Prop :=
  ∀ s : State, Ready s → (2 ^ 8 ≤ s.ports.a.toNat ∨ 2 ^ 24 ≤ s.ports.b.toNat) →
    exec .k2Seed s = .next { clearPorts s with
      fault := some ⟨.contract, 1⟩, status := some ⟨0x11, 0, 1⟩ }

/-- R150: the sum never overflows: as a number `x` is the exact sum, below 2^40, for every configuration. -/
def Obligations.SeedSumIsExact : Prop :=
  ∀ (cfg : Cfg) (sb : U8) (mn : U24),
    (k2SeedX cfg sb mn).toNat = (seedEntry cfg sb).toNat + mn.toNat * 2 ^ 15 + 0x6000
    ∧ (k2SeedX cfg sb mn).toNat < 2 ^ 40

/-! ## The control-word codec -/

/-- R100, R102, R104, R106, R108, R110, R112: the getters. -/
def Obligations.CodecGettersExtractTheirFields : Prop :=
  (decode (.how 0x11) = .ok .nfGetPredelay ∧ decode (.how 0x13) = .ok .nfGetPostdelay
    ∧ decode (.how 0x15) = .ok .nfGetPulse ∧ decode (.how 0x17) = .ok .nfGetCmdenc
    ∧ decode (.how 0x19) = .ok .nfGetDataenc ∧ decode (.how 0x1B) = .ok .nfGetSlow
    ∧ decode (.how 0x1D) = .ok .nfGetSecen)
  ∧ ∀ s : State, Ready s →
    let w := s.ports.a
    let gives := fun (i : Instr) (v : U64) =>
      exec i s = .next { clearPorts s with res0 := some v, status := some ⟨0, 0, 0⟩ }
    gives .nfGetPredelay ((w.extractLsb' 0 13).setWidth 64)
    ∧ gives .nfGetPostdelay ((w.extractLsb' 16 6).setWidth 64)
    ∧ gives .nfGetPulse ((w.extractLsb' 28 1).setWidth 64)
    ∧ gives .nfGetCmdenc ((w.extractLsb' 22 1).setWidth 64)
    ∧ gives .nfGetDataenc ((w.extractLsb' 13 1).setWidth 64)
    ∧ gives .nfGetSlow ((w.extractLsb' 27 1).setWidth 64)
    ∧ gives .nfGetSecen ((w.extractLsb' 14 1).setWidth 64)

/-- R101, R103, R105, R107, R109, R111: the setters, a value truncated to its field and a boolean true when not zero. -/
def Obligations.CodecSettersWriteTheirFields : Prop :=
  (decode (.how 0x12) = .ok .nfSetPredelay ∧ decode (.how 0x14) = .ok .nfSetPostdelay
    ∧ decode (.how 0x16) = .ok .nfSetPulse ∧ decode (.how 0x18) = .ok .nfSetCmdenc
    ∧ decode (.how 0x1A) = .ok .nfSetDataenc ∧ decode (.how 0x1C) = .ok .nfSetSlow)
  ∧ ∀ s : State, Ready s →
    let w := s.ports.a
    let v := s.ports.b
    let gives := fun (i : Instr) (r : U32) =>
      exec i s = .next { clearPorts s with res0 := some (r.setWidth 64), status := some ⟨0, 0, 0⟩ }
    gives .nfSetPredelay ((w &&& ~~~(0x00001FFF : U32)) ||| (v &&& 0x1FFF))
    ∧ gives .nfSetPostdelay ((w &&& ~~~(0x003F0000 : U32)) ||| ((v &&& 0x3F) <<< 16))
    ∧ gives .nfSetPulse (if v ≠ 0 then w ||| 0x10000000 else w &&& ~~~(0x10000000 : U32))
    ∧ gives .nfSetSlow (if v ≠ 0 then w ||| 0x08000000 else w &&& ~~~(0x08000000 : U32))
    ∧ gives .nfSetCmdenc (if v ≠ 0 then w ||| 0x00404000
        else if w.extractLsb' 13 1 = 0 then w &&& ~~~(0x00404000 : U32) else w &&& ~~~(0x00400000 : U32))
    ∧ gives .nfSetDataenc (if v ≠ 0 then w ||| 0x00006000
        else if w.extractLsb' 22 1 = 0 then w &&& ~~~(0x00006000 : U32) else w &&& ~~~(0x00002000 : U32))

/-- R113, R114: `nf.construct` applies the setters in the document's field order from zero; its value has a closed form, and
is the same whichever sub-flag is set last. -/
def Obligations.ConstructGivesTheClosedForm : Prop :=
  decode (.how 0x10) = .ok .nfConstruct
  ∧ (∀ s : State, Ready s →
    let c := s.ports.c
    let w := nfSetPulse (nfSetPostdelay (nfSetPredelay 0 s.ports.a) s.ports.b) (c.getLsbD 0)
    exec .nfConstruct s = .next { clearPorts s with
      res0 := some ((nfSetSlow (nfSetDataenc (nfSetCmdenc w (c.getLsbD 1)) (c.getLsbD 2)) (c.getLsbD 3)).setWidth 64)
      status := some ⟨0, 0, 0⟩ })
  ∧ ∀ (p q : U32) (pu c d sl : Bool),
    let bit := fun (b : Bool) (n : Nat) => (if b then 1 else 0 : U32) <<< n
    let w := nfSetPulse (nfSetPostdelay (nfSetPredelay 0 p) q) pu
    let closed := (p &&& 0x1FFF) ||| ((q &&& 0x3F) <<< 16) ||| bit pu 28 ||| bit c 22 ||| bit d 13 ||| bit (c || d) 14
      ||| bit sl 27
    nfSetSlow (nfSetDataenc (nfSetCmdenc w c) d) sl = closed ∧ nfSetSlow (nfSetCmdenc (nfSetDataenc w d) c) sl = closed

/-- R115: the getters of a constructed word give its fields back, and the enable bit is the OR of the two sub-flags. -/
def Obligations.ConstructedWordRoundTrips : Prop :=
  ∀ (p q : U32) (pu c d sl : Bool), p.toNat < 2 ^ 13 → q.toNat < 2 ^ 6 →
    let w := nfConstruct p q pu c d sl
    (nfGetPredelay w).toNat = p.toNat ∧ (nfGetPostdelay w).toNat = q.toNat ∧ nfGetPulse w = pu ∧ nfGetCmdenc w = c
      ∧ nfGetDataenc w = d ∧ nfGetSlow w = sl ∧ nfGetSecen w = (c || d)

/-- 10_state R33, 40_control_word R107, R109, R113: the constructor establishes the enable invariant, every setter keeps it, and
setting a sub-flag to true establishes it. Clearing one on a word that breaks it can leave it broken. -/
def Obligations.SettersKeepTheEnableInvariant : Prop :=
  (∀ (p q : U32) (pu c d sl : Bool), enableInvariant (nfConstruct p q pu c d sl) = true)
  ∧ (∀ (w v : U32) (b : Bool), enableInvariant w = true →
    enableInvariant (nfSetPredelay w v) = true ∧ enableInvariant (nfSetPostdelay w v) = true
      ∧ enableInvariant (nfSetPulse w b) = true ∧ enableInvariant (nfSetSlow w b) = true
      ∧ enableInvariant (nfSetCmdenc w b) = true ∧ enableInvariant (nfSetDataenc w b) = true)
  ∧ (∀ w : U32, enableInvariant (nfSetCmdenc w true) = true ∧ enableInvariant (nfSetDataenc w true) = true)
  ∧ (∃ w : U32, enableInvariant w = false ∧ enableInvariant (nfSetCmdenc w false) = false)
  ∧ (∃ w : U32, enableInvariant w = false ∧ enableInvariant (nfSetDataenc w false) = false)

/-- R77: every setter keeps the unassigned bits, and the constructor sets them to 0. -/
def Obligations.UnassignedBitsAreKept : Prop :=
  (∀ (w v : U32) (b : Bool),
    nfSetPredelay w v &&& 0xE7808000 = w &&& 0xE7808000 ∧ nfSetPostdelay w v &&& 0xE7808000 = w &&& 0xE7808000
      ∧ nfSetPulse w b &&& 0xE7808000 = w &&& 0xE7808000 ∧ nfSetSlow w b &&& 0xE7808000 = w &&& 0xE7808000
      ∧ nfSetCmdenc w b &&& 0xE7808000 = w &&& 0xE7808000 ∧ nfSetDataenc w b &&& 0xE7808000 = w &&& 0xE7808000)
  ∧ ∀ (p q : U32) (pu c d sl : Bool), nfConstruct p q pu c d sl &&& 0xE7808000 = 0

/-- R206: a platform error has the legacy integer `e - 100 * stage`; no other status has one. -/
def Obligations.LegacyCodeOfPlatformErrors : Prop :=
  ∀ st : Status, legacyCode st = if st.code = 1 then some (st.e.toInt - 100 * (st.stage.toNat : Int)) else none

/-! ## Bus commands -/

/-- 30_encoding R81, 43_state_machine R163: the commands of INIT, each sent at its step, its answer delivered; the steps that
follow make the delay, which waits until the platform returns from it (60_exceptions R203, R212), capture the chip id, and
after the header end INIT. -/
def Obligations.InitCommandsRunTheirStages : Prop :=
  ∀ (s : State) (w : Work) (a : Answer) (rest : List (Option Answer)),
    s.fault = none → s.answers = some a :: rest → 0 ≤ a.st.toInt →
    (s.seq = .run .initDummy w →
      let t : State := { s with
        answers := rest, seq := .run .initDelay w
        trace := s.trace ++ [.send Config.cfg.dummyCmd Config.cfg.dummyReadSize
          (nfConstruct 0 (Config.cfg.dummyPostdelay.setWidth 32) false false false true) (some a.st)] }
      exec .busDummy s = .next t
        ∧ (rest = [] → seqStep Config.cfg t = { t with
          seq := .wait .initDelay w, trace := t.trace ++ [.delay Config.cfg.initDelay] })
        ∧ ∀ d later, rest = some d :: later → seqStep Config.cfg t = { t with
          seq := .run .initRawChipid w, trace := t.trace ++ [.delay Config.cfg.initDelay], answers := later })
    ∧ (s.seq = .run .initRawChipid w →
      let w' : Work := { w with rsp4 := a.bytes.restrict 4 }
      let t : State := { s with
        answers := rest, seq := .run .initCapture w'
        trace := s.trace ++ [.send Config.cfg.rawChipidCmd 4 Config.cfg.rawChipidFlags (some a.st)] }
      exec .busRawChipid s = .next t
        ∧ seqStep Config.cfg t = { t with
          seq := .run .initHeaderRead { w' with regs := { w.regs with
            rawChipId := some (a.bytes.read 3 ++ a.bytes.read 2 ++ a.bytes.read 1 ++ a.bytes.read 0) } } })
    ∧ (s.seq = .run .initHeaderRead w →
      let t : State := { s with
        answers := rest, seq := .run .initParse { w with hdrBuf := a.bytes.restrict 0x1000 }
        trace := s.trace ++ [.send Config.cfg.headerCmd 0x1000 Config.cfg.headerFlags (some a.st)] }
      exec .busHeaderRead s = .next t
        ∧ toEnd t = { t with
          seq := .idle, status := some ⟨0, 0, 0⟩, hdrOut := some (a.bytes.restrict 0x1000)
          regs := { w.regs with
            encState := .raw
            hdrGameCode := some (a.bytes.read 0x0F ++ a.bytes.read 0x0E ++ a.bytes.read 0x0D ++ a.bytes.read 0x0C)
            k2SeedByte := some (a.bytes.read 0x13)
            hdrKey2Timing := some (a.bytes.read 0x63 ++ a.bytes.read 0x62 ++ a.bytes.read 0x61 ++ a.bytes.read 0x60)
            hdrKey1Timing := some (a.bytes.read 0x67 ++ a.bytes.read 0x66 ++ a.bytes.read 0x65 ++ a.bytes.read 0x64) } })

/-- 30_encoding R79, R81, 43_state_machine R166: ACTIVATE_KEY1 is sent raw and embeds the nonce and the counter without consuming
it; the working word is formed, and the seed command is next. -/
def Obligations.ActivateKey1RunsItsStage : Prop :=
  ∀ (s : State) (w : Work) (ij mn kk : U24) (k20 : U20) (l : U16) (t1 t2 : U32) (a : Answer)
    (rest : List (Option Answer)),
    s.fault = none → s.seq = .run (.begin1Activate ij k20) w → s.regs.hdrKey2Timing = some t2 →
    s.regs.hdrKey1Timing = some t1 → w.regs.k1L = some l → w.regs.k2Mn = some mn → w.regs.k1K = some kk →
    s.answers = some a :: rest → 0 ≤ a.st.toInt →
    let cfg := Config.cfg
    let fAct := t2 &&& cfg.act1Mask
    let t : State := { s with
      answers := rest, seq := .run .begin1Word w
      trace := s.trace ++ [.send (cfg.actLayout cfg.act1Opc ij k20) 0 fAct (some a.st)] }
    exec (.busActivateKey1 ij k20) s = .next t
      ∧ seqStep cfg t = { t with
        seq := .run (.begin1SeedInit l mn (kk.extractLsb' 0 20)) { w with regs := { w.regs with
          k1Flags := some ((t1 &&& cfg.k1HdrMask) ||| (fAct &&& cfg.k1CurMask) ||| cfg.largeSecureBlockMask) } } }

/-- 30_encoding R78, R81, 43_state_machine R166, 42_keystream_seeder R151: KEY2_SEED_INIT is sent encoded under the working word
and consumes the counter; the keystream pair is computed and, where the platform seeds in hardware, handed to it, which waits
until the platform returns from the seed (60_exceptions R203, R213); both sub-flags are enabled, and the chip-id request is
next. -/
def Obligations.Key2SeedInitRunsItsStage : Prop :=
  ∀ (s : State) (w : Work) (a : U16) (n : U24) (k20 : U20) (mn ij kk : U24) (l : U16) (f : U32) (sb : U8)
    (sched : List U32) (ans d : Answer) (rest later : List (Option Answer)),
    s.fault = none → s.seq = .run (.begin1SeedInit a n k20) w → s.regs.k2SeedByte = some sb →
    w.regs.k1Flags = some f → w.regs.k1K = some kk → w.regs.k1Sched = some sched → w.regs.k2Mn = some mn →
    w.regs.k1L = some l → w.regs.k1Ij = some ij → s.answers = some ans :: rest → 0 ≤ ans.st.toInt →
    let cfg := Config.cfg
    let x := k2SeedX cfg sb mn
    let t : State := { s with
      answers := rest
      trace := s.trace ++ [.send (k1Wire cfg sched (cfg.key1Layout cfg.k1CmdSeed a n k20)) 0 f (some ans.st)]
      seq := .run .begin1SeedPair { w with kused := true, regs := { w.regs with k1K := some (kk + 1) } } }
    exec (.busKey2SeedInit a n k20) s = .next t
      ∧ (cfg.hwSeed = true → rest = [] → drive cfg 2 t = { t with
        trace := t.trace ++ [.seed x 0x5C879B9B05]
        seq := .wait .begin1PlatformSeed { w with
          kused := true
          regs := { w.regs with k1K := some (kk + 1), k2X := some x, k2Y := some 0x5C879B9B05 } } })
      ∧ (rest = (if cfg.hwSeed then some d :: later else later) → drive cfg 3 t = { t with
        answers := later
        trace := t.trace ++ (if cfg.hwSeed then [.seed x 0x5C879B9B05] else [])
        seq := .run (.begin1Chipid l ij ((kk + 1).extractLsb' 0 20)) { w with
          kused := true
          regs := { w.regs with
            k1K := some (kk + 1), k2X := some x, k2Y := some 0x5C879B9B05
            k1Flags := some (f ||| 0x00406000) } } })

/-- 30_encoding R78, R81, 43_state_machine R166, R168: the two chip-id requests, and the steps that end BEGIN1 and BEGIN2: the
working copy is committed, in the entered regime when the chip id equals the raw one, else in UNKNOWN with a mismatch. -/
def Obligations.ChipIdCommandsVerify : Prop :=
  ∀ (s : State) (w : Work) (f rawId : U32) (ans : Answer) (rest : List (Option Answer)),
    s.fault = none → s.regs.rawChipId = some rawId → s.answers = some ans :: rest → 0 ≤ ans.st.toInt →
    let cfg := Config.cfg
    let id := ans.bytes.read 3 ++ ans.bytes.read 2 ++ ans.bytes.read 1 ++ ans.bytes.read 0
    let verdict : Option Status := some (if id = rawId then ⟨0, 0, 0⟩ else ⟨2, 0, 0⟩)
    (∀ (a : U16) (n kk : U24) (k20 : U20) (sched : List U32), s.seq = .run (.begin1Chipid a n k20) w →
      w.regs.k1Flags = some f → w.regs.k1K = some kk → w.regs.k1Sched = some sched →
      let t : State := { s with
        answers := rest
        trace := s.trace ++ [.send (k1Wire cfg sched (cfg.key1Layout cfg.k1CmdChipid a n k20)) 4 f (some ans.st)]
        seq := .run .begin1StoreId { w with
          kused := true, rsp4 := ans.bytes.restrict 4, regs := { w.regs with k1K := some (kk + 1) } } }
      exec (.busKey1Chipid a n k20) s = .next t
        ∧ toEnd t = { t with
          seq := .idle, status := verdict
          regs := { w.regs with
            k1K := some (kk + 1), k2ChipId := some id, encState := if id = rawId then .key1 else .unknown } })
    ∧ (s.seq = .run .begin2Chipid w → w.regs.k2Flags = some f →
      let t : State := { s with
        answers := rest, trace := s.trace ++ [.send cfg.k2ChipidCmd 4 f (some ans.st)]
        seq := .run .begin2StoreId { w with rsp4 := ans.bytes.restrict 4 } }
      exec .busKey2Chipid s = .next t
        ∧ toEnd t = { t with
          seq := .idle, status := verdict
          regs := { w.regs with k2ChipId := some id, encState := if id = rawId then .key2 else .unknown } })

/-- 30_encoding R81, 43_state_machine R167, 20_memory R51: SECURE_READ of chunk `j` is sent encoded under the secure reads' word;
its answer, good or not, is reported in `CHUNK[j]`, a good one fills quarter `j` of `SEC_OUT`, the rest of `SEC_OUT` is as
before, and the read goes on to the next chunk or READSEC ends with the counter as its only register write. -/
def Obligations.SecureReadRunsItsStage : Prop :=
  ∀ (s : State) (w : Work) (j : Fin 4) (a : U16) (n ij kk : U24) (k20 : U20) (t1 : U32) (sched : List U32)
    (ans : Answer) (rest : List (Option Answer)),
    s.fault = none → s.seq = .run (.readsecRead j a n k20) w → s.regs.hdrKey1Timing = some t1 →
    w.regs.k1K = some kk → w.regs.k1Sched = some sched → w.regs.k1Ij = some ij → s.answers = some ans :: rest →
    let cfg := Config.cfg
    let fs := (t1 &&& cfg.secHdrMask) ||| cfg.largeSecureBlockMask ||| 0x00406000
    let w' : Work := { w with kused := true, regs := { w.regs with k1K := some (kk + 1) } }
    ∃ t out, exec (.busSecureRead a n k20) s = .next t
      ∧ t.secOut = some out
      ∧ (0 ≤ ans.st.toInt → ∀ i, i < 0x1000 → out.read (j.val * 0x1000 + i) = ans.bytes.read i)
      ∧ (∀ i, i < j.val * 0x1000 ∨ j.val * 0x1000 + 0x1000 ≤ i → out.read i = Memory.read (s.secOut.getD []) i)
      ∧ t.chunk = s.chunk.set j.val
          (some (if ans.st.toInt < 0 then ⟨1, BitVec.ofNat 8 (j.val + 1), ans.st⟩ else ⟨0, 0, 0⟩))
      ∧ t.trace = s.trace
          ++ [.send (k1Wire cfg sched (cfg.key1Layout cfg.k1CmdSecread a n k20)) 0x1000 fs (some ans.st)]
      ∧ t.answers = rest ∧ t.fault = none ∧ t.ports = s.ports ∧ t.host = s.host ∧ t.regs = s.regs
      ∧ t.status = s.status ∧ t.res0 = s.res0 ∧ t.res1 = s.res1 ∧ t.hdrOut = s.hdrOut
      ∧ (j.val < 3 → ∃ h : j.val + 1 < 4,
        t.seq = .run (.readsecRead ⟨j.val + 1, h⟩ (BitVec.ofNat 16 (j.val + 5)) ij ((kk + 1).extractLsb' 0 20)) w')
      ∧ (j.val = 3 → t.seq = .run .readsecCounter w'
        ∧ ∃ st, toEnd t = { t with
          seq := .idle, status := some st, regs := { s.regs with k1K := some (kk + 1) } })

/-- 30_encoding R78, R81, 43_state_machine R168: ACTIVATE_KEY2 is sent encoded under the first regime's word and consumes the
counter; the second regime's word is formed and the chip-id request is next. -/
def Obligations.ActivateKey2RunsItsStage : Prop :=
  ∀ (s : State) (w : Work) (a : U16) (n kk : U24) (k20 : U20) (f t2 : U32) (sched : List U32) (ans : Answer)
    (rest : List (Option Answer)),
    s.fault = none → s.seq = .run (.begin2Activate a n k20) w → s.regs.hdrKey2Timing = some t2 →
    w.regs.k1Flags = some f → w.regs.k1K = some kk → w.regs.k1Sched = some sched →
    s.answers = some ans :: rest → 0 ≤ ans.st.toInt →
    let cfg := Config.cfg
    let w' : Work := { w with kused := true, regs := { w.regs with k1K := some (kk + 1) } }
    let t : State := { s with
      answers := rest, seq := .run .begin2Word w'
      trace := s.trace ++ [.send (k1Wire cfg sched (cfg.key1Layout cfg.k1CmdAct2 a n k20)) 0 f (some ans.st)] }
    exec (.busActivateKey2 a n k20) s = .next t
      ∧ seqStep cfg t = { t with
        seq := .run .begin2Chipid { w' with regs := { w'.regs with
          k2Flags := some ((t2 &&& cfg.k2HdrMask) ||| cfg.k2Set) } } }

/-- 43_state_machine R160, R162, R170, 60_exceptions R205: a failing request other than a secure read aborts its operation: the
status carries the stage and the platform's status, and no register is written but the counter, if the encoder has run. -/
def Obligations.FailingCommandAborts : Prop :=
  ∀ (s : State) (w : Work) (p : Position) (i : Instr) (ans : Answer) (rest : List (Option Answer)),
    GoodState s → s.seq = .run p w → positionInstr p = some i → (∀ j a n k20, p ≠ .readsecRead j a n k20) →
    s.answers = some ans :: rest → ans.st.toInt < 0 →
    let stage : U8 := match p with
      | .initDummy => 1 | .initRawChipid => 2 | .initHeaderRead => 3 | .begin1Activate _ _ => 1
      | .begin1SeedInit _ _ _ => 2 | .begin1Chipid _ _ _ => 3 | .begin2Activate _ _ _ => 1 | .begin2Chipid => 2
      | _ => 0
    let counter : Option U24 := match p with
      | .begin1SeedInit _ _ _ => w.regs.k1K.map (· + 1)
      | .begin1Chipid _ _ _ => w.regs.k1K.map (· + 1)
      | .begin2Activate _ _ _ => w.regs.k1K.map (· + 1)
      | .begin2Chipid => w.regs.k1K
      | _ => s.regs.k1K
    ∃ cmd size flags, exec i s = .next { s with
      answers := rest, seq := .idle, status := some ⟨1, stage, ans.st⟩
      regs := { s.regs with k1K := counter }, trace := s.trace ++ [.send cmd size flags (some ans.st)] }
end

