-- ==== Sys2Proof/Laws/Decode.lean ====
section
/-!
SUPPORT. The fields of a host operation word, and that the two decoding tables share no operation.
-/

namespace Sys2Proof.Laws

/-- A host operation word is its three fields (30_encoding R70). -/
theorem how_fields (w : U32) : w = howReserved w ++ howSel w ++ howOpc w := by
  unfold howReserved howSel howOpc
  rw [BitVec.extractLsb'_append_extractLsb'_eq_extractLsb' (by rfl),
    BitVec.extractLsb'_append_extractLsb'_eq_extractLsb' (by rfl)]
  simp

/-- The operation code as a number. -/
theorem howOpc_toNat (w : U32) : (howOpc w).toNat = w.toNat % 256 := by
  simp [howOpc, BitVec.extractLsb'_toNat]

/-- The selector as a number. -/
theorem howSel_toNat (w : U32) : (howSel w).toNat = w.toNat / 256 % 256 := by
  simp [howSel, BitVec.extractLsb'_toNat, Nat.shiftRight_eq_div_pow]

/-- The reserved bits as a number. -/
theorem howReserved_toNat (w : U32) : (howReserved w).toNat = w.toNat / 65536 := by
  have := w.isLt
  simp [howReserved, BitVec.extractLsb'_toNat, Nat.shiftRight_eq_div_pow]
  omega

/-- Is the operation an INSPECT (30_encoding R71)? -/
def isInspect : Instr → Bool
  | .inspectEncState | .inspectSchedValid | .inspectHwSeed | .inspectRawChipId | .inspectHdrGameCode => true
  | .inspectHdrKey1Timing | .inspectHdrKey2Timing | .inspectK2SeedByte => true
  | .inspectK1Key0 | .inspectK1Key1 | .inspectK1Key2 | .inspectK1Ij | .inspectK1K | .inspectK1L => true
  | .inspectK1Flags | .inspectK1Sched | .inspectK2Mn | .inspectK2Flags | .inspectK2ChipId => true
  | .inspectK2X | .inspectK2Y => true
  | _ => false

/-- The selector table holds INSPECT operations only. -/
theorem selectorRow_inspects (sel : U8) (i : Instr) (h : selectorRow sel = some i) : isInspect i = true := by
  unfold selectorRow at h
  split at h <;> first | (cases h; done) | (cases h; rfl)

/-- The operation table holds no INSPECT operation. -/
theorem opcodeRow_inspects (opc : U8) (i : Instr) (h : opcodeRow opc = some i) : isInspect i = false := by
  unfold opcodeRow at h
  split at h <;> first | (cases h; done) | (cases h; rfl)

end Sys2Proof.Laws
end

