-- ==== Sys2Proof/Laws/Memory.lean ====
section
/-!
SUPPORT. The byte buffers: every operation keeps the canonical form, and what each reads back.
-/

namespace Sys2Proof.Laws

open Sys2Proof.Machine

/-- The canonical form, as a property of the list. -/
theorem wf_iff (m : Memory) :
    Memory.wf m = true ↔ m.Pairwise (fun c d => c.1 < d.1) ∧ ∀ c ∈ m, c.2 ≠ Memory.unlisted := by
  induction m with
  | nil => simp [Memory.wf]
  | cons c m ih =>
    cases m with
    | nil => simp [Memory.wf]
    | cons d m =>
      simp only [Memory.wf, Bool.and_eq_true, bne_iff_ne, ne_eq, decide_eq_true_eq, ih, List.pairwise_cons,
        List.mem_cons, forall_eq_or_imp]
      constructor
      · rintro ⟨⟨hc, hcd⟩, ⟨hd, hm⟩, hz⟩
        exact ⟨⟨⟨hcd, fun x hx => lt_trans hcd (hd x hx)⟩, hd, hm⟩, hc, hz⟩
      · rintro ⟨⟨⟨hcd, -⟩, hd, hm⟩, hc, hz⟩
        exact ⟨⟨hc, hcd⟩, ⟨hd, hm⟩, hz⟩

theorem wf_filter (m : Memory) (p : Host.Cell → Bool) (h : Memory.wf m = true) : Memory.wf (m.filter p) = true := by
  rw [wf_iff] at *
  exact ⟨h.1.filter p, fun c hc => h.2 c (List.mem_filter.1 hc).1⟩

/-- An answer cut to its size stays canonical. -/
theorem restrict_wf (m : Memory) (n : Nat) (h : Memory.wf m = true) : Memory.wf (Memory.restrict m n) = true :=
  wf_filter m _ h

/-- A block write keeps the canonical form. -/
theorem memWrite_wf (m src : Memory) (off n : Nat) (hm : Memory.wf m = true) (hs : Memory.wf src = true) :
    Memory.wf (Memory.memWrite m off n src) = true := by
  have hr := restrict_wf src n hs
  rw [wf_iff] at *
  simp only [Memory.memWrite, List.pairwise_append, List.mem_append, List.mem_filter, List.mem_map,
    decide_eq_true_eq, List.pairwise_map]
  have hlt : ∀ c ∈ Memory.restrict src n, c.1 < n := by
    intro c hc
    simpa using (List.mem_filter.1 hc).2
  refine ⟨⟨⟨hm.1.filter _, hr.1.imp (by intro a b hab; simpa using hab), ?_⟩, hm.1.filter _, ?_⟩, ?_⟩
  · rintro a ⟨-, ha⟩ b ⟨c, hc, rfl⟩
    simp only
    omega
  · rintro a (⟨-, ha⟩ | ⟨c, hc, rfl⟩) b ⟨-, hb⟩
    · omega
    · have := hlt c hc
      simp only
      omega
  · rintro c ((⟨hc, -⟩ | ⟨d, hd, rfl⟩) | ⟨hc, -⟩)
    · exact hm.2 c hc
    · exact hr.2 d hd
    · exact hm.2 c hc

/-- A buffer given by a function is canonical. -/
theorem ofFn_wf (n : Nat) (f : Nat → U8) : Memory.wf (Memory.ofFn n f) = true := by
  rw [wf_iff]
  constructor
  · refine List.Pairwise.filterMap _ ?_ List.pairwise_lt_range
    intro a b hab c hc d hd
    split at hc <;> simp at hc
    split at hd <;> simp at hd
    subst hc hd
    exact hab
  · intro c hc
    obtain ⟨i, -, h⟩ := List.mem_filterMap.1 hc
    split at h <;> simp at h
    subst h
    assumption

/-- An offset that no cell has reads as unlisted. -/
theorem read_absent (m : Memory) (i : Nat) (h : ∀ c ∈ m, c.1 ≠ i) : Memory.read m i = Memory.unlisted := by
  induction m with
  | nil => rfl
  | cons c m ih =>
    have hc := h c (List.mem_cons_self ..)
    simp only [Memory.read, hc, if_false]
    exact ih fun d hd => h d (List.mem_cons_of_mem _ hd)

/-- Reading a filtered buffer at an offset the filter keeps. -/
theorem read_filter (m : Memory) (p : Nat → Bool) (i : Nat) :
    Memory.read (m.filter fun c => p c.1) i = if p i then Memory.read m i else Memory.unlisted := by
  induction m with
  | nil => simp [Memory.read]
  | cons c m ih =>
    by_cases hc : p c.1
    · by_cases hi : c.1 = i
      · subst hi; simp [hc, Memory.read]
      · simp [hc, Memory.read, hi, ih]
    · by_cases hi : c.1 = i
      · subst hi; simp only [hc, List.filter_cons, Memory.read]; simp [ih, hc]
      · simp [hc, Memory.read, hi, ih]

/-- The bytes of an answer of `n` bytes are the answer's own, inside it (60_exceptions R211). -/
theorem read_restrict (m : Memory) (n i : Nat) :
    Memory.read (Memory.restrict m n) i = if i < n then Memory.read m i else Memory.unlisted := by
  have h := read_filter m (fun j => decide (j < n)) i
  simp only [decide_eq_true_eq] at h
  exact h

theorem read_append_right (m m' : Memory) (i : Nat) (h : ∀ c ∈ m, c.1 ≠ i) :
    Memory.read (m ++ m') i = Memory.read m' i := by
  induction m with
  | nil => rfl
  | cons c m ih =>
    have hc := h c (List.mem_cons_self ..)
    simp only [List.cons_append, Memory.read, hc, if_false]
    exact ih fun d hd => h d (List.mem_cons_of_mem _ hd)

theorem read_append_left (m m' : Memory) (i : Nat) (h : ∀ c ∈ m', c.1 ≠ i) :
    Memory.read (m ++ m') i = Memory.read m i := by
  induction m with
  | nil => exact read_absent m' i h
  | cons c m ih =>
    simp only [List.cons_append, Memory.read, ih]

theorem read_shift (m : Memory) (off i : Nat) :
    Memory.read (m.map fun c => (off + c.1, c.2)) i = if off ≤ i then Memory.read m (i - off) else Memory.unlisted := by
  induction m with
  | nil => simp [Memory.read]
  | cons c m ih =>
    simp only [List.map_cons, Memory.read, ih]
    by_cases h1 : off ≤ i
    · have h2 : (off + c.1 = i) = (c.1 = i - off) := by
        apply propext; omega
      simp [h1, h2]
    · have h : off + c.1 ≠ i := by omega
      simp [h, h1]

/-- Read after a block write: inside the block the source's byte, outside it the byte from before (20_memory R51). -/
theorem read_memWrite (m src : Memory) (off n i : Nat) :
    Memory.read (Memory.memWrite m off n src) i
      = if off ≤ i ∧ i < off + n then Memory.read src (i - off) else Memory.read m i := by
  have hlow := read_filter m (fun j => decide (j < off)) i
  have hhigh := read_filter m (fun j => decide (off + n ≤ j)) i
  have hmid := read_shift (Memory.restrict src n) off i
  have hres := read_restrict src n (i - off)
  simp only [decide_eq_true_eq] at hlow hhigh
  have low_absent : ¬ i < off → ∀ c ∈ m.filter (fun c => decide (c.1 < off)), c.1 ≠ i := by
    intro h c hc; simp at hc; omega
  have mid_absent : ¬ (off ≤ i ∧ i < off + n) →
      ∀ c ∈ (Memory.restrict src n).map (fun c => (off + c.1, c.2)), c.1 ≠ i := by
    intro h c hc
    obtain ⟨d, hd, rfl⟩ := List.mem_map.1 hc
    have := (List.mem_filter.1 hd).2
    simp only [decide_eq_true_eq] at this
    simp only; omega
  have high_absent : ¬ off + n ≤ i → ∀ c ∈ m.filter (fun c => decide (off + n ≤ c.1)), c.1 ≠ i := by
    intro h c hc; simp at hc; omega
  simp only [Memory.memWrite]
  by_cases h1 : i < off
  · rw [if_neg (by omega), read_append_left _ _ _ (high_absent (by omega)),
      read_append_left _ _ _ (mid_absent (by omega)), hlow, if_pos h1]
  · by_cases h2 : i < off + n
    · rw [if_pos ⟨by omega, h2⟩, read_append_left _ _ _ (high_absent (by omega)),
        read_append_right _ _ _ (low_absent h1), hmid, if_pos (by omega), hres, if_pos (by omega)]
    · rw [if_neg (by omega), List.append_assoc, read_append_right _ _ _ (low_absent h1),
        read_append_right _ _ _ (mid_absent (by omega)), hhigh, if_pos (by omega)]

/-- The bytes of a buffer given by a function. -/
theorem read_ofFn (n : Nat) (f : Nat → U8) (i : Nat) :
    Memory.read (Memory.ofFn n f) i = if i < n then f i else Memory.unlisted := by
  induction n with
  | zero => simp [Memory.ofFn, Memory.read]
  | succ n ih =>
    have hsplit : Memory.ofFn (n + 1) f
        = Memory.ofFn n f ++ if f n = Memory.unlisted then [] else [(n, f n)] := by
      simp only [Memory.ofFn, List.range_succ, List.filterMap_append]
      by_cases h : f n = Memory.unlisted <;> simp [h]
    have hlt : ∀ c ∈ Memory.ofFn n f, c.1 < n := by
      intro c hc
      obtain ⟨j, hj, h⟩ := List.mem_filterMap.1 hc
      split at h <;> simp at h
      subst h
      simpa using hj
    rw [hsplit]
    by_cases hi : i = n
    · subst hi
      rw [read_append_right _ _ _ (fun c hc => (hlt c hc).ne)]
      by_cases hf : f i = Memory.unlisted <;> simp [hf, Memory.read]
    · rw [read_append_left, ih]
      · have : (i < n) = (i < n + 1) := by apply propext; omega
        simp only [this]
      · intro c hc
        split at hc <;> simp at hc
        subst hc
        exact fun h => hi h.symm

/-- Block reset's buffers hold no value, so the reset state's are canonical. -/
theorem reset_buffers : State.reset.hdrOut = none ∧ State.reset.secOut = none ∧ State.reset.answers = [] :=
  ⟨rfl, rfl, rfl⟩

end Sys2Proof.Laws
end

