-- ==== Sys2Proof/Laws/State.lean ====
section
/-!
SUPPORT. The record updates of the shared operations: one lemma for each field of each, so that no proof unfolds an update.
-/

namespace Sys2Proof.Laws

open Sys2Proof.Machine

/-! ### clearPorts -/

@[simp] theorem clearPorts_regs (s : State) : (clearPorts s).regs = s.regs := rfl
@[simp] theorem clearPorts_fault (s : State) : (clearPorts s).fault = s.fault := rfl
@[simp] theorem clearPorts_seq (s : State) : (clearPorts s).seq = s.seq := rfl
@[simp] theorem clearPorts_trace (s : State) : (clearPorts s).trace = s.trace := rfl
@[simp] theorem clearPorts_ports (s : State) : (clearPorts s).ports = s.ports := rfl
@[simp] theorem clearPorts_status (s : State) : (clearPorts s).status = none := rfl
@[simp] theorem clearPorts_res0 (s : State) : (clearPorts s).res0 = none := rfl
@[simp] theorem clearPorts_res1 (s : State) : (clearPorts s).res1 = none := rfl
@[simp] theorem clearPorts_chunk (s : State) : (clearPorts s).chunk = #v[none, none, none, none] := rfl
@[simp] theorem clearPorts_hdrOut (s : State) : (clearPorts s).hdrOut = none := rfl
@[simp] theorem clearPorts_secOut (s : State) : (clearPorts s).secOut = none := rfl
@[simp] theorem clearPorts_host (s : State) : (clearPorts s).host = s.host := rfl
@[simp] theorem clearPorts_answers (s : State) : (clearPorts s).answers = s.answers := rfl
@[simp] theorem clearPorts_freeCount (s : State) : (clearPorts s).freeCount = s.freeCount := rfl

/-! ### finish -/

@[simp] theorem finish_regs (s : State) (st : Status) : (finish s st).regs = s.regs := rfl
@[simp] theorem finish_fault (s : State) (st : Status) : (finish s st).fault = s.fault := rfl
@[simp] theorem finish_seq (s : State) (st : Status) : (finish s st).seq = .idle := rfl
@[simp] theorem finish_trace (s : State) (st : Status) : (finish s st).trace = s.trace := rfl
@[simp] theorem finish_ports (s : State) (st : Status) : (finish s st).ports = s.ports := rfl
@[simp] theorem finish_status (s : State) (st : Status) : (finish s st).status = some st := rfl
@[simp] theorem finish_res0 (s : State) (st : Status) : (finish s st).res0 = s.res0 := rfl
@[simp] theorem finish_res1 (s : State) (st : Status) : (finish s st).res1 = s.res1 := rfl
@[simp] theorem finish_chunk (s : State) (st : Status) : (finish s st).chunk = s.chunk := rfl
@[simp] theorem finish_hdrOut (s : State) (st : Status) : (finish s st).hdrOut = s.hdrOut := rfl
@[simp] theorem finish_secOut (s : State) (st : Status) : (finish s st).secOut = s.secOut := rfl
@[simp] theorem finish_host (s : State) (st : Status) : (finish s st).host = s.host := rfl
@[simp] theorem finish_answers (s : State) (st : Status) : (finish s st).answers = s.answers := rfl
@[simp] theorem finish_freeCount (s : State) (st : Status) : (finish s st).freeCount = s.freeCount := rfl

/-! ### returnOk -/

@[simp] theorem returnOk_regs (s : State) : (returnOk s).regs = s.regs := rfl
@[simp] theorem returnOk_fault (s : State) : (returnOk s).fault = s.fault := rfl
@[simp] theorem returnOk_seq (s : State) : (returnOk s).seq = .idle := rfl
@[simp] theorem returnOk_trace (s : State) : (returnOk s).trace = s.trace := rfl
@[simp] theorem returnOk_ports (s : State) : (returnOk s).ports = s.ports := rfl
@[simp] theorem returnOk_status (s : State) : (returnOk s).status = some okStatus := rfl
@[simp] theorem returnOk_res0 (s : State) : (returnOk s).res0 = s.res0 := rfl
@[simp] theorem returnOk_res1 (s : State) : (returnOk s).res1 = s.res1 := rfl
@[simp] theorem returnOk_chunk (s : State) : (returnOk s).chunk = s.chunk := rfl
@[simp] theorem returnOk_hdrOut (s : State) : (returnOk s).hdrOut = s.hdrOut := rfl
@[simp] theorem returnOk_secOut (s : State) : (returnOk s).secOut = s.secOut := rfl
@[simp] theorem returnOk_host (s : State) : (returnOk s).host = s.host := rfl
@[simp] theorem returnOk_answers (s : State) : (returnOk s).answers = s.answers := rfl
@[simp] theorem returnOk_freeCount (s : State) : (returnOk s).freeCount = s.freeCount := rfl

/-! ### returnRes0 -/

@[simp] theorem returnRes0_regs (s : State) (v : U64) : (returnRes0 s v).regs = s.regs := rfl
@[simp] theorem returnRes0_fault (s : State) (v : U64) : (returnRes0 s v).fault = s.fault := rfl
@[simp] theorem returnRes0_seq (s : State) (v : U64) : (returnRes0 s v).seq = .idle := rfl
@[simp] theorem returnRes0_trace (s : State) (v : U64) : (returnRes0 s v).trace = s.trace := rfl
@[simp] theorem returnRes0_ports (s : State) (v : U64) : (returnRes0 s v).ports = s.ports := rfl
@[simp] theorem returnRes0_status (s : State) (v : U64) : (returnRes0 s v).status = some okStatus := rfl
@[simp] theorem returnRes0_res0 (s : State) (v : U64) : (returnRes0 s v).res0 = some v := rfl
@[simp] theorem returnRes0_res1 (s : State) (v : U64) : (returnRes0 s v).res1 = s.res1 := rfl
@[simp] theorem returnRes0_chunk (s : State) (v : U64) : (returnRes0 s v).chunk = s.chunk := rfl
@[simp] theorem returnRes0_hdrOut (s : State) (v : U64) : (returnRes0 s v).hdrOut = s.hdrOut := rfl
@[simp] theorem returnRes0_secOut (s : State) (v : U64) : (returnRes0 s v).secOut = s.secOut := rfl
@[simp] theorem returnRes0_host (s : State) (v : U64) : (returnRes0 s v).host = s.host := rfl
@[simp] theorem returnRes0_answers (s : State) (v : U64) : (returnRes0 s v).answers = s.answers := rfl
@[simp] theorem returnRes0_freeCount (s : State) (v : U64) : (returnRes0 s v).freeCount = s.freeCount := rfl

/-! ### returnRes01 -/

@[simp] theorem returnRes01_regs (s : State) (v v' : U64) : (returnRes01 s v v').regs = s.regs := rfl
@[simp] theorem returnRes01_fault (s : State) (v v' : U64) : (returnRes01 s v v').fault = s.fault := rfl
@[simp] theorem returnRes01_seq (s : State) (v v' : U64) : (returnRes01 s v v').seq = .idle := rfl
@[simp] theorem returnRes01_trace (s : State) (v v' : U64) : (returnRes01 s v v').trace = s.trace := rfl
@[simp] theorem returnRes01_ports (s : State) (v v' : U64) : (returnRes01 s v v').ports = s.ports := rfl
@[simp] theorem returnRes01_status (s : State) (v v' : U64) : (returnRes01 s v v').status = some okStatus := rfl
@[simp] theorem returnRes01_res0 (s : State) (v v' : U64) : (returnRes01 s v v').res0 = some v := rfl
@[simp] theorem returnRes01_res1 (s : State) (v v' : U64) : (returnRes01 s v v').res1 = some v' := rfl
@[simp] theorem returnRes01_chunk (s : State) (v v' : U64) : (returnRes01 s v v').chunk = s.chunk := rfl
@[simp] theorem returnRes01_hdrOut (s : State) (v v' : U64) : (returnRes01 s v v').hdrOut = s.hdrOut := rfl
@[simp] theorem returnRes01_secOut (s : State) (v v' : U64) : (returnRes01 s v v').secOut = s.secOut := rfl
@[simp] theorem returnRes01_host (s : State) (v v' : U64) : (returnRes01 s v v').host = s.host := rfl
@[simp] theorem returnRes01_answers (s : State) (v v' : U64) : (returnRes01 s v v').answers = s.answers := rfl
@[simp] theorem returnRes01_freeCount (s : State) (v v' : U64) : (returnRes01 s v v').freeCount = s.freeCount := rfl

/-! ### returnErr -/

@[simp] theorem returnErr_regs (s : State) (k : ErrorKind) : (returnErr s k).regs = s.regs := rfl
@[simp] theorem returnErr_fault (s : State) (k : ErrorKind) : (returnErr s k).fault = s.fault := rfl
@[simp] theorem returnErr_seq (s : State) (k : ErrorKind) : (returnErr s k).seq = .idle := rfl
@[simp] theorem returnErr_trace (s : State) (k : ErrorKind) : (returnErr s k).trace = s.trace := rfl
@[simp] theorem returnErr_ports (s : State) (k : ErrorKind) : (returnErr s k).ports = s.ports := rfl
@[simp] theorem returnErr_status (s : State) (k : ErrorKind) : (returnErr s k).status = some (errStatus k) := rfl
@[simp] theorem returnErr_res0 (s : State) (k : ErrorKind) : (returnErr s k).res0 = s.res0 := rfl
@[simp] theorem returnErr_res1 (s : State) (k : ErrorKind) : (returnErr s k).res1 = s.res1 := rfl
@[simp] theorem returnErr_chunk (s : State) (k : ErrorKind) : (returnErr s k).chunk = s.chunk := rfl
@[simp] theorem returnErr_hdrOut (s : State) (k : ErrorKind) : (returnErr s k).hdrOut = s.hdrOut := rfl
@[simp] theorem returnErr_secOut (s : State) (k : ErrorKind) : (returnErr s k).secOut = s.secOut := rfl
@[simp] theorem returnErr_host (s : State) (k : ErrorKind) : (returnErr s k).host = s.host := rfl
@[simp] theorem returnErr_answers (s : State) (k : ErrorKind) : (returnErr s k).answers = s.answers := rfl
@[simp] theorem returnErr_freeCount (s : State) (k : ErrorKind) : (returnErr s k).freeCount = s.freeCount := rfl

/-! ### raise -/

@[simp] theorem raise_regs (s : State) (f : FaultRecord) : (raise s f).regs = s.regs := rfl
@[simp] theorem raise_fault (s : State) (f : FaultRecord) : (raise s f).fault = some f := rfl
@[simp] theorem raise_seq (s : State) (f : FaultRecord) : (raise s f).seq = .idle := rfl
@[simp] theorem raise_trace (s : State) (f : FaultRecord) : (raise s f).trace = s.trace := rfl
@[simp] theorem raise_ports (s : State) (f : FaultRecord) : (raise s f).ports = s.ports := rfl
@[simp] theorem raise_status (s : State) (f : FaultRecord) : (raise s f).status = some (faultStatus f) := rfl
@[simp] theorem raise_res0 (s : State) (f : FaultRecord) : (raise s f).res0 = none := rfl
@[simp] theorem raise_res1 (s : State) (f : FaultRecord) : (raise s f).res1 = none := rfl
@[simp] theorem raise_chunk (s : State) (f : FaultRecord) : (raise s f).chunk = #v[none, none, none, none] := rfl
@[simp] theorem raise_hdrOut (s : State) (f : FaultRecord) : (raise s f).hdrOut = none := rfl
@[simp] theorem raise_secOut (s : State) (f : FaultRecord) : (raise s f).secOut = none := rfl
@[simp] theorem raise_host (s : State) (f : FaultRecord) : (raise s f).host = s.host := rfl
@[simp] theorem raise_answers (s : State) (f : FaultRecord) : (raise s f).answers = s.answers := rfl
@[simp] theorem raise_freeCount (s : State) (f : FaultRecord) : (raise s f).freeCount = s.freeCount := rfl

/-! ### refuseLatched -/

@[simp] theorem refuseLatched_regs (s : State) (f : FaultRecord) : (refuseLatched s f).regs = s.regs := rfl
@[simp] theorem refuseLatched_fault (s : State) (f : FaultRecord) : (refuseLatched s f).fault = s.fault := rfl
@[simp] theorem refuseLatched_seq (s : State) (f : FaultRecord) : (refuseLatched s f).seq = s.seq := rfl
@[simp] theorem refuseLatched_trace (s : State) (f : FaultRecord) : (refuseLatched s f).trace = s.trace := rfl
@[simp] theorem refuseLatched_ports (s : State) (f : FaultRecord) : (refuseLatched s f).ports = s.ports := rfl
@[simp] theorem refuseLatched_status (s : State) (f : FaultRecord) : (refuseLatched s f).status = some (faultStatus f) := rfl
@[simp] theorem refuseLatched_res0 (s : State) (f : FaultRecord) : (refuseLatched s f).res0 = none := rfl
@[simp] theorem refuseLatched_res1 (s : State) (f : FaultRecord) : (refuseLatched s f).res1 = none := rfl
@[simp] theorem refuseLatched_chunk (s : State) (f : FaultRecord) : (refuseLatched s f).chunk = #v[none, none, none, none] := rfl
@[simp] theorem refuseLatched_hdrOut (s : State) (f : FaultRecord) : (refuseLatched s f).hdrOut = none := rfl
@[simp] theorem refuseLatched_secOut (s : State) (f : FaultRecord) : (refuseLatched s f).secOut = none := rfl
@[simp] theorem refuseLatched_host (s : State) (f : FaultRecord) : (refuseLatched s f).host = s.host := rfl
@[simp] theorem refuseLatched_answers (s : State) (f : FaultRecord) : (refuseLatched s f).answers = s.answers := rfl
@[simp] theorem refuseLatched_freeCount (s : State) (f : FaultRecord) : (refuseLatched s f).freeCount = s.freeCount := rfl

/-! ### commit -/

@[simp] theorem commit_regs (s : State) (w : Work) : (commit s w).regs = w.regs := rfl
@[simp] theorem commit_fault (s : State) (w : Work) : (commit s w).fault = s.fault := rfl
@[simp] theorem commit_seq (s : State) (w : Work) : (commit s w).seq = s.seq := rfl
@[simp] theorem commit_trace (s : State) (w : Work) : (commit s w).trace = s.trace := rfl
@[simp] theorem commit_ports (s : State) (w : Work) : (commit s w).ports = s.ports := rfl
@[simp] theorem commit_status (s : State) (w : Work) : (commit s w).status = s.status := rfl
@[simp] theorem commit_res0 (s : State) (w : Work) : (commit s w).res0 = s.res0 := rfl
@[simp] theorem commit_res1 (s : State) (w : Work) : (commit s w).res1 = s.res1 := rfl
@[simp] theorem commit_chunk (s : State) (w : Work) : (commit s w).chunk = s.chunk := rfl
@[simp] theorem commit_hdrOut (s : State) (w : Work) : (commit s w).hdrOut = s.hdrOut := rfl
@[simp] theorem commit_secOut (s : State) (w : Work) : (commit s w).secOut = s.secOut := rfl
@[simp] theorem commit_host (s : State) (w : Work) : (commit s w).host = s.host := rfl
@[simp] theorem commit_answers (s : State) (w : Work) : (commit s w).answers = s.answers := rfl
@[simp] theorem commit_freeCount (s : State) (w : Work) : (commit s w).freeCount = s.freeCount := rfl

/-! ### abort -/

@[simp] theorem abort_regs (s : State) (w : Work) (stage : U8) (e : U32) : (abort s w stage e).regs = { s.regs with k1K := if w.kused then w.regs.k1K else s.regs.k1K } := rfl
@[simp] theorem abort_fault (s : State) (w : Work) (stage : U8) (e : U32) : (abort s w stage e).fault = s.fault := rfl
@[simp] theorem abort_seq (s : State) (w : Work) (stage : U8) (e : U32) : (abort s w stage e).seq = .idle := rfl
@[simp] theorem abort_trace (s : State) (w : Work) (stage : U8) (e : U32) : (abort s w stage e).trace = s.trace := rfl
@[simp] theorem abort_ports (s : State) (w : Work) (stage : U8) (e : U32) : (abort s w stage e).ports = s.ports := rfl
@[simp] theorem abort_status (s : State) (w : Work) (stage : U8) (e : U32) : (abort s w stage e).status = some (ioStatus stage e) := rfl
@[simp] theorem abort_res0 (s : State) (w : Work) (stage : U8) (e : U32) : (abort s w stage e).res0 = s.res0 := rfl
@[simp] theorem abort_res1 (s : State) (w : Work) (stage : U8) (e : U32) : (abort s w stage e).res1 = s.res1 := rfl
@[simp] theorem abort_chunk (s : State) (w : Work) (stage : U8) (e : U32) : (abort s w stage e).chunk = s.chunk := rfl
@[simp] theorem abort_hdrOut (s : State) (w : Work) (stage : U8) (e : U32) : (abort s w stage e).hdrOut = s.hdrOut := rfl
@[simp] theorem abort_secOut (s : State) (w : Work) (stage : U8) (e : U32) : (abort s w stage e).secOut = s.secOut := rfl
@[simp] theorem abort_host (s : State) (w : Work) (stage : U8) (e : U32) : (abort s w stage e).host = s.host := rfl
@[simp] theorem abort_answers (s : State) (w : Work) (stage : U8) (e : U32) : (abort s w stage e).answers = s.answers := rfl
@[simp] theorem abort_freeCount (s : State) (w : Work) (stage : U8) (e : U32) : (abort s w stage e).freeCount = s.freeCount := rfl

/-! ### record -/

@[simp] theorem record_regs (s : State) (e : Event) : (record s e).regs = s.regs := rfl
@[simp] theorem record_fault (s : State) (e : Event) : (record s e).fault = s.fault := rfl
@[simp] theorem record_seq (s : State) (e : Event) : (record s e).seq = s.seq := rfl
@[simp] theorem record_trace (s : State) (e : Event) : (record s e).trace = s.trace ++ [e] := rfl
@[simp] theorem record_ports (s : State) (e : Event) : (record s e).ports = s.ports := rfl
@[simp] theorem record_status (s : State) (e : Event) : (record s e).status = s.status := rfl
@[simp] theorem record_res0 (s : State) (e : Event) : (record s e).res0 = s.res0 := rfl
@[simp] theorem record_res1 (s : State) (e : Event) : (record s e).res1 = s.res1 := rfl
@[simp] theorem record_chunk (s : State) (e : Event) : (record s e).chunk = s.chunk := rfl
@[simp] theorem record_hdrOut (s : State) (e : Event) : (record s e).hdrOut = s.hdrOut := rfl
@[simp] theorem record_secOut (s : State) (e : Event) : (record s e).secOut = s.secOut := rfl
@[simp] theorem record_host (s : State) (e : Event) : (record s e).host = s.host := rfl
@[simp] theorem record_answers (s : State) (e : Event) : (record s e).answers = s.answers := rfl
@[simp] theorem record_freeCount (s : State) (e : Event) : (record s e).freeCount = s.freeCount := rfl

/-! ### advance -/

@[simp] theorem advance_regs (s : State) (p : Position) (w : Work) : (advance s p w).regs = s.regs := rfl
@[simp] theorem advance_fault (s : State) (p : Position) (w : Work) : (advance s p w).fault = s.fault := rfl
@[simp] theorem advance_seq (s : State) (p : Position) (w : Work) : (advance s p w).seq = .run p w := rfl
@[simp] theorem advance_trace (s : State) (p : Position) (w : Work) : (advance s p w).trace = s.trace := rfl
@[simp] theorem advance_ports (s : State) (p : Position) (w : Work) : (advance s p w).ports = s.ports := rfl
@[simp] theorem advance_status (s : State) (p : Position) (w : Work) : (advance s p w).status = s.status := rfl
@[simp] theorem advance_res0 (s : State) (p : Position) (w : Work) : (advance s p w).res0 = s.res0 := rfl
@[simp] theorem advance_res1 (s : State) (p : Position) (w : Work) : (advance s p w).res1 = s.res1 := rfl
@[simp] theorem advance_chunk (s : State) (p : Position) (w : Work) : (advance s p w).chunk = s.chunk := rfl
@[simp] theorem advance_hdrOut (s : State) (p : Position) (w : Work) : (advance s p w).hdrOut = s.hdrOut := rfl
@[simp] theorem advance_secOut (s : State) (p : Position) (w : Work) : (advance s p w).secOut = s.secOut := rfl
@[simp] theorem advance_host (s : State) (p : Position) (w : Work) : (advance s p w).host = s.host := rfl
@[simp] theorem advance_answers (s : State) (p : Position) (w : Work) : (advance s p w).answers = s.answers := rfl
@[simp] theorem advance_freeCount (s : State) (p : Position) (w : Work) : (advance s p w).freeCount = s.freeCount := rfl

/-! ### request -/

@[simp] theorem request_regs (s : State) (p : Position) (w : Work) (e : Event) : (request s p w e).regs = s.regs := rfl
@[simp] theorem request_fault (s : State) (p : Position) (w : Work) (e : Event) : (request s p w e).fault = s.fault := rfl
@[simp] theorem request_seq (s : State) (p : Position) (w : Work) (e : Event) : (request s p w e).seq = .wait p w := rfl
@[simp] theorem request_trace (s : State) (p : Position) (w : Work) (e : Event) : (request s p w e).trace = s.trace ++ [e] := rfl
@[simp] theorem request_ports (s : State) (p : Position) (w : Work) (e : Event) : (request s p w e).ports = s.ports := rfl
@[simp] theorem request_status (s : State) (p : Position) (w : Work) (e : Event) : (request s p w e).status = s.status := rfl
@[simp] theorem request_res0 (s : State) (p : Position) (w : Work) (e : Event) : (request s p w e).res0 = s.res0 := rfl
@[simp] theorem request_res1 (s : State) (p : Position) (w : Work) (e : Event) : (request s p w e).res1 = s.res1 := rfl
@[simp] theorem request_chunk (s : State) (p : Position) (w : Work) (e : Event) : (request s p w e).chunk = s.chunk := rfl
@[simp] theorem request_hdrOut (s : State) (p : Position) (w : Work) (e : Event) : (request s p w e).hdrOut = s.hdrOut := rfl
@[simp] theorem request_secOut (s : State) (p : Position) (w : Work) (e : Event) : (request s p w e).secOut = s.secOut := rfl
@[simp] theorem request_host (s : State) (p : Position) (w : Work) (e : Event) : (request s p w e).host = s.host := rfl
@[simp] theorem request_answers (s : State) (p : Position) (w : Work) (e : Event) : (request s p w e).answers = s.answers := rfl
@[simp] theorem request_freeCount (s : State) (p : Position) (w : Work) (e : Event) : (request s p w e).freeCount = s.freeCount := rfl

/-! ### blockReset -/

@[simp] theorem blockReset_regs (s : State) : (blockReset s).regs = Regs.reset := rfl
@[simp] theorem blockReset_fault (s : State) : (blockReset s).fault = none := rfl
@[simp] theorem blockReset_seq (s : State) : (blockReset s).seq = .idle := rfl
@[simp] theorem blockReset_trace (s : State) : (blockReset s).trace = [] := rfl
@[simp] theorem blockReset_ports (s : State) : (blockReset s).ports = s.ports := rfl
@[simp] theorem blockReset_status (s : State) : (blockReset s).status = none := rfl
@[simp] theorem blockReset_res0 (s : State) : (blockReset s).res0 = none := rfl
@[simp] theorem blockReset_res1 (s : State) : (blockReset s).res1 = none := rfl
@[simp] theorem blockReset_chunk (s : State) : (blockReset s).chunk = #v[none, none, none, none] := rfl
@[simp] theorem blockReset_hdrOut (s : State) : (blockReset s).hdrOut = none := rfl
@[simp] theorem blockReset_secOut (s : State) : (blockReset s).secOut = none := rfl
@[simp] theorem blockReset_host (s : State) : (blockReset s).host = s.host := rfl
@[simp] theorem blockReset_answers (s : State) : (blockReset s).answers = s.answers := rfl
@[simp] theorem blockReset_freeCount (s : State) : (blockReset s).freeCount = s.freeCount := rfl

end Sys2Proof.Laws
end

