-- ==== Sys2Proof/Laws/Ops.lean ====
section
/-!
SUPPORT. What each shared operation can do, once: the provers cite these instead of unfolding the operations.
-/

namespace Sys2Proof.Laws

open Sys2Proof.Machine

/-! ## Accepting a host operation -/

/-- An idle engine without a fault runs the operation's body on cleared ports. -/
theorem hostOp_runs {s : State} (body : State → State) (hs : s.seq = .idle) (hf : s.fault = none) :
    hostOp s body = .next (body (clearPorts s)) := by
  simp [hostOp, hs, hf]

/-- An idle engine under a latched fault answers with it. -/
theorem hostOp_latched {s : State} {f : FaultRecord} (body : State → State) (hs : s.seq = .idle)
    (hf : s.fault = some f) : hostOp s body = .next (refuseLatched s f) := by
  simp [hostOp, hs, hf]

/-- A running engine refuses a host operation. -/
theorem hostOp_busy {s : State} {p : Position} {w : Work} (body : State → State)
    (hs : s.seq = .run p w ∨ s.seq = .wait p w) : hostOp s body = .refused .engineBusy := by
  rcases hs with hs | hs <;> simp [hostOp, hs]

/-- Everything a host operation can do. -/
theorem hostOp_cases (s : State) (body : State → State) :
    ((∃ p w, s.seq = .run p w ∨ s.seq = .wait p w) ∧ hostOp s body = .refused .engineBusy)
      ∨ (∃ f, s.seq = .idle ∧ s.fault = some f ∧ hostOp s body = .next (refuseLatched s f))
      ∨ (s.seq = .idle ∧ s.fault = none ∧ hostOp s body = .next (body (clearPorts s))) := by
  cases hs : s.seq with
  | run p w => exact .inl ⟨⟨p, w, .inl rfl⟩, hostOp_busy body (.inl hs)⟩
  | wait p w => exact .inl ⟨⟨p, w, .inr rfl⟩, hostOp_busy body (.inr hs)⟩
  | idle =>
    cases hf : s.fault with
    | some f => exact .inr (.inl ⟨f, rfl, rfl, hostOp_latched body hs hf⟩)
    | none => exact .inr (.inr ⟨rfl, rfl, hostOp_runs body hs hf⟩)

/-- A host operation that answers with a next state ran its body or met a latched fault. -/
theorem hostOp_next {s t : State} {body : State → State} (h : hostOp s body = .next t) :
    s.seq = .idle ∧ ((∃ f, s.fault = some f ∧ t = refuseLatched s f)
      ∨ (s.fault = none ∧ t = body (clearPorts s))) := by
  rcases hostOp_cases s body with ⟨-, h'⟩ | ⟨f, hs, hf, h'⟩ | ⟨hs, hf, h'⟩
  · rw [h'] at h; cases h
  · rw [h'] at h; cases h; exact ⟨hs, .inl ⟨f, hf, rfl⟩⟩
  · rw [h'] at h; cases h; exact ⟨hs, .inr ⟨hf, rfl⟩⟩

theorem requireState_holds {s : State} {e : EncState} (body : State → State) (h : s.regs.encState = e) :
    requireState s e body = body s := by
  simp [requireState, h]

theorem requireState_fails {s : State} {e : EncState} (body : State → State) (h : s.regs.encState ≠ e) :
    requireState s e body = returnErr s .invalidStateTransition := by
  simp [requireState, h]

/-! ## Reading a register -/

@[simp] theorem readReg_some {α : Type} (s : State) (r : RegName) (x : α) (k : α → State) :
    readReg s r (some x) k = k x := rfl

@[simp] theorem readReg_none {α : Type} (s : State) (r : RegName) (k : α → State) :
    readReg s r none k = raiseUnwritten s r := rfl

/-- Reading a register gives its value to the rest, or takes the fault UNWRITTEN_READ (10_state R23). -/
theorem readReg_cases {α : Type} (s : State) (r : RegName) (v : Option α) (k : α → State) :
    (∃ x, v = some x ∧ readReg s r v k = k x) ∨ (v = none ∧ readReg s r v k = raiseUnwritten s r) := by
  cases v with
  | some x => exact .inl ⟨x, rfl, rfl⟩
  | none => exact .inr ⟨rfl, rfl⟩

/-- A property of reading a register: it holds of the fault, and of the rest with the value. -/
theorem readReg_elim {α : Type} {s : State} {r : RegName} {v : Option α} {k : α → State} (P : State → Prop)
    (hn : v = none → P (raiseUnwritten s r)) (hs : ∀ x, v = some x → P (k x)) : P (readReg s r v k) := by
  cases v with
  | some x => exact hs x rfl
  | none => exact hn rfl

/-! ## Platform requests -/

@[simp] theorem settle_singleton (e : Event) (st : U32) : settle [e] st = [e.answered st] := rfl

@[simp] theorem settle_cons_cons (e e' : Event) (l : List Event) (st : U32) :
    settle (e :: e' :: l) st = e :: settle (e' :: l) st := rfl

/-- The events before an appended list stay as they are. -/
@[simp] theorem settle_append_cons (l : List Event) (e : Event) (l' : List Event) (st : U32) :
    settle (l ++ e :: l') st = l ++ settle (e :: l') st := by
  induction l with
  | nil => rfl
  | cons x l ih =>
    cases l with
    | nil => rfl
    | cons y l => simpa [settle] using ih

@[simp] theorem answered_reset (st : U32) : (Event.reset none).answered st = .reset (some st) := rfl

@[simp] theorem answered_send (cmd : U64) (size flags st : U32) :
    (Event.send cmd size flags none).answered st = .send cmd size flags (some st) := rfl

/-- An event with no status to come stays as it is. -/
theorem answered_settled {e : Event} (st : U32) (h : e.pending = false) : e.answered st = e := by
  cases e with
  | reset o => cases o <;> first | rfl | cases h
  | send c z f o => cases o <;> first | rfl | cases h
  | delay n => rfl
  | seed x y => rfl

@[simp] theorem pending_answered (e : Event) (st : U32) : (e.answered st).pending = false := by
  cases e with
  | reset o => cases o <;> rfl
  | send c z f o => cases o <;> rfl
  | delay n => rfl
  | seed x y => rfl

theorem onAnswer_waits {s : State} (k : State → Answer → State) (h : s.answers = []) : onAnswer s k = s := by
  simp [onAnswer, h]

theorem onAnswer_silent {s : State} {rest : List (Option Answer)} (k : State → Answer → State)
    (h : s.answers = none :: rest) : onAnswer s k = { s with answers := rest } := by
  simp [onAnswer, h]

theorem onAnswer_answered {s : State} {a : Answer} {rest : List (Option Answer)} (k : State → Answer → State)
    (h : s.answers = some a :: rest) :
    onAnswer s k = k { s with answers := rest, trace := settle s.trace a.st } a := by
  simp [onAnswer, h]

/-- Everything an outstanding request can do (10_state R28, 60_exceptions R203). -/
theorem onAnswer_cases (s : State) (k : State → Answer → State) :
    (s.answers = [] ∧ onAnswer s k = s)
      ∨ (∃ rest, s.answers = none :: rest ∧ onAnswer s k = { s with answers := rest })
      ∨ ∃ a rest, s.answers = some a :: rest
          ∧ onAnswer s k = k { s with answers := rest, trace := settle s.trace a.st } a := by
  match h : s.answers with
  | [] => exact .inl ⟨rfl, onAnswer_waits k h⟩
  | none :: rest => exact .inr (.inl ⟨rest, rfl, onAnswer_silent k h⟩)
  | some a :: rest => exact .inr (.inr ⟨a, rest, rfl, onAnswer_answered k h⟩)

/-- A property of an outstanding request: it holds while the platform does not answer, and of the rest with the answer. -/
theorem onAnswer_elim {s : State} {k : State → Answer → State} (P : State → Prop) (hw : P s)
    (hn : ∀ rest, s.answers = none :: rest → P { s with answers := rest })
    (ha : ∀ a rest, s.answers = some a :: rest → P (k { s with answers := rest, trace := settle s.trace a.st } a)) :
    P (onAnswer s k) := by
  rcases onAnswer_cases s k with ⟨-, h⟩ | ⟨rest, hr, h⟩ | ⟨a, rest, hr, h⟩ <;> rw [h]
  · exact hw
  · exact hn rest hr
  · exact ha a rest hr

/-- A good answer of a `call`: its bytes are delivered and the next step comes (43_state_machine R162). -/
theorem callAnswer_succeeds {s : State} {a : Answer} {rest : List (Option Answer)} (w : Work) (stage : U8) (size : U32)
    (d : Dest) (next : Position) (h : s.answers = some a :: rest) (hok : isError a.st = false) :
    callAnswer s w stage size d next
      = advance { s with answers := rest, trace := settle s.trace a.st } next
          (deliver w d (Memory.restrict a.bytes size.toNat)) := by
  simp [callAnswer, onAnswer_answered _ h, hok]

/-- A failing answer of a `call`: the operation aborts at this stage (43_state_machine R162). -/
theorem callAnswer_fails {s : State} {a : Answer} {rest : List (Option Answer)} (w : Work) (stage : U8) (size : U32)
    (d : Dest) (next : Position) (h : s.answers = some a :: rest) (herr : isError a.st = true) :
    callAnswer s w stage size d next
      = abort { s with answers := rest, trace := settle s.trace a.st } w stage a.st := by
  simp [callAnswer, onAnswer_answered _ h, herr]

/-- Everything the answer of a `call` can do. -/
theorem callAnswer_cases (s : State) (w : Work) (stage : U8) (size : U32) (d : Dest) (next : Position) :
    (s.answers = [] ∧ callAnswer s w stage size d next = s)
      ∨ (∃ rest, s.answers = none :: rest ∧ callAnswer s w stage size d next = { s with answers := rest })
      ∨ (∃ a rest, s.answers = some a :: rest ∧ isError a.st = true
          ∧ callAnswer s w stage size d next
            = abort { s with answers := rest, trace := settle s.trace a.st } w stage a.st)
      ∨ (∃ a rest, s.answers = some a :: rest ∧ isError a.st = false
          ∧ callAnswer s w stage size d next
            = advance { s with answers := rest, trace := settle s.trace a.st } next
                (deliver w d (Memory.restrict a.bytes size.toNat))) := by
  match h : s.answers with
  | [] => exact .inl ⟨rfl, onAnswer_waits _ h⟩
  | none :: rest => exact .inr (.inl ⟨rest, rfl, onAnswer_silent _ h⟩)
  | some a :: rest =>
    cases he : isError a.st with
    | true => exact .inr (.inr (.inl ⟨a, rest, rfl, he, callAnswer_fails _ _ _ _ _ h he⟩))
    | false => exact .inr (.inr (.inr ⟨a, rest, rfl, he, callAnswer_succeeds _ _ _ _ _ h he⟩))

/-- A property of the answer of a `call`: it holds while the platform does not answer, of the abort, and of the next step. -/
theorem callAnswer_elim {s : State} {w : Work} {stage : U8} {size : U32} {d : Dest} {next : Position}
    (P : State → Prop) (hw : P s) (hn : ∀ rest, s.answers = none :: rest → P { s with answers := rest })
    (he : ∀ a rest, s.answers = some a :: rest → isError a.st = true →
      P (abort { s with answers := rest, trace := settle s.trace a.st } w stage a.st))
    (ha : ∀ a rest, s.answers = some a :: rest → isError a.st = false →
      P (advance { s with answers := rest, trace := settle s.trace a.st } next
        (deliver w d (Memory.restrict a.bytes size.toNat)))) : P (callAnswer s w stage size d next) := by
  rcases callAnswer_cases s w stage size d next with ⟨-, h⟩ | ⟨rest, hr, h⟩ | ⟨a, rest, hr, hb, h⟩
    | ⟨a, rest, hr, hb, h⟩ <;> rw [h]
  · exact hw
  · exact hn rest hr
  · exact he a rest hr hb
  · exact ha a rest hr hb

/-- The answer to a delay or a seed: the next step comes (60_exceptions R212, R213). -/
theorem onReturn_answered {s : State} {a : Answer} {rest : List (Option Answer)} (w : Work) (next : Position)
    (h : s.answers = some a :: rest) :
    onReturn s w next = advance { s with answers := rest, trace := settle s.trace a.st } next w :=
  onAnswer_answered _ h

/-- A property of the answer to a delay or a seed: it holds while the platform does not answer, and of the next step. -/
theorem onReturn_elim {s : State} {w : Work} {next : Position} (P : State → Prop) (hw : P s)
    (hn : ∀ rest, s.answers = none :: rest → P { s with answers := rest })
    (ha : ∀ a rest, s.answers = some a :: rest →
      P (advance { s with answers := rest, trace := settle s.trace a.st } next w)) : P (onReturn s w next) :=
  onAnswer_elim P hw hn ha

/-- A step that makes a request: the request is outstanding, and the answer is taken if it is there. -/
theorem exchange_requests {q : Exchange} {s : State} {w w' : Work} {p : Position} {e : Event}
    (h : q.1 s w = request s p w' e) : exchange q s w = q.2 (request s p w' e) w' := by
  simp [exchange, h]

/-- A step whose request cannot be made ends its operation. -/
theorem exchange_ends {q : Exchange} {s : State} {w : Work} (h : (q.1 s w).seq = .idle) : exchange q s w = q.1 s w := by
  simp [exchange, h]

/-! ## Running the sequencer -/

theorem seqStep_latched {s : State} {f : FaultRecord} (cfg : Cfg) (h : s.fault = some f) : seqStep cfg s = s := by
  simp [seqStep, h]

theorem seqStep_idle {s : State} (cfg : Cfg) (h : s.seq = .idle) : seqStep cfg s = s := by
  unfold seqStep
  cases s.fault <;> simp [h]

theorem seqStep_run {s : State} {p : Position} {w : Work} (cfg : Cfg) (hs : s.seq = .run p w) (hf : s.fault = none) :
    seqStep cfg s = runPosition cfg s w p := by
  simp [seqStep, hs, hf]

theorem seqStep_wait {s : State} {p : Position} {w : Work} (cfg : Cfg) (hs : s.seq = .wait p w) (hf : s.fault = none) :
    seqStep cfg s = answerPosition cfg s w p := by
  simp [seqStep, hs, hf]

/-- A step that makes a request runs its exchange. -/
theorem runPosition_exchange {cfg : Cfg} {p : Position} {q : Exchange} (s : State) (w : Work)
    (h : exchangeOf cfg p = some q) : runPosition cfg s w p = exchange q s w := by
  cases p <;> simp [exchangeOf] at h
  case begin1PlatformSeed => obtain ⟨hc, rfl⟩ := h; simp [runPosition, platformSeedStep, hc]
  all_goals subst h; rfl

/-- Where the platform does not seed in hardware, the step makes no request (42_keystream_seeder R151). -/
theorem platformSeedStep_software {cfg : Cfg} (s : State) (w : Work) (h : cfg.hwSeed = false) :
    platformSeedStep cfg s w = advance s .begin1Enable w := by
  simp [platformSeedStep, h]

/-- A sequencer that is IDLE runs no step. -/
theorem drive_idle (cfg : Cfg) (n : Nat) (s : State) (h : s.seq = .idle) : drive cfg n s = s := by
  induction n with
  | zero => rfl
  | succ n ih => rw [drive, seqStep_idle cfg h, ih]

theorem drive_succ (cfg : Cfg) (n : Nat) (s : State) : drive cfg (n + 1) s = drive cfg n (seqStep cfg s) := rfl

/-- A property that every step keeps is kept by a run of steps. -/
theorem drive_keeps (cfg : Cfg) (P : State → Prop) (h : ∀ s, P s → P (seqStep cfg s)) (n : Nat) (s : State) (hs : P s) :
    P (drive cfg n s) := by
  induction n generalizing s with
  | zero => exact hs
  | succ n ih => exact ih _ (h s hs)

/-- A step that comes next. -/
theorem drive_advance (cfg : Cfg) (n : Nat) (s : State) (p : Position) (w : Work) (h : s.fault = none) :
    drive cfg (n + 1) (advance s p w) = drive cfg n (runPosition cfg (advance s p w) w p) := by
  simp [drive, seqStep, h]

/-! ## Bus commands -/

/-- A bus command is one step of the sequencer at its request (10_state R28, 30_encoding R81). -/
theorem atRequest_seqStep {s : State} {p : Position} {w : Work} {q : Exchange} (h : exchangeOf Config.cfg p = some q)
    (hs : s.seq = .run p w ∨ s.seq = .wait p w) : atRequest s p q = .next (seqStep Config.cfg s) := by
  rcases hs with hs | hs <;> cases hf : s.fault <;>
    simp [atRequest, seqStep, unlessLatched, hs, hf, runPosition_exchange _ _ h, answerPosition, h]

/-- A bus command that answers with a next state stands at its request. -/
theorem atRequest_next {s t : State} {p : Position} {q : Exchange} (h : atRequest s p q = .next t) :
    ∃ w, (s.seq = .run p w ∧ t = unlessLatched s (exchange q s w))
      ∨ (s.seq = .wait p w ∧ t = unlessLatched s (q.2 s w)) := by
  unfold atRequest at h
  match hs : s.seq with
  | .idle => simp [hs] at h
  | .run p' w =>
    simp only [hs] at h
    split at h
    · cases h; subst p'; exact ⟨w, .inl ⟨rfl, rfl⟩⟩
    · cases h
  | .wait p' w =>
    simp only [hs] at h
    split at h
    · cases h; subst p'; exact ⟨w, .inr ⟨rfl, rfl⟩⟩
    · cases h

/-- The bus command of a step, where the sequencer stands at that step, is one step of the sequencer. -/
theorem exec_positionInstr {s : State} {p : Position} {w : Work} {i : Instr} (hi : positionInstr p = some i)
    (hs : s.seq = .run p w ∨ s.seq = .wait p w) : exec i s = .next (seqStep Config.cfg s) := by
  cases p <;> simp [positionInstr] at hi <;> subst hi
  case readsecRead j a n k20 =>
    have hj : currentChunk s = j := by rcases hs with hs | hs <;> simp [currentChunk, hs]
    simp only [exec, execBusSecureRead, hj]
    exact atRequest_seqStep rfl hs
  all_goals exact atRequest_seqStep rfl hs

/-! ## The schedule -/

/-- A schedule of the configured size is used as it is (log 11). -/
theorem schedVector_toList (n : Nat) (l : List U32) (h : l.length = n) : (schedVector n l).toList = l := by
  subst h
  simp [schedVector]

/-- What an application of the key returns has the configured size. -/
theorem applyKey_length (cfg : Cfg) (l : List U32) (key : Key) : (applyKey cfg l key).1.length = cfg.schedWords := by
  simp [applyKey]

end Sys2Proof.Laws
end

