-- ==== Sys2Proof/Laws/Sequencer.lean ====
section
/-!
SUPPORT. What the building blocks of the steps can do, once: enabling the sub-flags, the encoder in a working copy, forming a
command, making a request and taking its answer, storing a chunk, and reading it back.
-/

namespace Sys2Proof.Laws

open Sys2Proof.Machine Sys2Proof.Safety

/-- Enabling both sub-flags sets the three encryption bits of the word. -/
theorem enableBoth_eq (w : U32) : enableBoth w = w ||| 0x00406000 := by
  simp only [enableBoth, nfSetCmdenc, nfSetDataenc, if_true, BitVec.or_assoc]; rfl

/-- Encoding with a counter and a schedule: the wire command, and the working copy with the counter consumed. -/
theorem encodeInWork_runs {w : Work} {kk : U24} {sched : List U32} (cfg : Cfg) (s : State) (p : U24 → U64)
    (k : U64 → Work → State) (hk : w.regs.k1K = some kk) (hs : w.regs.k1Sched = some sched) :
    encodeInWork cfg s w p k
      = k (k1Wire cfg sched (p kk)) { w with regs := { w.regs with k1K := some (kk + 1) }, kused := true } := by
  simp [encodeInWork, hk, hs, nextCounter]

/-- Forming a command with a nonce and a counter: the step that sends it comes next. -/
theorem formKey1_runs {w : Work} {n kk : U24} (s : State) (a : U16) (r : RegName) (v : Option U24)
    (mk : U16 → U24 → U20 → Position) (hn : v = some n) (hk : w.regs.k1K = some kk) :
    formKey1 s w a r v mk = advance s (mk a n (lowCounter kk)) w := by
  simp [formKey1, hn, hk]

/-- An encoded request with a counter and a schedule: it is outstanding, and its counter value is consumed. -/
theorem requestEncoded_runs {w : Work} {kk : U24} {sched : List U32} (cfg : Cfg) (s : State) (p : Position) (c : U4)
    (a : U16) (n : U24) (k20 : U20) (size flags : U32) (hk : w.regs.k1K = some kk)
    (hs : w.regs.k1Sched = some sched) :
    requestEncoded cfg s w p c a n k20 size flags
      = request s p { w with regs := { w.regs with k1K := some (kk + 1) }, kused := true }
          (.send (k1Wire cfg sched (cfg.key1Layout c a n k20)) size flags none) := by
  simp [requestEncoded, encodeInWork_runs cfg s _ _ hk hs]

/-- A property of forming a command: it holds of the fault, and of the step that sends it. -/
theorem formKey1_elim {s : State} {w : Work} {a : U16} {r : RegName} {v : Option U24} {mk : U16 → U24 → U20 → Position}
    (P : State → Prop) (hv : v = none → P (raiseUnwritten s r))
    (hk : w.regs.k1K = none → P (raiseUnwritten s .k1K))
    (hs : ∀ n kk, v = some n → w.regs.k1K = some kk → P (advance s (mk a n (lowCounter kk)) w)) :
    P (formKey1 s w a r v mk) :=
  readReg_elim P hv fun n hn => readReg_elim P hk fun kk hkk => hs n kk hn hkk

/-- A property of an encoded request: it holds of the faults, and of the request that is outstanding. -/
theorem requestEncoded_elim {cfg : Cfg} {s : State} {w : Work} {p : Position} {c : U4} {a : U16} {n : U24} {k20 : U20}
    {size flags : U32} (P : State → Prop) (hk : w.regs.k1K = none → P (raiseUnwritten s .k1K))
    (hs : w.regs.k1Sched = none → P (raiseUnwritten s .k1Sched))
    (hr : ∀ kk sched, w.regs.k1K = some kk → w.regs.k1Sched = some sched →
      P (request s p { w with regs := { w.regs with k1K := some (kk + 1) }, kused := true }
        (.send (k1Wire cfg sched (cfg.key1Layout c a n k20)) size flags none))) :
    P (requestEncoded cfg s w p c a n k20 size flags) :=
  readReg_elim P hk fun kk hkk => readReg_elim P hs fun sched hsched => hr kk sched hkk hsched

/-- The requests of the steps, case by case: a property of every exchange of `exchangeOf`. -/
theorem exchangeOf_cases {cfg : Cfg} {p : Position} {q : Exchange} (h : exchangeOf cfg p = some q)
    (P : Position → Exchange → Prop) (h0 : P .initReset linkReset) (h1 : P .initDummy (dummyCommand cfg))
    (hd : P .initDelay (delayRequest cfg)) (h2 : P .initRawChipid (rawChipidCommand cfg))
    (h3 : P .initHeaderRead (headerCommand cfg))
    (h4 : ∀ ij k20, P (.begin1Activate ij k20) (activateKey1Command cfg ij k20))
    (h5 : ∀ a n k20, P (.begin1SeedInit a n k20) (key2SeedInitCommand cfg a n k20))
    (hs : cfg.hwSeed = true → P .begin1PlatformSeed platformSeed)
    (h6 : ∀ a n k20, P (.begin1Chipid a n k20) (key1ChipidCommand cfg a n k20))
    (h7 : ∀ j a n k20, P (.readsecRead j a n k20) (secureReadCommand cfg j a n k20))
    (h8 : ∀ a n k20, P (.begin2Activate a n k20) (activateKey2Command cfg a n k20))
    (h9 : P .begin2Chipid (key2ChipidCommand cfg)) : P p q := by
  cases p <;> simp only [exchangeOf, Option.some.injEq, reduceCtorEq, Option.ite_none_right_eq_some] at h
  case begin1PlatformSeed => obtain ⟨hc, rfl⟩ := h; exact hs hc
  all_goals subst h; first | assumption | exact h4 _ _ | exact h5 _ _ _ | exact h6 _ _ _ | exact h7 _ _ _ _ | exact h8 _ _ _

/-- What making the request of a step gives: the request is outstanding at that step, with its event in the trace, or a
register it needs is unwritten. -/
theorem exchangeOf_request {cfg : Cfg} {p : Position} {q : Exchange} (h : exchangeOf cfg p = some q) (s : State)
    (w : Work) :
    (∃ r, q.1 s w = raiseUnwritten s r) ∨ ∃ w' e, q.1 s w = request s p w' e ∧ outstanding p e = true := by
  refine exchangeOf_cases h
    (fun p q => (∃ r, q.1 s w = raiseUnwritten s r) ∨ ∃ w' e, q.1 s w = request s p w' e ∧ outstanding p e = true)
    (.inr ⟨_, _, rfl, rfl⟩) (.inr ⟨_, _, rfl, rfl⟩) (.inr ⟨_, _, rfl, rfl⟩) (.inr ⟨_, _, rfl, rfl⟩)
    (.inr ⟨_, _, rfl, rfl⟩) (fun ij k20 => ?_) (fun a n k20 => ?_) (fun _ => ?_) (fun a n k20 => ?_)
    (fun j a n k20 => ?_) (fun a n k20 => ?_) ?_
  all_goals
    refine readReg_elim (fun u => (∃ r, u = raiseUnwritten s r) ∨ ∃ w' e, u = request s _ w' e ∧ outstanding _ e = true)
      (fun _ => .inl ⟨_, rfl⟩) fun _ _ => ?_
    first
    | exact .inr ⟨_, _, rfl, rfl⟩
    | exact readReg_elim
        (fun u => (∃ r, u = raiseUnwritten s r) ∨ ∃ w' e, u = request s _ w' e ∧ outstanding _ e = true)
        (fun _ => .inl ⟨_, rfl⟩) fun _ _ => .inr ⟨_, _, rfl, rfl⟩
    | exact requestEncoded_elim
        (fun u => (∃ r, u = raiseUnwritten s r) ∨ ∃ w' e, u = request s _ w' e ∧ outstanding _ e = true)
        (fun _ => .inl ⟨_, rfl⟩) (fun _ => .inl ⟨_, rfl⟩) fun _ _ _ _ => .inr ⟨_, _, rfl, rfl⟩

/-- An outstanding request that the platform does not answer stays outstanding (60_exceptions R203). -/
theorem exchangeOf_waits {cfg : Cfg} {p : Position} {q : Exchange} (h : exchangeOf cfg p = some q) {s : State} (w : Work)
    (ha : s.answers = []) : q.2 s w = s := by
  refine exchangeOf_cases h (fun _ q => q.2 s w = s) ?_ ?_ ?_ ?_ ?_ ?_ ?_ ?_ ?_ ?_ ?_ ?_
  all_goals
    intros
    simp [linkReset, dummyCommand, delayRequest, rawChipidCommand, headerCommand, activateKey1Command,
      key2SeedInitCommand, platformSeed, key1ChipidCommand, secureReadCommand, activateKey2Command, key2ChipidCommand,
      callAnswer, onReturn, onAnswer_waits _ ha]

/-- A step without an answer passes. -/
theorem exchangeOf_silent {cfg : Cfg} {p : Position} {q : Exchange} (h : exchangeOf cfg p = some q) {s : State} (w : Work)
    {rest : List (Option Answer)} (ha : s.answers = none :: rest) : q.2 s w = { s with answers := rest } := by
  refine exchangeOf_cases h (fun _ q => q.2 s w = { s with answers := rest }) ?_ ?_ ?_ ?_ ?_ ?_ ?_ ?_ ?_ ?_ ?_ ?_
  all_goals
    intros
    simp [linkReset, dummyCommand, delayRequest, rawChipidCommand, headerCommand, activateKey1Command,
      key2SeedInitCommand, platformSeed, key1ChipidCommand, secureReadCommand, activateKey2Command, key2ChipidCommand,
      callAnswer, onReturn, onAnswer_silent _ ha]

/-- A property of a step that makes a request: it holds of the fault of an unwritten register, and of the answer to the
request that is outstanding. -/
theorem exchange_elim {cfg : Cfg} {p : Position} {q : Exchange} {s : State} {w : Work} (P : State → Prop)
    (h : exchangeOf cfg p = some q) (hn : ∀ r, q.1 s w = raiseUnwritten s r → P (raiseUnwritten s r))
    (hr : ∀ w' e, q.1 s w = request s p w' e → outstanding p e = true → P (q.2 (request s p w' e) w')) :
    P (exchange q s w) := by
  rcases exchangeOf_request h s w with ⟨r, hq⟩ | ⟨w', e, hq, he⟩
  · rw [exchange_ends (by rw [hq]; rfl), hq]; exact hn r hq
  · rw [exchange_requests hq]; exact hr w' e hq he

/-- Everything storing a chunk does: its bytes, its status, and a free chunk drawn when the read failed. -/
theorem storeChunk_eq (s : State) (j : Fin 4) (st : U32) (bytes : Memory) :
    storeChunk s j st bytes = { s with
      secOut := some (Memory.memWrite (s.secOut.getD []) (chunkOffset j) Config.chunkSize.toNat
        (if isError st then freeChunk s.freeCount else bytes))
      freeCount := if isError st then s.freeCount + 1 else s.freeCount
      chunk := s.chunk.set j.val
        (some (if isError st then ioStatus (BitVec.ofNat 8 (j.val + 1)) st else okStatus)) } := by
  unfold storeChunk
  cases isError st <;> simp

/-- A stored chunk reads back inside its quarter, and the other quarters read as before. -/
theorem read_memWrite_chunk (m src : Memory) (j : Fin 4) (i : Nat) :
    Memory.read (Memory.memWrite m (chunkOffset j) Config.chunkSize.toNat src) i
      = if j.val * 0x1000 ≤ i ∧ i < j.val * 0x1000 + 0x1000 then src.read (i - j.val * 0x1000) else m.read i :=
  read_memWrite m src (chunkOffset j) Config.chunkSize.toNat i

/-- A request that the platform answers is an error exactly when its status is negative. -/
theorem isError_iff (st : U32) : isError st = true ↔ st.toInt < 0 := by
  simp [isError]

end Sys2Proof.Laws
end

