-- ==== Sys2Proof/Laws/Operations.lean ====
section
/-!
SUPPORT. What a host operation can do, once, for all 43 of them; and what a good state gives the step that comes next: the
registers it needs hold values, so the request it makes is outstanding at that step.
-/

namespace Sys2Proof.Laws

open Sys2Proof.Machine Sys2Proof.Safety

/-! ## Host operations -/

/-- What the body of a host operation can answer, on cleared ports: a status, a fault, results, one consumed counter value,
or the first step of the operation's own step list. -/
def bodyResult (op : Option SeqOp) (s t : State) : Prop :=
  (∃ st, t = finish s st) ∨ (∃ f, t = raise s f) ∨ (∃ v, t = returnRes0 s v) ∨ (∃ v v', t = returnRes01 s v v')
    ∨ (∃ kk v, s.regs.schedValid = true ∧ s.regs.k1K = some kk
      ∧ t = returnRes0 { s with regs := { s.regs with k1K := some (kk + 1) } } v)
    ∨ ∃ p, t = advance s p (beginWork s) ∧ op = some p.op ∧ p.index = 0 ∧ WorkOk Config.cfg s p (beginWork s)

variable {op : Option SeqOp}

theorem bodyResult_finish (s : State) (st : Status) : bodyResult op s (finish s st) := .inl ⟨st, rfl⟩

theorem bodyResult_raise (s : State) (f : FaultRecord) : bodyResult op s (raise s f) := .inr (.inl ⟨f, rfl⟩)

theorem bodyResult_res0 (s : State) (v : U64) : bodyResult op s (returnRes0 s v) := .inr (.inr (.inl ⟨v, rfl⟩))

theorem bodyResult_res01 (s : State) (v v' : U64) : bodyResult op s (returnRes01 s v v') :=
  .inr (.inr (.inr (.inl ⟨v, v', rfl⟩)))

theorem bodyResult_begins {s : State} {p : Position} (ho : op = some p.op) (h : p.index = 0)
    (hw : WorkOk Config.cfg s p (beginWork s)) : bodyResult op s (advance s p (beginWork s)) :=
  .inr (.inr (.inr (.inr (.inr ⟨p, rfl, ho, h, hw⟩))))

theorem bodyResult_requireState {s : State} {e : EncState} {body : State → State}
    (h : s.regs.encState = e → bodyResult op s (body s)) : bodyResult op s (requireState s e body) := by
  unfold requireState
  split
  · exact h ‹_›
  · exact bodyResult_finish _ _

/-- A host operation that answers: it met a latched fault, or its body ran. -/
theorem hostOp_bodyResult {s t : State} {body : State → State} (h : hostOp s body = .next t)
    (hb : bodyResult op (clearPorts s) (body (clearPorts s))) :
    s.seq = .idle ∧ ((∃ f, s.fault = some f ∧ t = refuseLatched s f)
      ∨ (s.fault = none ∧ bodyResult op (clearPorts s) t)) := by
  obtain ⟨hs, h | ⟨hf, rfl⟩⟩ := hostOp_next h
  · exact ⟨hs, .inl h⟩
  · exact ⟨hs, .inr ⟨hf, hb⟩⟩

theorem inspectReg_bodyResult {s t : State} {r : RegName} (h : inspectReg s r = .next t) :
    s.seq = .idle ∧ ((∃ f, s.fault = some f ∧ t = refuseLatched s f)
      ∨ (s.fault = none ∧ bodyResult (some .inspect) (clearPorts s) t)) :=
  hostOp_bodyResult h (bodyResult_begins rfl rfl trivial)

/-- A host operation has a word. -/
theorem isHostOperation_iff (i : Instr) : isHostOperation i = true ↔ ∃ how, encode i = .how how := by
  unfold isHostOperation
  cases encode i <;> simp

/-- Everything a host operation can do. -/
theorem exec_hostOperation {i : Instr} {how : U32} {s t : State} (hi : encode i = .how how) (h : exec i s = .next t) :
    s.seq = .idle ∧ ((∃ f, s.fault = some f ∧ t = refuseLatched s f)
      ∨ (s.fault = none ∧ bodyResult (listedOperation how) (clearPorts s) t)) := by
  cases i <;> simp only [encode, howWord, Code.how.injEq, reduceCtorEq] at hi <;> subst hi
  all_goals
    try simp only [exec, execInit, execSetup, setupOp, execBegin1, execReadsec, execBegin2, inspectSchedOp, codecGet,
      codecGetBit, codecSet, codecSetBool, execK1Encode, k1EncodeOp, execK1Derive, execK2Seed, k2SeedOp,
      execInspectK1Sched, execNfConstruct, execNfGetPredelay, execNfSetPredelay, execNfGetPostdelay,
      execNfSetPostdelay, execNfGetPulse, execNfSetPulse, execNfGetCmdenc, execNfSetCmdenc, execNfGetDataenc,
      execNfSetDataenc, execNfGetSlow, execNfSetSlow, execNfGetSecen] at h
  case init => exact hostOp_bodyResult h (bodyResult_requireState fun he => bodyResult_begins rfl rfl ⟨he, rfl, rfl⟩)
  case setup =>
    refine hostOp_bodyResult h (bodyResult_requireState fun he => ?_)
    split
    · exact bodyResult_raise _ _
    · exact bodyResult_begins rfl rfl ⟨he, rfl, rfl⟩
  case begin1 =>
    refine hostOp_bodyResult h (bodyResult_requireState fun he => ?_)
    split
    · exact bodyResult_raise _ _
    · exact bodyResult_begins rfl rfl ⟨he, Bool.eq_true_of_not_eq_false ‹_›, rfl, rfl⟩
  case readsec =>
    refine hostOp_bodyResult h (bodyResult_requireState fun he => ?_)
    refine formKey1_elim (bodyResult _ _) (fun _ => bodyResult_raise _ _) (fun _ => bodyResult_raise _ _)
      fun n kk hn hk => bodyResult_begins rfl rfl ⟨he, ⟨kk, ?_, rfl⟩, by decide, hn⟩
    rw [← hk]; rfl
  case begin2 =>
    refine hostOp_bodyResult h (bodyResult_requireState fun he => ?_)
    refine readReg_elim (bodyResult _ _) (fun _ => bodyResult_raise _ _) fun l hl => ?_
    exact formKey1_elim (bodyResult _ _) (fun _ => bodyResult_raise _ _) (fun _ => bodyResult_raise _ _)
      fun n kk hn hk => bodyResult_begins rfl rfl ⟨he, rfl, rfl, hl, hn, kk, hk, rfl⟩
  case inspectK1Sched =>
    refine hostOp_bodyResult h ?_
    split
    · exact bodyResult_raise _ _
    · exact bodyResult_begins rfl rfl trivial
  case k1Encode =>
    refine hostOp_bodyResult h ?_
    split
    · exact bodyResult_raise _ _
    · split
      · exact bodyResult_raise _ _
      · exact readReg_elim (bodyResult _ _) (fun _ => bodyResult_raise _ _) fun kk hk =>
          readReg_elim (bodyResult _ _) (fun _ => bodyResult_raise _ _) fun _ _ =>
            .inr (.inr (.inr (.inr (.inl ⟨kk, _, Bool.eq_true_of_not_eq_false ‹_›, hk, rfl⟩))))
  case k1Derive => exact hostOp_bodyResult h (bodyResult_res01 _ _ _)
  case k2Seed =>
    refine hostOp_bodyResult h ?_
    split
    · exact bodyResult_raise _ _
    · exact bodyResult_res01 _ _ _
  all_goals first | exact inspectReg_bodyResult h | exact hostOp_bodyResult h (bodyResult_res0 _ _)

/-! ## What a good register file holds -/

theorem exists_of_isSome {α : Type} {o : Option α} (h : o.isSome = true) : ∃ x, o = some x :=
  Option.isSome_iff_exists.mp h

/-- The five captured registers hold values. -/
theorem headerWritten_values {r : Regs} (h : headerWritten r = true) :
    ∃ id gc t1 t2 sb, r.rawChipId = some id ∧ r.hdrGameCode = some gc ∧ r.hdrKey1Timing = some t1
      ∧ r.hdrKey2Timing = some t2 ∧ r.k2SeedByte = some sb := by
  simp only [headerWritten, Bool.and_eq_true] at h
  obtain ⟨⟨⟨⟨h1, h2⟩, h3⟩, h4⟩, h5⟩ := h
  obtain ⟨_, h1⟩ := exists_of_isSome h1
  obtain ⟨_, h2⟩ := exists_of_isSome h2
  obtain ⟨_, h3⟩ := exists_of_isSome h3
  obtain ⟨_, h4⟩ := exists_of_isSome h4
  obtain ⟨_, h5⟩ := exists_of_isSome h5
  exact ⟨_, _, _, _, _, h1, h2, h3, h4, h5⟩

/-- In RAW the captured registers hold values. -/
theorem regsOk_raw_header {cfg : Cfg} {r : Regs} (h : RegsOk cfg r) (he : r.encState = .raw) :
    headerWritten r = true := by
  have hw := h.2
  unfold WrittenOk at hw
  rw [he] at hw
  exact hw.1

/-- In KEY1 the captured registers, the schedule and the first regime's registers hold values. -/
theorem regsOk_key1_written {cfg : Cfg} {r : Regs} (h : RegsOk cfg r) (he : r.encState = .key1) :
    headerWritten r = true ∧ r.schedValid = true ∧ regimeWritten r = true := by
  have hw := h.2
  unfold WrittenOk at hw
  rw [he] at hw
  exact ⟨hw.1, hw.2.1, hw.2.2.1⟩

/-- A valid schedule holds a value. -/
theorem regsOk_schedule {cfg : Cfg} {r : Regs} (h : RegsOk cfg r) (hv : r.schedValid = true) :
    ∃ l, r.k1Sched = some l :=
  exists_of_isSome (h.1.1.trans hv)

/-- The registers that the commands of the first regime read. -/
theorem regimeWritten_values {r : Regs} (h : regimeWritten r = true) :
    ∃ ij kk l f, r.k1Ij = some ij ∧ r.k1K = some kk ∧ r.k1L = some l ∧ r.k1Flags = some f := by
  simp only [regimeWritten, Bool.and_eq_true] at h
  obtain ⟨⟨⟨⟨⟨⟨⟨h1, h2⟩, h3⟩, h4⟩, -⟩, -⟩, -⟩, -⟩ := h
  obtain ⟨_, h1⟩ := exists_of_isSome h1
  obtain ⟨_, h2⟩ := exists_of_isSome h2
  obtain ⟨_, h3⟩ := exists_of_isSome h3
  obtain ⟨_, h4⟩ := exists_of_isSome h4
  exact ⟨_, _, _, _, h1, h2, h3, h4⟩

/-- The request of the step that comes next in a good state: no register it needs is unwritten, so it is outstanding at that
step, with its event in the trace and the working copy `requested` says. -/
theorem request_of_workOk {cfg : Cfg} {s : State} {p : Position} {w : Work} {q : Exchange}
    (hq : exchangeOf cfg p = some q) (hr : RegsOk cfg s.regs) (hw : WorkOk cfg s p w) :
    ∃ e, outstanding p e = true ∧ q.1 s w = request s p (requested p w) e := by
  have sends : ∀ (u : State) p w' cmd size flags, (positionInstr p).isSome = true →
      u = request s p w' (.send cmd size flags none) → w' = requested p w →
      ∃ e, outstanding p e = true ∧ u = request s p (requested p w) e := by
    intro u p w' _ _ _ hp h1 h2
    subst h1 h2
    refine ⟨_, ?_, rfl⟩
    cases p <;> first | rfl | cases hp
  revert hw
  refine exchangeOf_cases hq (fun p q => WorkOk cfg s p w →
      ∃ e, outstanding p e = true ∧ q.1 s w = request s p (requested p w) e)
    (fun _ => ⟨_, rfl, rfl⟩) (fun _ => ⟨_, rfl, rfl⟩) (fun _ => ⟨_, rfl, rfl⟩) (fun _ => ⟨_, rfl, rfl⟩)
    (fun _ => ⟨_, rfl, rfl⟩) (fun ij k20 hw => ?_) (fun a n k20 hw => ?_) (fun _ hw => ?_) (fun a n k20 hw => ?_)
    (fun j a n k20 hw => ?_) (fun a n k20 hw => ?_) fun hw => ?_
  all_goals simp only [WorkOk] at hw
  · obtain ⟨_, _, _, _, _, -, -, -, h, -⟩ := headerWritten_values (regsOk_raw_header hr hw.1)
    exact ⟨_, rfl, by simp only [activateKey1Command, h, readReg_some]; rfl⟩
  · obtain ⟨-, hv, -, ⟨f, h⟩, -⟩ := hw
    obtain ⟨l, hl⟩ := regsOk_schedule hr hv
    refine sends _ _ _ _ _ _ rfl (by
      simp only [key2SeedInitCommand, h, begun1, loadConstants, readReg_some]
      exact requestEncoded_runs (kk := Config.initK + BitVec.ofNat 24 0) (sched := l) _ _ _ _ _ _ _ _ _
        (by simp [h, begun1]) (by simp [h, begun1, loadConstants, hl])) ?_
    simp [requested, encodes, h, begun1, nextCounter, loadConstants]
  · obtain ⟨-, -, -, f, x, y, h⟩ := hw
    exact ⟨.seed x y, rfl, by simp [platformSeed, h, requested, encodes]⟩
  · obtain ⟨-, hv, -, ⟨f, x, y, h⟩, -⟩ := hw
    obtain ⟨l, hl⟩ := regsOk_schedule hr hv
    refine sends _ _ _ _ _ _ rfl (by
      simp only [key1ChipidCommand, h, begun1, loadConstants, readReg_some]
      exact requestEncoded_runs (kk := Config.initK + BitVec.ofNat 24 1) (sched := l) _ _ _ _ _ _ _ _ _
        (by simp [h, begun1]) (by simp [h, begun1, loadConstants, hl])) ?_
    simp [requested, encodes, h, begun1, nextCounter, loadConstants]
  · obtain ⟨he, ⟨kk, h, -⟩, -⟩ := hw
    obtain ⟨hh, hv, -⟩ := regsOk_key1_written hr he
    obtain ⟨_, _, _, _, _, -, -, ht, -, -⟩ := headerWritten_values hh
    obtain ⟨l, hl⟩ := regsOk_schedule hr hv
    refine sends _ _ _ _ _ _ rfl (by
      simp only [secureReadCommand, ht, readReg_some]
      exact requestEncoded_runs (kk := kk) (sched := l) _ _ _ _ _ _ _ _ _ (by simp [h]) (by simp [h, hl])) ?_
    simp [requested, encodes, h, nextCounter]
  · obtain ⟨he, -, h, -⟩ := hw
    obtain ⟨-, hv, hg⟩ := regsOk_key1_written hr he
    obtain ⟨_, kk, _, f, -, hk, -, hf⟩ := regimeWritten_values hg
    obtain ⟨l, hl⟩ := regsOk_schedule hr hv
    refine sends _ _ _ _ _ _ rfl (by
      simp only [activateKey2Command, h, hf, readReg_some]
      exact requestEncoded_runs (kk := kk) (sched := l) _ _ _ _ _ _ _ _ _ (by simp [h, hk]) (by simp [h, hl])) ?_
    simp [requested, encodes, h, hk, nextCounter]
  · obtain ⟨-, -, kk, f, -, h⟩ := hw
    exact sends _ _ w _ _ _ rfl (by simp only [key2ChipidCommand, h, readReg_some]; rfl) (by simp [requested, encodes])

end Sys2Proof.Laws
end

