-- ==== Sys2Proof/Laws/PerInstr.lean ====
section
/-!
SUPPORT. A statement for every operation, one lemma for each constructor.
-/

namespace Sys2Proof.Laws

/-- The word of a host operation is legal by 30_encoding R72, and a word of another kind is a bus command's. -/
def LegalWord.Statement (i : Instr) : Prop :=
  match encode i with
  | .how w => Safety.illegalWord w = false
  | .bus _ => Safety.isHostOperation i = false

theorem LegalWord.init : LegalWord.Statement .init := rfl
theorem LegalWord.setup : LegalWord.Statement .setup := rfl
theorem LegalWord.begin1 : LegalWord.Statement .begin1 := rfl
theorem LegalWord.readsec : LegalWord.Statement .readsec := rfl
theorem LegalWord.begin2 : LegalWord.Statement .begin2 := rfl
theorem LegalWord.inspectEncState : LegalWord.Statement .inspectEncState := rfl
theorem LegalWord.inspectSchedValid : LegalWord.Statement .inspectSchedValid := rfl
theorem LegalWord.inspectHwSeed : LegalWord.Statement .inspectHwSeed := rfl
theorem LegalWord.inspectRawChipId : LegalWord.Statement .inspectRawChipId := rfl
theorem LegalWord.inspectHdrGameCode : LegalWord.Statement .inspectHdrGameCode := rfl
theorem LegalWord.inspectHdrKey1Timing : LegalWord.Statement .inspectHdrKey1Timing := rfl
theorem LegalWord.inspectHdrKey2Timing : LegalWord.Statement .inspectHdrKey2Timing := rfl
theorem LegalWord.inspectK2SeedByte : LegalWord.Statement .inspectK2SeedByte := rfl
theorem LegalWord.inspectK1Key0 : LegalWord.Statement .inspectK1Key0 := rfl
theorem LegalWord.inspectK1Key1 : LegalWord.Statement .inspectK1Key1 := rfl
theorem LegalWord.inspectK1Key2 : LegalWord.Statement .inspectK1Key2 := rfl
theorem LegalWord.inspectK1Ij : LegalWord.Statement .inspectK1Ij := rfl
theorem LegalWord.inspectK1K : LegalWord.Statement .inspectK1K := rfl
theorem LegalWord.inspectK1L : LegalWord.Statement .inspectK1L := rfl
theorem LegalWord.inspectK1Flags : LegalWord.Statement .inspectK1Flags := rfl
theorem LegalWord.inspectK1Sched : LegalWord.Statement .inspectK1Sched := rfl
theorem LegalWord.inspectK2Mn : LegalWord.Statement .inspectK2Mn := rfl
theorem LegalWord.inspectK2Flags : LegalWord.Statement .inspectK2Flags := rfl
theorem LegalWord.inspectK2ChipId : LegalWord.Statement .inspectK2ChipId := rfl
theorem LegalWord.inspectK2X : LegalWord.Statement .inspectK2X := rfl
theorem LegalWord.inspectK2Y : LegalWord.Statement .inspectK2Y := rfl
theorem LegalWord.nfConstruct : LegalWord.Statement .nfConstruct := rfl
theorem LegalWord.nfGetPredelay : LegalWord.Statement .nfGetPredelay := rfl
theorem LegalWord.nfSetPredelay : LegalWord.Statement .nfSetPredelay := rfl
theorem LegalWord.nfGetPostdelay : LegalWord.Statement .nfGetPostdelay := rfl
theorem LegalWord.nfSetPostdelay : LegalWord.Statement .nfSetPostdelay := rfl
theorem LegalWord.nfGetPulse : LegalWord.Statement .nfGetPulse := rfl
theorem LegalWord.nfSetPulse : LegalWord.Statement .nfSetPulse := rfl
theorem LegalWord.nfGetCmdenc : LegalWord.Statement .nfGetCmdenc := rfl
theorem LegalWord.nfSetCmdenc : LegalWord.Statement .nfSetCmdenc := rfl
theorem LegalWord.nfGetDataenc : LegalWord.Statement .nfGetDataenc := rfl
theorem LegalWord.nfSetDataenc : LegalWord.Statement .nfSetDataenc := rfl
theorem LegalWord.nfGetSlow : LegalWord.Statement .nfGetSlow := rfl
theorem LegalWord.nfSetSlow : LegalWord.Statement .nfSetSlow := rfl
theorem LegalWord.nfGetSecen : LegalWord.Statement .nfGetSecen := rfl
theorem LegalWord.k1Encode : LegalWord.Statement .k1Encode := rfl
theorem LegalWord.k1Derive : LegalWord.Statement .k1Derive := rfl
theorem LegalWord.k2Seed : LegalWord.Statement .k2Seed := rfl
theorem LegalWord.busDummy : LegalWord.Statement .busDummy := rfl
theorem LegalWord.busRawChipid : LegalWord.Statement .busRawChipid := rfl
theorem LegalWord.busHeaderRead : LegalWord.Statement .busHeaderRead := rfl
theorem LegalWord.busActivateKey1 (ij : U24) (k20 : U20) : LegalWord.Statement (.busActivateKey1 ij k20) := rfl
theorem LegalWord.busKey2SeedInit (a : U16) (n : U24) (k20 : U20) : LegalWord.Statement (.busKey2SeedInit a n k20) := rfl
theorem LegalWord.busKey1Chipid (a : U16) (n : U24) (k20 : U20) : LegalWord.Statement (.busKey1Chipid a n k20) := rfl
theorem LegalWord.busSecureRead (a : U16) (n : U24) (k20 : U20) : LegalWord.Statement (.busSecureRead a n k20) := rfl
theorem LegalWord.busActivateKey2 (a : U16) (n : U24) (k20 : U20) : LegalWord.Statement (.busActivateKey2 a n k20) := rfl
theorem LegalWord.busKey2Chipid : LegalWord.Statement .busKey2Chipid := rfl

end Sys2Proof.Laws
end

