-- ==== Sys2Proof/Machine/Candidates.lean ====
section
/-!
DEFINITION. A configuration built from the candidates and defaults of 00_scope R3. PRESUMED (log 4): the candidates come from
general knowledge, and no statement about the engine rests on them; they serve the tests and readers who accept their ground.
-/

namespace Sys2Proof.Machine

/-- The candidate `SEED_TABLE` (00_scope R3). -/
def candidateSeedTable : Vector U8 8 := #v[0xE8, 0x4D, 0x5A, 0xB1, 0x17, 0x8F, 0x99, 0xD5]

/-- Default `K2_HDR_MASK` (00_scope R3). -/
def defaultK2HdrMask : U32 := 0x103F1FFF

/-- Default `K2_SET` (00_scope R3). -/
def defaultK2Set : U32 := 0x08406000

/-- The configuration with the candidates and defaults of 00_scope R3, given the fields that have none (and the schedule
size, so that a test may use a small one). -/
def candidateCfg (n : Nat) (hwSeed : Bool) (postdelay : U6) (initDelay largeSecureBlock : U32)
    (applyKey : Vector U32 n → Key → Vector U32 n × Key) (encryptBlock : Vector U32 n → U64 → U64) : Cfg where
  schedWords := n
  seedTable := candidateSeedTable
  hwSeed := hwSeed
  key1Layout := key1LayoutCandidate
  actLayout := actLayoutCandidate
  act1Opc := act1Opcode
  dummyCmd := dummyWord
  dummyReadSize := 0x2000
  dummyPostdelay := postdelay
  initDelay := initDelay
  rawChipidCmd := rawChipidWord
  rawChipidFlags := nfConstruct 0 (postdelay.setWidth 32) false false false true
  headerCmd := headerWord
  headerFlags := nfConstruct 0 (postdelay.setWidth 32) false false false true
  act1Mask := timingFieldsMask
  k1HdrMask := timingFieldsMask
  k1CurMask := 0
  largeSecureBlockMask := largeSecureBlock
  k1CmdSeed := seedNibble
  k1CmdChipid := chipidNibble
  k1CmdSecread := secreadNibble
  k1CmdAct2 := act2Nibble
  secHdrMask := timingFieldsMask
  k2HdrMask := defaultK2HdrMask
  k2Set := defaultK2Set
  k2ChipidCmd := key2ChipidWord
  applyKey := applyKey
  encryptBlock := encryptBlock

/-- The candidate `SCHED_WORDS` (00_scope R3). -/
def candidateSchedWords : Nat := 0x412

end Sys2Proof.Machine
end

