-- ==== Sys2Proof/Machine/HostProgram.lean ====
section
/-!
DEFINITION. Host programs (30_encoding R83, R84): the assembler's lines, the pseudo-instructions and the host that issues
them one at a time. This is the host's side of the interface; the engine's step does not use it (log 18).
-/

namespace Sys2Proof.Machine

/-- An operand of a line: a number, or `res0`, the `RES0` result of the previous operation (30_encoding R83). -/
inductive Arg where
  | num (v : U32)
  | res0
deriving DecidableEq, Repr

/-- A line: an operation, its operands, and the table that `setup` loads. -/
structure Line where
  instr : Instr
  args : List Arg
  table : List U32
deriving DecidableEq, Repr

/-- The value of an operand; `res0` is truncated to 32 bits, and has none when the port holds none. -/
def resolveArg (res0 : Option U64) : Arg → Option U32
  | .num v => some v
  | .res0 => res0.map fun r => r.setWidth 32

/-- The values of the operands. -/
def resolveArgs (res0 : Option U64) : List Arg → Option (List U32)
  | [] => some []
  | a :: l =>
    match resolveArg res0 a, resolveArgs res0 l with
    | some v, some vs => some (v :: vs)
    | _, _ => none

/-- `b2u(bool(v))` at 32 bits (00_scope R7). -/
def flagOperand (v : U32) : U32 := if boolOperand v then 1 else 0

/-- The ports of a line: the operands fill `A`, `B`, `C` in order; `nf.construct` packs its four booleans into `C`
(30_encoding R83). -/
def assemblePorts (i : Instr) (how : U32) (vs table : List U32) : Option HostOp :=
  match i, vs with
  | .nfConstruct, [pre, post, pulse, cenc, denc, slow] =>
    some ⟨how, pre, post,
      flagOperand pulse ||| flagOperand cenc <<< 1 ||| flagOperand denc <<< 2 ||| flagOperand slow <<< 3, table⟩
  | .nfConstruct, _ => none
  | _, [] => some ⟨how, 0, 0, 0, table⟩
  | _, [a] => some ⟨how, a, 0, 0, table⟩
  | _, [a, b] => some ⟨how, a, b, 0, table⟩
  | _, [a, b, c] => some ⟨how, a, b, c, table⟩
  | _, _ => none

/-- Assemble a line (30_encoding R83). A bus command is no line of a host program. -/
def assemble (res0 : Option U64) (l : Line) : Option HostOp :=
  match encode l.instr, resolveArgs res0 l.args with
  | .how w, some vs => assemblePorts l.instr w vs l.table
  | _, _ => none

/-- The pseudo-instructions (30_encoding R84). -/
inductive Pseudo where
  | nfSetEnc (w v : Arg)
  | nfRaw (pre post slow : Arg)
  | bringup (table : List U32)
  | bringupSecure (table : List U32)
deriving DecidableEq, Repr

/-- The expansions (30_encoding R84). -/
def expandPseudo : Pseudo → List Line
  | .nfSetEnc w v => [⟨.nfSetCmdenc, [w, v], []⟩, ⟨.nfSetDataenc, [.res0, v], []⟩]
  | .nfRaw pre post slow => [⟨.nfConstruct, [pre, post, .num 0, .num 0, .num 0, slow], []⟩]
  | .bringup t => [⟨.init, [], []⟩, ⟨.setup, [], t⟩, ⟨.begin1, [], []⟩, ⟨.begin2, [], []⟩]
  | .bringupSecure t =>
    [⟨.init, [], []⟩, ⟨.setup, [], t⟩, ⟨.begin1, [], []⟩, ⟨.readsec, [], []⟩, ⟨.begin2, [], []⟩]

/-- The host issues one operation and waits for its end, or until the platform answers no more: a step takes the sequencer on,
or uses up an entry of `answers`. -/
def issue (s : State) (o : HostOp) : Host.Outcome State Fault Refusal :=
  match step { s with host := .op o :: s.host } with
  | .next t => .next (drive Config.cfg (maxSteps + t.answers.length) t)
  | .fault r => .fault r
  | .refused r => .refused r

/-- The host runs lines in order and stops at the first whose `STATUS` is not OK (30_encoding R84): an error, a fault, an
operation still waiting for the platform, or a line that cannot be assembled. -/
def runLines : State → List Line → Host.Outcome State Fault Refusal
  | s, [] => .next s
  | s, l :: rest =>
    match assemble s.res0 l with
    | none => .next s
    | some o =>
      match issue s o with
      | .next s' => if s'.status = some okStatus then runLines s' rest else .next s'
      | .fault r => .fault r
      | .refused r => .refused r

/-! ## The text of a line (30_encoding R83) -/

/-- The value of a hexadecimal digit. -/
def hexDigit (c : Char) : Option Nat :=
  let n := c.toNat
  if 48 ≤ n ∧ n ≤ 57 then some (n - 48)
  else if 65 ≤ n ∧ n ≤ 70 then some (n - 55)
  else if 97 ≤ n ∧ n ≤ 102 then some (n - 87)
  else none

/-- Digits in a base, most significant first. -/
def parseDigits (base : Nat) : Nat → List Char → Option Nat
  | acc, [] => some acc
  | acc, c :: l =>
    match hexDigit c with
    | some d => if d < base then parseDigits base (acc * base + d) l else none
    | none => none

/-- A number: hexadecimal with the prefix `0x`, or decimal. -/
def parseNumber : List Char → Option Nat
  | [] => none
  | ['0', 'x'] => none
  | '0' :: 'x' :: l => parseDigits 16 0 l
  | l => parseDigits 10 0 l

/-- An operand: `res0`, or a number of at most 32 bits. -/
def parseArg (l : List Char) : Option Arg :=
  if l = "res0".toList then some .res0
  else
    match parseNumber l with
    | some n => if n < 2 ^ 32 then some (.num (BitVec.ofNat 32 n)) else none
    | none => none

/-- Operands, in order. -/
def parseArgs : List (List Char) → Option (List Arg)
  | [] => some []
  | a :: l =>
    match parseArg a, parseArgs l with
    | some x, some xs => some (x :: xs)
    | _, _ => none

/-- The text before a comment: `;` starts one. -/
def stripComment (l : List Char) : List Char := l.takeWhile fun c => c != ';'

/-- A text without the spaces at its ends. -/
def trimSpaces (l : List Char) : List Char :=
  ((l.dropWhile fun c => c == ' ').reverse.dropWhile fun c => c == ' ').reverse

/-- The pieces of a text between commas. -/
def splitCommas : List Char → List (List Char)
  | [] => [[]]
  | c :: l =>
    match splitCommas l with
    | [] => [[c]]
    | p :: ps => if c = ',' then [] :: p :: ps else (c :: p) :: ps

/-- The operands' texts of a line: none where nothing stands. -/
def operandTexts (l : List Char) : List (List Char) :=
  match trimSpaces l with
  | [] => []
  | t => (splitCommas t).map trimSpaces

/-- The mnemonics of the operations other than `inspect` and `setup` (30_encoding R71). -/
def mnemonicTable : List (String × Instr) :=
  [("init", .init), ("begin1", .begin1), ("readsec", .readsec), ("begin2", .begin2),
   ("nf.construct", .nfConstruct), ("nf.get.predelay", .nfGetPredelay), ("nf.set.predelay", .nfSetPredelay),
   ("nf.get.postdelay", .nfGetPostdelay), ("nf.set.postdelay", .nfSetPostdelay), ("nf.get.pulse", .nfGetPulse),
   ("nf.set.pulse", .nfSetPulse), ("nf.get.cmdenc", .nfGetCmdenc), ("nf.set.cmdenc", .nfSetCmdenc),
   ("nf.get.dataenc", .nfGetDataenc), ("nf.set.dataenc", .nfSetDataenc), ("nf.get.slow", .nfGetSlow),
   ("nf.set.slow", .nfSetSlow), ("nf.get.secen", .nfGetSecen), ("k1.encode", .k1Encode),
   ("k1.derive", .k1Derive), ("k2.seed", .k2Seed)]

/-- The selector names of `inspect` (30_encoding R74). -/
def selectorTable : List (String × Instr) :=
  [("ENC_STATE", .inspectEncState), ("SCHED_VALID", .inspectSchedValid), ("HW_SEED", .inspectHwSeed),
   ("RAW_CHIP_ID", .inspectRawChipId), ("HDR_GAME_CODE", .inspectHdrGameCode),
   ("HDR_KEY1_TIMING", .inspectHdrKey1Timing), ("HDR_KEY2_TIMING", .inspectHdrKey2Timing),
   ("K2_SEED_BYTE", .inspectK2SeedByte), ("K1_KEY0", .inspectK1Key0), ("K1_KEY1", .inspectK1Key1),
   ("K1_KEY2", .inspectK1Key2), ("K1_IJ", .inspectK1Ij), ("K1_K", .inspectK1K), ("K1_L", .inspectK1L),
   ("K1_FLAGS", .inspectK1Flags), ("K1_SCHED", .inspectK1Sched), ("K2_MN", .inspectK2Mn),
   ("K2_FLAGS", .inspectK2Flags), ("K2_CHIP_ID", .inspectK2ChipId), ("K2_X", .inspectK2X), ("K2_Y", .inspectK2Y)]

/-- The entry of a name in a table. -/
def lookupName {α : Type} (name : List Char) : List (String × α) → Option α
  | [] => none
  | (n, x) :: l => if n.toList = name then some x else lookupName name l

/-- A pseudo-instruction's lines, from its name and operands (30_encoding R84). -/
def parsePseudo (tables : List (String × List U32)) (name : List Char) (texts : List (List Char)) :
    Option (List Line) :=
  if name = "nf.set.enc".toList then
    match parseArgs texts with
    | some [w, v] => some (expandPseudo (.nfSetEnc w v))
    | _ => none
  else if name = "nf.raw".toList then
    match parseArgs texts with
    | some [pre, post, slow] => some (expandPseudo (.nfRaw pre post slow))
    | _ => none
  else if name = "bringup".toList then
    match texts with
    | [t] => (lookupName t tables).map fun l => expandPseudo (.bringup l)
    | _ => none
  else if name = "bringup.secure".toList then
    match texts with
    | [t] => (lookupName t tables).map fun l => expandPseudo (.bringupSecure l)
    | _ => none
  else none

/-- Parse a line of a host program (30_encoding R83, R84): `mnemonic operand, operand, ...`. An empty line is no operation.
The host's tables are given by name. -/
def parseLine (tables : List (String × List U32)) (text : List Char) : Option (List Line) :=
  match trimSpaces (stripComment text) with
  | [] => some []
  | t =>
    let name := t.takeWhile fun c => c != ' '
    let texts := operandTexts (t.dropWhile fun c => c != ' ')
    if name = "inspect".toList then
      match texts with
      | sel :: args =>
        match lookupName sel selectorTable, parseArgs args with
        | some i, some xs => some [⟨i, xs, []⟩]
        | _, _ => none
      | [] => none
    else if name = "setup".toList then
      match texts with
      | [tableName] => (lookupName tableName tables).map fun l => [⟨.setup, [], l⟩]
      | _ => none
    else
      match lookupName name mnemonicTable with
      | some i => (parseArgs texts).map fun xs => [⟨i, xs, []⟩]
      | none => parsePseudo tables name texts

end Sys2Proof.Machine
end

