-- ==== Sys2Proof/Tests/Slice0.lean ====
section
/-!
SUPPORT. Tests: the words of the spec's tables, the vectors of `spec/95_test_vectors.md`, and for every statement with
hypotheses a state and operands that meet them.
-/

namespace Sys2Proof.Tests

open Sys2Proof.Machine Sys2Proof.Safety

/-! ## WellFormed -/

/-- The secure-block argument is 4, 5, 6 or 7 (00_scope R4). -/
theorem test_secure_read_argument_0_ill_formed : (Instr.busSecureRead 0 0x11A473 0x39D48).wellFormed = false := rfl
theorem test_secure_read_argument_3_ill_formed : (Instr.busSecureRead 3 0x11A473 0x39D48).wellFormed = false := rfl
theorem test_secure_read_argument_8_ill_formed : (Instr.busSecureRead 8 0x11A473 0x39D48).wellFormed = false := rfl
theorem test_secure_read_argument_4_well_formed : (Instr.busSecureRead 4 0x11A473 0x39D48).wellFormed = true := rfl
theorem test_secure_read_argument_7_well_formed : (Instr.busSecureRead 7 0x11A473 0x39D48).wellFormed = true := rfl

/-! ## Decoding: the words of 30_encoding R71 and R74 -/

theorem test_decode_init : decode (.how 0x00000001) = .ok .init := by rfl
theorem test_decode_setup : decode (.how 0x00000002) = .ok .setup := by rfl
theorem test_decode_begin1 : decode (.how 0x00000003) = .ok .begin1 := by rfl
theorem test_decode_readsec : decode (.how 0x00000004) = .ok .readsec := by rfl
theorem test_decode_begin2 : decode (.how 0x00000005) = .ok .begin2 := by rfl
theorem test_decode_nfConstruct : decode (.how 0x00000010) = .ok .nfConstruct := by rfl
theorem test_decode_nfGetPredelay : decode (.how 0x00000011) = .ok .nfGetPredelay := by rfl
theorem test_decode_nfSetPredelay : decode (.how 0x00000012) = .ok .nfSetPredelay := by rfl
theorem test_decode_nfGetPostdelay : decode (.how 0x00000013) = .ok .nfGetPostdelay := by rfl
theorem test_decode_nfSetPostdelay : decode (.how 0x00000014) = .ok .nfSetPostdelay := by rfl
theorem test_decode_nfGetPulse : decode (.how 0x00000015) = .ok .nfGetPulse := by rfl
theorem test_decode_nfSetPulse : decode (.how 0x00000016) = .ok .nfSetPulse := by rfl
theorem test_decode_nfGetCmdenc : decode (.how 0x00000017) = .ok .nfGetCmdenc := by rfl
theorem test_decode_nfSetCmdenc : decode (.how 0x00000018) = .ok .nfSetCmdenc := by rfl
theorem test_decode_nfGetDataenc : decode (.how 0x00000019) = .ok .nfGetDataenc := by rfl
theorem test_decode_nfSetDataenc : decode (.how 0x0000001A) = .ok .nfSetDataenc := by rfl
theorem test_decode_nfGetSlow : decode (.how 0x0000001B) = .ok .nfGetSlow := by rfl
theorem test_decode_nfSetSlow : decode (.how 0x0000001C) = .ok .nfSetSlow := by rfl
theorem test_decode_nfGetSecen : decode (.how 0x0000001D) = .ok .nfGetSecen := by rfl
theorem test_decode_k1Encode : decode (.how 0x00000020) = .ok .k1Encode := by rfl
theorem test_decode_k1Derive : decode (.how 0x00000021) = .ok .k1Derive := by rfl
theorem test_decode_k2Seed : decode (.how 0x00000022) = .ok .k2Seed := by rfl
theorem test_decode_inspectEncState : decode (.how 0x00000006) = .ok .inspectEncState := by rfl
theorem test_decode_inspectSchedValid : decode (.how 0x00000106) = .ok .inspectSchedValid := by rfl
theorem test_decode_inspectHwSeed : decode (.how 0x00000206) = .ok .inspectHwSeed := by rfl
theorem test_decode_inspectRawChipId : decode (.how 0x00000306) = .ok .inspectRawChipId := by rfl
theorem test_decode_inspectHdrGameCode : decode (.how 0x00000406) = .ok .inspectHdrGameCode := by rfl
theorem test_decode_inspectHdrKey1Timing : decode (.how 0x00000506) = .ok .inspectHdrKey1Timing := by rfl
theorem test_decode_inspectHdrKey2Timing : decode (.how 0x00000606) = .ok .inspectHdrKey2Timing := by rfl
theorem test_decode_inspectK2SeedByte : decode (.how 0x00000706) = .ok .inspectK2SeedByte := by rfl
theorem test_decode_inspectK1Key0 : decode (.how 0x00000806) = .ok .inspectK1Key0 := by rfl
theorem test_decode_inspectK1Key1 : decode (.how 0x00000906) = .ok .inspectK1Key1 := by rfl
theorem test_decode_inspectK1Key2 : decode (.how 0x00000A06) = .ok .inspectK1Key2 := by rfl
theorem test_decode_inspectK1Ij : decode (.how 0x00000B06) = .ok .inspectK1Ij := by rfl
theorem test_decode_inspectK1K : decode (.how 0x00000C06) = .ok .inspectK1K := by rfl
theorem test_decode_inspectK1L : decode (.how 0x00000D06) = .ok .inspectK1L := by rfl
theorem test_decode_inspectK1Flags : decode (.how 0x00000E06) = .ok .inspectK1Flags := by rfl
theorem test_decode_inspectK1Sched : decode (.how 0x00000F06) = .ok .inspectK1Sched := by rfl
theorem test_decode_inspectK2Mn : decode (.how 0x00001006) = .ok .inspectK2Mn := by rfl
theorem test_decode_inspectK2Flags : decode (.how 0x00001106) = .ok .inspectK2Flags := by rfl
theorem test_decode_inspectK2ChipId : decode (.how 0x00001206) = .ok .inspectK2ChipId := by rfl
theorem test_decode_inspectK2X : decode (.how 0x00001306) = .ok .inspectK2X := by rfl
theorem test_decode_inspectK2Y : decode (.how 0x00001406) = .ok .inspectK2Y := by rfl

/-! Illegal words (95_test_vectors 3.7). -/

theorem test_illegal_selector : decode (.how 0x00001506) = .error .unknownSelector := by rfl
theorem test_illegal_opcode_07 : decode (.how 0x00000007) = .error .unknownOpcode := by rfl
theorem test_illegal_opcode_ff : decode (.how 0x000000FF) = .error .unknownOpcode := by rfl
theorem test_illegal_selector_not_zero : decode (.how 0x00000101) = .error .selectorNotZero := by rfl
theorem test_illegal_reserved : decode (.how 0x00010001) = .error .reservedBits := by rfl

/-! The bus words (95_test_vectors 3.3, 3.4 and program P2; candidates, log 5). -/

theorem test_decode_busDummy : decode (.bus 0x000000000000009F) = .ok .busDummy := by rfl
theorem test_decode_busRawChipid : decode (.bus 0x0000000000000090) = .ok .busRawChipid := by rfl
theorem test_decode_busHeaderRead : decode (.bus 0x0000000000000000) = .ok .busHeaderRead := by rfl
theorem test_decode_busKey2Chipid : decode (.bus 0x00000000000000B8) = .ok .busKey2Chipid := by rfl
theorem test_decode_busActivateKey1 :
    decode (.bus 0x00469D0373A4113C) = .ok (.busActivateKey1 0x11A473 0x39D46) := by rfl
theorem test_decode_busKey2SeedInit :
    decode (.bus 0x469DE3AC990C0040) = .ok (.busKey2SeedInit 0 0xC99ACE 0x39D46) := by rfl
theorem test_decode_busKey1Chipid :
    decode (.bus 0x5634F2DEBC4A2311) = .ok (.busKey1Chipid 0x1234 0xABCDEF 0x23456) := by rfl
theorem test_decode_busSecureRead :
    decode (.bus 0x4B9D33471A710020) = .ok (.busSecureRead 7 0x11A473 0x39D4B) := by rfl
theorem test_decode_busActivateKey2 :
    decode (.bus 0x489D33471A0100A0) = .ok (.busActivateKey2 0 0x11A473 0x39D48) := by rfl
theorem test_key1_layout_all_ones : key1LayoutCandidate 0xF 0xFFFF 0xFFFFFF 0xFFFFF = 0xFFFFFFFFFFFFFFFF := by rfl
theorem test_key1_layout_counter : key1LayoutCandidate 0 0 0 0xFFFFF = 0xFFFF0F0000000000 := by rfl
theorem test_act_layout_all_ones : actLayoutCandidate 0xFF 0xFFFFFF 0xFFFFF = 0x00FFFF0FFFFFFFFF := by rfl

/-! ## Control words (95_test_vectors S2 to S4 and 3.1) -/

/-- The reset state with the operand ports driven. -/
def withPorts (a b c : U32) : State := { State.reset with ports := ⟨0, a, b, c, []⟩ }

/-- What a next state holds on `RES0`. -/
def res0Of : Host.Outcome State Fault Refusal → Option U64
  | .next t => t.res0
  | _ => none

/-- What a next state holds on `RES1`. -/
def res1Of : Host.Outcome State Fault Refusal → Option U64
  | .next t => t.res1
  | _ => none

/-- What a next state holds on `STATUS`. -/
def statusOf : Host.Outcome State Fault Refusal → Option Status
  | .next t => t.status
  | _ => none

theorem test_nfGetPredelay_a : res0Of (exec .nfGetPredelay (withPorts 0xFFFFFFFF 0x0 0x0)) = some 0x1FFF := by decide
theorem test_nfGetPredelay_b : res0Of (exec .nfGetPredelay (withPorts 0x604100 0x0 0x0)) = some 0x100 := by decide
theorem test_nfGetPostdelay_a : res0Of (exec .nfGetPostdelay (withPorts 0xFFFFFFFF 0x0 0x0)) = some 0x3F := by decide
theorem test_nfGetPostdelay_b : res0Of (exec .nfGetPostdelay (withPorts 0x604100 0x0 0x0)) = some 0x20 := by decide
theorem test_nfGetPulse_a : res0Of (exec .nfGetPulse (withPorts 0x10000000 0x0 0x0)) = some 0x1 := by decide
theorem test_nfGetPulse_b : res0Of (exec .nfGetPulse (withPorts 0xEFFFFFFF 0x0 0x0)) = some 0x0 := by decide
theorem test_nfGetSlow_a : res0Of (exec .nfGetSlow (withPorts 0x8180000 0x0 0x0)) = some 0x1 := by decide
theorem test_nfGetSlow_b : res0Of (exec .nfGetSlow (withPorts 0xF7FFFFFF 0x0 0x0)) = some 0x0 := by decide
theorem test_nfGetCmdenc_a : res0Of (exec .nfGetCmdenc (withPorts 0x604100 0x0 0x0)) = some 0x1 := by decide
theorem test_nfGetCmdenc_b : res0Of (exec .nfGetCmdenc (withPorts 0xFFBFFFFF 0x0 0x0)) = some 0x0 := by decide
theorem test_nfGetDataenc_a : res0Of (exec .nfGetDataenc (withPorts 0x604100 0x0 0x0)) = some 0x0 := by decide
theorem test_nfGetDataenc_b : res0Of (exec .nfGetDataenc (withPorts 0x6000 0x0 0x0)) = some 0x1 := by decide
theorem test_nfGetSecen_a : res0Of (exec .nfGetSecen (withPorts 0x604100 0x0 0x0)) = some 0x1 := by decide
theorem test_nfGetSecen_b : res0Of (exec .nfGetSecen (withPorts 0x200100 0x0 0x0)) = some 0x0 := by decide
theorem test_nfSetPredelay_a : res0Of (exec .nfSetPredelay (withPorts 0xFFFFFFFF 0x2000 0x0)) = some 0xFFFFE000 := by decide
theorem test_nfSetPredelay_b : res0Of (exec .nfSetPredelay (withPorts 0x0 0x1FFF 0x0)) = some 0x1FFF := by decide
theorem test_nfSetPostdelay_a : res0Of (exec .nfSetPostdelay (withPorts 0xFFFFFFFF 0x0 0x0)) = some 0xFFC0FFFF := by decide
theorem test_nfSetPostdelay_b : res0Of (exec .nfSetPostdelay (withPorts 0x0 0x40 0x0)) = some 0x0 := by decide
theorem test_nfSetPulse_a : res0Of (exec .nfSetPulse (withPorts 0x0 0x1 0x0)) = some 0x10000000 := by decide
theorem test_nfSetPulse_b : res0Of (exec .nfSetPulse (withPorts 0xFFFFFFFF 0x0 0x0)) = some 0xEFFFFFFF := by decide
theorem test_nfSetSlow_a : res0Of (exec .nfSetSlow (withPorts 0x0 0x1 0x0)) = some 0x8000000 := by decide
theorem test_nfSetSlow_b : res0Of (exec .nfSetSlow (withPorts 0xFFFFFFFF 0x0 0x0)) = some 0xF7FFFFFF := by decide
theorem test_nfSetCmdenc_a : res0Of (exec .nfSetCmdenc (withPorts 0x406000 0x0 0x0)) = some 0x6000 := by decide
theorem test_nfSetCmdenc_b : res0Of (exec .nfSetCmdenc (withPorts 0x0 0x7 0x0)) = some 0x404000 := by decide
theorem test_nfSetDataenc_a : res0Of (exec .nfSetDataenc (withPorts 0x400000 0x0 0x0)) = some 0x400000 := by decide
theorem test_nfSetDataenc_b : res0Of (exec .nfSetDataenc (withPorts 0xFFFFFFFF 0x0 0x0)) = some 0xFFFFDFFF := by decide
theorem test_nfConstruct_a : res0Of (exec .nfConstruct (withPorts 0x100 0x20 0x2)) = some 0x604100 := by decide
theorem test_nfConstruct_b : res0Of (exec .nfConstruct (withPorts 0x1FFF 0x3F 0xFF)) = some 0x187F7FFF := by decide
theorem test_clear_cmdenc_clears_enable : nfSetCmdenc 0x00604100 false = 0x00200100 := by decide
theorem test_round_trip_sample : nfConstruct 0x5A5 0x15 true false true false = 0x101565A5 := by decide

/-! ## Key derivation, the encoder and the seeder (95_test_vectors S1, 3.2, 3.3, 3.5) -/

theorem test_k1Derive_res0 : res0Of (exec .k1Derive (withPorts 0x41424344 0 0)) = some 0x20A121A241424344 := by decide
theorem test_k1Derive_res1 : res1Of (exec .k1Derive (withPorts 0xFFFFFFFF 0 0)) = some 0xFFFFFFFE := by decide

/-- The test configuration of 95_test_vectors section 2, with a schedule of four words and the given cipher. -/
def testCfg (cipher : U64 → U64) : Cfg :=
  candidateCfg 4 true 0x18 0x40000 0 (fun s k => (s, k)) fun _ b => cipher b

/-- The registers after SETUP of the spec's program P2. -/
def setupRegs : Regs := { Regs.reset with
  encState := .raw, schedValid := true, rawChipId := some 0x00003FC2, hdrGameCode := some 0x41424344
  hdrKey1Timing := some 0x001808F8, hdrKey2Timing := some 0x00586000, k2SeedByte := some 5
  k1Sched := some [0, 0, 0, 0], k1Key := some ⟨0x41424344, 0x20A121A2, 0x82848688⟩ }

/-- The registers after BEGIN1 of the spec's program P2. -/
def key1Regs : Regs := { setupRegs with
  encState := .key1, k1Ij := some 0x11A473, k1K := some 0x39D48, k1L := some 0, k1Flags := some 0x005868F8
  k2Mn := some 0xC99ACE, k2ChipId := some 0x00003FC2, k2X := some 0x64CD67608F, k2Y := some 0x5C879B9B05 }

/-- An idle engine with the given registers, operand ports and platform answers. -/
def idle (regs : Regs) (ports : HostOp) (answers : List Answer) : State :=
  { State.reset with regs := regs, ports := ports, answers := answers.map some }

/-- No operands. -/
def noPorts : HostOp := ⟨0, 0, 0, 0, []⟩

/-- A good answer with no listed byte, and the chip-id answer `C2 3F 00 00`. -/
def good : Answer := ⟨0, []⟩
def chipId : Answer := ⟨0, [(0, 0xC2), (1, 0x3F)]⟩

/-- A failing answer. -/
def bad (n : Nat) : Answer := ⟨-(BitVec.ofNat 32 n), []⟩

/-- A delay or a seed returns: nothing of its answer is read, a negative status neither (60_exceptions R212, R213). -/
def returns : Answer := bad 1

/-- The header answer of 95_test_vectors section 2. -/
def header : Answer := ⟨0, [(0x0C, 0x44), (0x0D, 0x43), (0x0E, 0x42), (0x0F, 0x41), (0x13, 0x05), (0x61, 0x60),
  (0x62, 0x58), (0x64, 0xF8), (0x65, 0x08), (0x66, 0x18)]⟩

theorem test_k1Encode_word : res0Of (k1EncodeOp (testCfg id) (idle key1Regs ⟨0x20, 1, 0, 0x11A473, []⟩ []))
    = some 0x489D33471A010010 := by decide
theorem test_k1Encode_swaps : res0Of (k1EncodeOp (testCfg fun b => b ^^^ 0xFF)
    (idle { key1Regs with k1K := some 0x39D46 } ⟨0x20, 1, 0, 0x11A473, []⟩ [])) = some 0xB99D33471A010010 := by decide
theorem test_k1Encode_wide : statusOf (k1EncodeOp (testCfg id) (idle key1Regs ⟨0x20, 0x10, 0, 0, []⟩ []))
    = some ⟨0x11, 0, 1⟩ := by decide
theorem test_k2Seed_x : res0Of (k2SeedOp (testCfg id) (withPorts 0xFF 0xC99ACE 0)) = some 0x64CD6760D5 := by decide
theorem test_k2Seed_wide : statusOf (k2SeedOp (testCfg id) (withPorts 0x100 0 0)) = some ⟨0x11, 0, 1⟩ := by decide

/-! ## State-machine operations (95_test_vectors 3.6 and section 4) -/

/-- The state a next state holds, or the given state. -/
def after (s : State) : Host.Outcome State Fault Refusal → State
  | .next t => t
  | _ => s

/-- The end of an operation under the test configuration. -/
def ended (o : Host.Outcome State Fault Refusal) : State := drive (testCfg id) maxSteps (after .reset o)

theorem test_init_registers :
    (ended (exec .init (idle .reset ⟨1, 0, 0, 0, []⟩ [good, good, returns, chipId, header]))).regs
      = { Regs.reset with
        encState := .raw, rawChipId := some 0x00003FC2, hdrGameCode := some 0x41424344
        hdrKey1Timing := some 0x001808F8, hdrKey2Timing := some 0x00586000, k2SeedByte := some 5 } := by decide
theorem test_init_header_fails :
    let t := ended (exec .init (idle .reset ⟨1, 0, 0, 0, []⟩ [good, good, returns, chipId, bad 4]))
    t.status = some ⟨1, 3, 0xFFFFFFFC⟩ ∧ t.regs = .reset ∧ t.trace.length = 5 := by decide
theorem test_setup_key : (ended (setupOp (testCfg id)
    (idle { setupRegs with schedValid := false, k1Sched := none, k1Key := none }
      ⟨2, 0, 0, 0, [0, 0, 0, 0]⟩ []))).regs = setupRegs := by decide
theorem test_setup_size : statusOf (setupOp (testCfg id) (idle setupRegs ⟨2, 0, 0, 0, [0, 0, 0]⟩ []))
    = some ⟨0x11, 0, 2⟩ := by decide
theorem test_begin1_registers :
    (ended (exec .begin1 (idle setupRegs ⟨3, 0, 0, 0, []⟩ [good, good, returns, chipId]))).regs = key1Regs := by decide
theorem test_begin1_trace :
    (ended (exec .begin1 (idle setupRegs ⟨3, 0, 0, 0, []⟩ [good, good, returns, chipId]))).trace
      = [.send 0x00469D0373A4113C 0 0x00180000 (some 0), .send 0x469DE3AC990C0040 0 0x001808F8 (some 0),
        .seed 0x64CD67608F 0x5C879B9B05, .send 0x479D33471A010010 4 0x005868F8 (some 0)] := by decide
theorem test_readsec_statuses :
    let t := ended (exec .readsec (idle key1Regs ⟨4, 0, 0, 0, []⟩ [good, bad 2, good, bad 9]))
    t.status = some ⟨1, 2, 0xFFFFFFFE⟩
      ∧ t.chunk = #v[some ⟨0, 0, 0⟩, some ⟨1, 2, 0xFFFFFFFE⟩, some ⟨0, 0, 0⟩, some ⟨1, 4, 0xFFFFFFF7⟩]
      ∧ t.regs.k1K = some 0x39D4C := ⟨rfl, rfl, rfl⟩
theorem test_readsec_trace :
    (ended (exec .readsec (idle key1Regs ⟨4, 0, 0, 0, []⟩ [good, good, good, good]))).trace
      = [.send 0x489D33471A410020 0x1000 0x005868F8 (some 0), .send 0x499D33471A510020 0x1000 0x005868F8 (some 0),
        .send 0x4A9D33471A610020 0x1000 0x005868F8 (some 0),
        .send 0x4B9D33471A710020 0x1000 0x005868F8 (some 0)] := by decide
theorem test_begin2_trace :
    (ended (exec .begin2 (idle key1Regs ⟨5, 0, 0, 0, []⟩ [good, chipId]))).trace
      = [.send 0x489D33471A0100A0 0 0x005868F8 (some 0), .send 0xB8 4 0x08586000 (some 0)] := by decide
/-- Program P6: a mismatch in the id's top bit. -/
theorem test_begin2_mismatch :
    let t := ended (exec .begin2 (idle key1Regs ⟨5, 0, 0, 0, []⟩
      [good, ⟨0, [(0, 0xC2), (1, 0x3F), (3, 0x80)]⟩]))
    t.status = some ⟨2, 0, 0⟩ ∧ t.regs.encState = .unknown ∧ t.regs.k2ChipId = some 0x80003FC2
      ∧ t.regs.k1K = some 0x39D49 ∧ t.regs.k2Flags = some 0x08586000 := by decide

/-! An outstanding request: its event is in the trace before its answer, and the sequencer waits (60_exceptions R203, R214). -/

/-- INIT waiting for the link reset. -/
def waiting : State :=
  { State.reset with seq := .wait .initReset ⟨.reset, false, [], []⟩, trace := [.reset none] }

theorem test_outstanding_reset :
    seqStep (testCfg id) (after .reset (exec .init .reset)) = waiting := by decide
theorem test_late_answer :
    (seqStep (testCfg id) { waiting with answers := [some (bad 7)] }).trace = [.reset (some (-(7 : U32)))]
      ∧ (seqStep (testCfg id) { waiting with answers := [some (bad 7)] }).status = some ⟨1, 0, -(7 : U32)⟩ := by decide

/-- INIT waiting for its delay. -/
def delaying : State :=
  { State.reset with
    seq := .wait .initDelay ⟨.reset, false, [], []⟩
    trace := [.reset (some 0), .send 0x9F 0x2000 0x08180000 (some 0), .delay 0x40000] }

/-- BEGIN1 waiting for its seed. -/
def seeding : State :=
  { State.reset with
    regs := setupRegs
    seq := .wait .begin1PlatformSeed ⟨{ loadConstants setupRegs with
      k1Flags := some 0x001808F8, k1K := some 0x39D47, k2X := some 0x64CD67608F, k2Y := some 0x5C879B9B05 },
      true, [], []⟩
    trace := [.send 0x00469D0373A4113C 0 0x00180000 (some 0), .send 0x469DE3AC990C0040 0 0x001808F8 (some 0),
      .seed 0x64CD67608F 0x5C879B9B05] }

/-- The delay and the seed are blocking waits (60_exceptions R203): the operation stays there until they return. -/
theorem test_unanswered_delay :
    ended (exec .init (idle .reset noPorts [good, good])) = delaying ∧ seqStep (testCfg id) delaying = delaying := by
  decide
theorem test_answered_delay :
    (seqStep (testCfg id) { delaying with answers := [some returns] }).seq
      = .run .initRawChipid ⟨.reset, false, [], []⟩ := by decide
theorem test_unanswered_seed :
    ended (exec .begin1 (idle setupRegs noPorts [good, good])) = seeding ∧ seqStep (testCfg id) seeding = seeding := by
  decide
/-- Without hardware seeding there is no seed, and nothing to wait for (60_exceptions R213). -/
theorem test_no_seed_request :
    let cfg : Cfg := { testCfg id with hwSeed := false }
    let t := drive cfg maxSteps (after .reset (exec .begin1 (idle setupRegs noPorts [good, good, chipId])))
    t.regs = key1Regs ∧ t.trace.length = 3 := by decide

/-! ## INSPECT (95_test_vectors 3.6) -/

/-- What INSPECT gives on `RES0`. -/
def inspectedValue (i : Instr) (r : Regs) : Option U64 := (ended (exec i (idle r ⟨0, 0, 0, 0, []⟩ []))).res0

theorem test_inspectEncState : inspectedValue .inspectEncState key1Regs = some 2 := by decide
theorem test_inspectSchedValid : inspectedValue .inspectSchedValid key1Regs = some 1 := by decide
theorem test_inspectHwSeed : inspectedValue .inspectHwSeed .reset = some 1 := by decide
theorem test_inspectRawChipId : inspectedValue .inspectRawChipId key1Regs = some 0x00003FC2 := by decide
theorem test_inspectHdrGameCode : inspectedValue .inspectHdrGameCode key1Regs = some 0x41424344 := by decide
theorem test_inspectHdrKey1Timing : inspectedValue .inspectHdrKey1Timing key1Regs = some 0x001808F8 := by decide
theorem test_inspectHdrKey2Timing : inspectedValue .inspectHdrKey2Timing key1Regs = some 0x00586000 := by decide
theorem test_inspectK2SeedByte : inspectedValue .inspectK2SeedByte key1Regs = some 5 := by decide
theorem test_inspectK1Key0 : inspectedValue .inspectK1Key0 key1Regs = some 0x41424344 := by decide
theorem test_inspectK1Key1 : inspectedValue .inspectK1Key1 key1Regs = some 0x20A121A2 := by decide
theorem test_inspectK1Key2 : inspectedValue .inspectK1Key2 key1Regs = some 0x82848688 := by decide
theorem test_inspectK1Ij : inspectedValue .inspectK1Ij key1Regs = some 0x11A473 := by decide
theorem test_inspectK1K : inspectedValue .inspectK1K key1Regs = some 0x39D48 := by decide
theorem test_inspectK1L : inspectedValue .inspectK1L { key1Regs with k1L := some 0xFFFF } = some 0xFFFF := by decide
theorem test_inspectK1Flags : inspectedValue .inspectK1Flags key1Regs = some 0x005868F8 := by decide
theorem test_inspectK2Mn : inspectedValue .inspectK2Mn key1Regs = some 0xC99ACE := by decide
theorem test_inspectK2Flags :
    inspectedValue .inspectK2Flags { key1Regs with k2Flags := some 0x08586000 } = some 0x08586000 := by decide
theorem test_inspectK2ChipId : inspectedValue .inspectK2ChipId key1Regs = some 0x00003FC2 := by decide
theorem test_inspectK2X : inspectedValue .inspectK2X key1Regs = some 0x64CD67608F := by decide
theorem test_inspectK2Y : inspectedValue .inspectK2Y key1Regs = some 0x5C879B9B05 := by decide
theorem test_inspectK1Sched_entry : (ended (inspectSchedOp (testCfg id)
    (idle { key1Regs with k1Sched := some [1, 2, 3, 9] } ⟨0, 3, 0, 0, []⟩ []))).res0 = some 9 := by decide
theorem test_inspectK1Sched_index : statusOf (inspectSchedOp (testCfg id) (withPorts 4 0 0)) = some ⟨0x11, 0, 4⟩ := by
  decide
theorem test_inspectK1K_unwritten : (ended (exec .inspectK1K .reset)).status = some ⟨0x12, 0, 0x0C⟩ := by decide

/-! ## Bus commands: the stages of program P2 -/

/-- A running engine with the given registers, step, working copy and answers. -/
def running (regs : Regs) (p : Position) (w : Regs) (answers : List Answer) : State :=
  { State.reset with regs := regs, seq := .run p ⟨w, false, [], []⟩, answers := answers.map some }

/-- The registers of the working copy of a running operation. -/
def workRegs (s : State) : Option Regs :=
  match s.seq with
  | .idle => none
  | .run _ w => some w.regs
  | .wait _ w => some w.regs

theorem test_busDummy_next :
    (after .reset (exec .busDummy (running .reset .initDummy .reset [good]))).seq
      = .run .initDelay ⟨.reset, false, [], []⟩ := rfl
theorem test_busRawChipid_id :
    (workRegs (seqStep Config.cfg (after .reset (exec .busRawChipid (running .reset .initRawChipid .reset [chipId]))))).map
      (fun r => r.rawChipId) = some (some 0x00003FC2) := rfl
theorem test_busHeaderRead_gameCode :
    (toEnd (after .reset (exec .busHeaderRead (running .reset .initHeaderRead .reset [header])))).regs.hdrGameCode
      = some 0x41424344 := rfl
theorem test_busActivateKey1_event :
    (drive (testCfg id) 1 (running setupRegs (.begin1Activate 0x11A473 0x39D46) (loadConstants setupRegs) [good])).trace
      = [.send 0x00469D0373A4113C 0 0x00180000 (some 0)] := by decide
theorem test_busKey2SeedInit_events :
    (drive (testCfg id) 3 (running setupRegs (.begin1SeedInit 0 0xC99ACE 0x39D46)
      { loadConstants setupRegs with k1Flags := some 0x001808F8 } [good, returns])).trace
      = [.send 0x469DE3AC990C0040 0 0x001808F8 (some 0), .seed 0x64CD67608F 0x5C879B9B05] := by decide
theorem test_busKey1Chipid_mismatch :
    (toEnd (after .reset (exec (.busKey1Chipid 0 0x11A473 0x39D47)
      (running setupRegs (.begin1Chipid 0 0x11A473 0x39D47) key1Regs [good])))).status = some ⟨2, 0, 0⟩ := rfl
theorem test_busSecureRead_chunk :
    (after .reset (exec (.busSecureRead 7 0x11A473 0x39D48)
      (running key1Regs (.readsecRead 3 7 0x11A473 0x39D48) key1Regs [bad 5]))).chunk
      = #v[none, none, none, some ⟨1, 4, 0xFFFFFFFB⟩] := rfl
theorem test_busActivateKey2_counter :
    (workRegs (after .reset (exec (.busActivateKey2 0 0x11A473 0x39D48)
      (running key1Regs (.begin2Activate 0 0x11A473 0x39D48) key1Regs [good])))).map (fun r => r.k1K)
      = some (some 0x39D49) := rfl
theorem test_busKey2Chipid_enters_key2 :
    (toEnd (after .reset (exec .busKey2Chipid (running key1Regs .begin2Chipid
      { key1Regs with k2Flags := some 0x08586000 } [chipId])))).regs.encState = .key2 := rfl

/-! ## Legacy codes (95_test_vectors S10), host text (30_encoding R83, R84) -/

theorem test_legacy_code : legacyCode ⟨1, 2, -(5 : U32)⟩ = some (-205) := by decide
theorem test_legacy_code_stage_0 : legacyCode ⟨1, 0, -(1 : U32)⟩ = some (-1) := by decide

/-! ## The table's words (the interface functions) -/

theorem test_decodeTableWord_host : decodeTableWord 32 0x0C06 = some .inspectK1K := rfl
theorem test_decodeTableWord_bus : decodeTableWord 64 0xB8 = some .busKey2Chipid := rfl
theorem test_withFetchWord_host :
    (toEnd (after .reset (step (State.reset.withFetchWord 32 0x0006)))).status = some ⟨0, 0, 0⟩ := rfl

/-! ## The text of host programs (30_encoding R83, R84; 95_test_vectors P1) -/

theorem test_parse_construct :
    (parseLine [] "nf.construct 0x100, 0x20, 0, 1, 0, 0 ; P1".toList).map (fun l => l.map (assemble none))
      = some [some ⟨0x10, 0x100, 0x20, 2, []⟩] := by decide
theorem test_parse_inspect_schedule :
    (parseLine [] "inspect K1_SCHED, 5".toList).map (fun l => l.map (assemble none))
      = some [some ⟨0x0F06, 5, 0, 0, []⟩] := by decide
theorem test_parse_set_enc :
    parseLine [] "nf.set.enc res0, 1".toList
      = some [⟨.nfSetCmdenc, [.res0, .num 1], []⟩, ⟨.nfSetDataenc, [.res0, .num 1], []⟩] := by decide

/-! ## Witnesses: states and operands that meet the hypotheses of the statements

The engine's configuration is opaque, so a schedule of the configured size is written with its length left open. -/

/-- A schedule of the configured size. -/
def zeroSchedule : List U32 := List.replicate Config.cfg.schedWords 0

theorem zeroSchedule_length : zeroSchedule.length = Config.cfg.schedWords := by simp [zeroSchedule]

/-- The registers after INIT, after SETUP, and in the two regimes and UNKNOWN, with a schedule of the configured size. -/
def rawW : Regs := { setupRegs with schedValid := false, k1Sched := none, k1Key := none }
def setupW : Regs := { setupRegs with k1Sched := some zeroSchedule }
def key1W : Regs := { key1Regs with k1Sched := some zeroSchedule }
def key2W : Regs := { key1W with encState := .key2, k2Flags := some 0x08586000 }
def unknownW : Regs := { key1W with encState := .unknown, k2ChipId := some 0 }

/-- The reset state with a host operation to come. -/
def offers (s : State) (how : U32) : State := { s with host := [.op ⟨how, 0, 0, 0, []⟩] }

theorem scheduleOk_zero {r : Regs} (hs : r.k1Sched = some zeroSchedule) (hk : r.k1Key.isSome = true)
    (hv : r.schedValid = true) : ScheduleOk Config.cfg r := by
  refine ⟨by simp [hs, hv], by simp [hk, hv], ?_⟩
  intro l hl
  rw [hs] at hl
  injection hl with hl
  rw [← hl, zeroSchedule_length]

theorem regsOk_reset : RegsOk Config.cfg .reset := ⟨⟨rfl, rfl, fun _ h => by cases h⟩, rfl⟩
theorem regsOk_raw : RegsOk Config.cfg rawW := ⟨⟨rfl, rfl, fun _ h => by cases h⟩, rfl, rfl, fun h => by cases h⟩
theorem regsOk_setup : RegsOk Config.cfg setupW := ⟨scheduleOk_zero rfl rfl rfl, rfl, rfl, fun h => by cases h⟩
theorem regsOk_key1 : RegsOk Config.cfg key1W := ⟨scheduleOk_zero rfl rfl rfl, rfl, rfl, rfl, rfl⟩
theorem regsOk_key2 : RegsOk Config.cfg key2W := ⟨scheduleOk_zero rfl rfl rfl, rfl, rfl, rfl, rfl⟩
theorem regsOk_unknown : RegsOk Config.cfg unknownW := ⟨scheduleOk_zero rfl rfl rfl, rfl, rfl, rfl⟩

theorem good_idle {r : Regs} (h : RegsOk Config.cfg r) (p : HostOp) (a : List Answer) : GoodState (idle r p a) :=
  ⟨h, trivial, fun _ hx => absurd hx List.not_mem_nil⟩

/-- A host operation to come changes nothing of it. -/
theorem good_offers {r : Regs} (h : RegsOk Config.cfg r) (how : U32) : GoodState (offers (idle r ⟨0, 0, 0, 0, []⟩ []) how) :=
  ⟨h, trivial, fun _ hx => absurd hx List.not_mem_nil⟩

/-! ### Encoding -/

theorem witness_DecodeOfEncodeIsTheInstruction :
    (Instr.busSecureRead 7 0xFFFFFF 0xFFFFF).wellFormed = true ∧ Instr.init.wellFormed = true := ⟨rfl, rfl⟩

theorem witness_EveryHostWordIsOneRowOrIllegal :
    illegalWord 0x00001506 = true ∧ illegalWord 0x00000007 = true ∧ illegalWord 0x00000101 = true
      ∧ illegalWord 0x00010001 = true ∧ illegalWord 0x00001406 = false ∧ illegalWord 0x00000022 = false := by decide

/-! ### The step -/

theorem witness_StepRunsTheHostOperation :
    (offers .reset 0x11).seq = .idle ∧ (offers .reset 0x11).host = .op ⟨0x11, 0, 0, 0, []⟩ :: []
      ∧ decode (.how 0x11) = .ok .nfGetPredelay ∧ Instr.nfGetPredelay.wellFormed = true := ⟨rfl, rfl, rfl, rfl⟩

/-- A step that sends a bus command, a step that sends none with an operation offered, and nothing from the host. -/
theorem witness_StepRunsTheOutstandingCommand :
    (let s := running key1W (.readsecRead 3 7 0x11A473 0x39D48) key1W [];
      s.seq = .run (.readsecRead 3 7 0x11A473 0x39D48) ⟨key1W, false, [], []⟩ ∧ resetNext s = false
        ∧ positionInstr (.readsecRead 3 7 0x11A473 0x39D48) = some (.busSecureRead 7 0x11A473 0x39D48))
      ∧ (let s := offers (running .reset .initDelay .reset []) 0x11;
        s.seq = .run .initDelay ⟨.reset, false, [], []⟩ ∧ resetNext s = false)
      ∧ waiting.seq = .wait .initReset ⟨.reset, false, [], []⟩ ∧ waiting.host = [] :=
  ⟨⟨rfl, rfl, rfl⟩, ⟨rfl, rfl⟩, rfl, rfl⟩

/-- The reset state under a latched fault. -/
def faulted : State := { State.reset with fault := some ⟨.contract, 3⟩ }

/-- Without a fault, and under a latched one. -/
theorem witness_IllegalWordLatchesIllegalOp :
    Ready (offers .reset 0x00001506) ∧ (offers .reset 0x00001506).host = .op ⟨0x00001506, 0, 0, 0, []⟩ :: []
      ∧ illegalWord 0x00001506 = true ∧ (offers faulted 0x00001506).seq = .idle
      ∧ (offers faulted 0x00001506).host = .op ⟨0x00001506, 0, 0, 0, []⟩ :: []
      ∧ (offers faulted 0x00001506).fault = some ⟨.contract, 3⟩ := ⟨⟨rfl, rfl⟩, rfl, by decide, rfl, rfl, rfl⟩

theorem witness_BlockResetGivesTheResetState :
    ({ running key1W .begin2Chipid key1W [] with host := [.blockReset] } : State).host = .blockReset :: [] := rfl

theorem witness_LatchedFaultAnswersEveryOperation :
    isHostOperation .k2Seed = true ∧ faulted.seq = .idle ∧ faulted.fault = some ⟨.contract, 3⟩ := ⟨rfl, rfl, rfl⟩

theorem witness_BusyEngineRefusesHostOperations :
    isHostOperation .init = true ∧ waiting.seq = .wait .initReset ⟨.reset, false, [], []⟩
      ∧ (running .reset .initDelay .reset []).seq = .run .initDelay ⟨.reset, false, [], []⟩ := ⟨rfl, rfl, rfl⟩

theorem good_waiting (a : List (Option Answer)) : GoodState { waiting with answers := a } :=
  ⟨regsOk_reset, ⟨rfl, rfl, _, ⟨rfl, rfl, rfl⟩, rfl⟩, [], _, rfl, rfl, fun _ hx => absurd hx List.not_mem_nil⟩

/-- A request without an answer (the delay among them), a step without one, and a request made before its answer is there. -/
theorem witness_UnansweredRequestIsStuck :
    (exchangeOf Config.cfg .initDelay).isSome = true ∧ (exchangeOf Config.cfg .initCapture).isSome = false
      ∧ (delaying.seq = .wait .initDelay ⟨.reset, false, [], []⟩ ∧ delaying.answers = [] ∧ hostQuiet delaying = true)
      ∧ (waiting.seq = .wait .initReset ⟨.reset, false, [], []⟩ ∧ waiting.answers = [] ∧ hostQuiet waiting = true)
      ∧ (let s := { waiting with answers := [none, some good] };
        GoodState s ∧ s.answers = none :: [some good] ∧ resetNext s = false)
      ∧ GoodState (running .reset .initReset .reset [])
      ∧ (running .reset .initReset .reset []).seq = .run .initReset ⟨.reset, false, [], []⟩
      ∧ (exchangeOf Config.cfg .initReset).isSome = true ∧ (running .reset .initReset .reset []).answers = [] :=
  ⟨rfl, rfl, ⟨rfl, rfl, rfl⟩, ⟨rfl, rfl, rfl⟩, ⟨good_waiting _, rfl, rfl⟩,
    ⟨regsOk_reset, ⟨rfl, rfl, rfl, rfl⟩, fun _ hx => absurd hx List.not_mem_nil⟩, rfl, rfl, rfl⟩

/-- At IDLE; at the step of another command; at the step of the same one with another argument; at a waiting step. -/
theorem witness_BusCommandNeedsItsStage :
    isHostOperation .busDummy = false ∧ State.reset.seq = .idle
      ∧ (running .reset .initRawChipid .reset []).seq = .run .initRawChipid ⟨.reset, false, [], []⟩
      ∧ positionInstr .initRawChipid ≠ some .busDummy
      ∧ isHostOperation (.busSecureRead 4 0x11A473 0x39D48) = false
      ∧ positionInstr (.readsecRead 1 5 0x11A473 0x39D48) ≠ some (.busSecureRead 4 0x11A473 0x39D48)
      ∧ waiting.seq = .wait .initReset ⟨.reset, false, [], []⟩ ∧ positionInstr .initReset ≠ some .busDummy :=
  ⟨rfl, rfl, rfl, by decide, rfl, by decide, rfl, by decide⟩

/-- INIT begins, goes from its delay to its next step, waits for its reset, and ends. -/
theorem witness_SequencerTakesItsStepsInOrder :
    (encode .init = .how 0x01 ∧ ∃ t, exec .init .reset = .next t ∧ t.seq ≠ .idle)
      ∧ (let s := running .reset .initDelay .reset [returns];
        s.fault = none ∧ s.seq = .run .initDelay ⟨.reset, false, [], []⟩ ∧ resetNext s = false ∧ ∃ t, step s = .next t)
      ∧ (waiting.fault = none ∧ resetNext waiting = false ∧ ∃ t, step waiting = .next t ∧ t.seq = waiting.seq)
      ∧ (let s := running .reset .initReturn .reset [];
        s.fault = none ∧ resetNext s = false ∧ ∃ t, step s = .next t ∧ t.seq = .idle) :=
  ⟨⟨rfl, _, rfl, fun h => by cases h⟩, ⟨rfl, rfl, rfl, _, rfl⟩, ⟨rfl, rfl, _, rfl, rfl⟩, rfl, rfl, _, rfl, rfl⟩

/-! ### Invariants: good states, running ones among them, and steps from them -/

/-- BEGIN1 at its chip-id request. -/
def atKey1Chipid (a : Answer) : State :=
  { State.reset with
    regs := setupW, answers := [some a]
    seq := .run (.begin1Chipid 0 0x11A473 0x39D47) ⟨{ loadConstants setupW with
      k1Flags := some 0x005868F8, k1K := some 0x39D47, k2X := some 0x64CD67608F, k2Y := some 0x5C879B9B05 },
      true, [], []⟩ }

/-- BEGIN2 at its chip-id request. -/
def atKey2Chipid (a : Answer) : State :=
  { State.reset with
    regs := key1W, answers := [some a]
    seq := .run .begin2Chipid ⟨{ key1W with k1K := some 0x39D49, k2Flags := some 0x08586000 }, true, [], []⟩ }

/-- BEGIN1 and BEGIN2 at the comparison of the chip id they read. -/
def atCompare1 (id : U32) : State :=
  { State.reset with
    regs := setupW
    seq := .run .begin1Compare ⟨{ loadConstants setupW with
      k1Flags := some 0x005868F8, k1K := some 0x39D48, k2X := some 0x64CD67608F, k2Y := some 0x5C879B9B05
      k2ChipId := some id }, true, [], []⟩ }
def atCompare2 (id : U32) : State :=
  { State.reset with
    regs := key1W
    seq := .run .begin2Compare ⟨{ key1W with
      k1K := some 0x39D49, k2Flags := some 0x08586000, k2ChipId := some id }, true, [], []⟩ }

/-- INIT at its end. -/
def atInitReturn : State := { State.reset with seq := .run .initReturn ⟨rawW, false, [], []⟩ }

/-- READSEC at its last secure read. -/
def atSecureRead (a : List Answer) : State :=
  { State.reset with
    regs := key1W, answers := a.map some
    seq := .run (.readsecRead 3 7 0x11A473 0x39D4B) ⟨{ key1W with k1K := some 0x39D4B }, true, [], []⟩ }

theorem good_atKey1Chipid (a : Answer) : GoodState (atKey1Chipid a) :=
  ⟨regsOk_setup, ⟨rfl, rfl, rfl, rfl, ⟨_, _, _, rfl⟩, rfl, rfl, rfl⟩, fun _ hx => absurd hx List.not_mem_nil⟩
theorem good_atKey2Chipid (a : Answer) : GoodState (atKey2Chipid a) :=
  ⟨regsOk_key1, ⟨rfl, rfl, rfl, 0x39D48, _, rfl, rfl⟩, fun _ hx => absurd hx List.not_mem_nil⟩
theorem good_atCompare1 (id : U32) : GoodState (atCompare1 id) :=
  ⟨regsOk_setup, ⟨rfl, rfl, rfl, rfl, _, _, _, _, rfl⟩, fun _ hx => absurd hx List.not_mem_nil⟩
theorem good_atCompare2 (id : U32) : GoodState (atCompare2 id) :=
  ⟨regsOk_key1, ⟨rfl, rfl, rfl, 0x39D48, _, _, rfl, rfl⟩, fun _ hx => absurd hx List.not_mem_nil⟩
theorem good_atInitReturn : GoodState atInitReturn :=
  ⟨regsOk_reset, ⟨rfl, rfl, rfl, rfl, rfl⟩, fun _ hx => absurd hx List.not_mem_nil⟩
theorem good_atSecureRead (a : List Answer) : GoodState (atSecureRead a) :=
  ⟨regsOk_key1, ⟨rfl, rfl, ⟨_, rfl, rfl⟩, rfl, rfl⟩, fun _ hx => absurd hx List.not_mem_nil⟩

/-- A good state steps to a next state: from IDLE, from a running and a waiting operation, and in KEY2 and UNKNOWN. -/
theorem witness_StepKeepsTheRegisterInvariant :
    (GoodState (atKey2Chipid chipId) ∧ ∃ t, step (atKey2Chipid chipId) = .next t)
      ∧ (GoodState (atSecureRead [bad 5]) ∧ ∃ t, step (atSecureRead [bad 5]) = .next t)
      ∧ (GoodState { waiting with answers := [some good] } ∧ ∃ t, step { waiting with answers := [some good] } = .next t)
      ∧ (GoodState (offers (idle key2W noPorts []) 0x0C06)
        ∧ ∃ t, step (offers (idle key2W noPorts []) 0x0C06) = .next t)
      ∧ (GoodState (offers (idle unknownW noPorts []) 0x05)
        ∧ ∃ t, step (offers (idle unknownW noPorts []) 0x05) = .next t) :=
  ⟨⟨good_atKey2Chipid _, _, rfl⟩, ⟨good_atSecureRead _, _, rfl⟩, ⟨good_waiting _, _, rfl⟩,
    ⟨good_offers regsOk_key2 _, _, rfl⟩, good_offers regsOk_unknown _, _, rfl⟩

theorem witness_StepKeepsBuffersCanonical :
    BuffersOk (atKey2Chipid chipId) ∧ ∃ t, step (atKey2Chipid chipId) = .next t := by
  refine ⟨⟨rfl, rfl, ?_, ?_⟩, _, rfl⟩
  · intro a ha
    simp only [atKey2Chipid, List.mem_singleton, Option.some.injEq] at ha
    subst ha
    decide
  · intro p w h
    simp only [atKey2Chipid, Seq.run.injEq, reduceCtorEq, or_false] at h
    rw [← h.2]
    exact ⟨rfl, rfl⟩

/-- An INIT that succeeds, BEGIN1 and BEGIN2 that match, a mismatch of each, and a block reset. -/
theorem witness_EncStateMovesAlongItsEdges :
    (GoodState atInitReturn ∧ ∃ t, step atInitReturn = .next t ∧ t.regs.encState = .raw)
      ∧ (GoodState (atCompare1 0x3FC2) ∧ ∃ t, step (atCompare1 0x3FC2) = .next t ∧ t.regs.encState = .key1)
      ∧ (GoodState (atCompare1 0) ∧ ∃ t, step (atCompare1 0) = .next t ∧ t.regs.encState = .unknown)
      ∧ (GoodState (atCompare2 0x3FC2) ∧ ∃ t, step (atCompare2 0x3FC2) = .next t ∧ t.regs.encState = .key2)
      ∧ (GoodState (atCompare2 0) ∧ ∃ t, step (atCompare2 0) = .next t ∧ t.regs.encState = .unknown)
      ∧ ∃ t, step { atKey2Chipid good with host := [.blockReset] } = .next t ∧ t.regs.encState = .uninit :=
  ⟨⟨good_atInitReturn, _, rfl, rfl⟩, ⟨good_atCompare1 _, _, rfl, rfl⟩, ⟨good_atCompare1 _, _, rfl, rfl⟩,
    ⟨good_atCompare2 _, _, rfl, rfl⟩, ⟨good_atCompare2 _, _, rfl, rfl⟩, _, rfl, rfl⟩

theorem witness_RegimesAreEnteredByTheChipIdCheck :
    (GoodState (atCompare1 0x3FC2)
        ∧ ∃ t, step (atCompare1 0x3FC2) = .next t ∧ t.regs.encState = .key1 ∧ t.regs.encState ≠ .raw)
      ∧ (GoodState (atCompare2 0)
        ∧ ∃ t, step (atCompare2 0) = .next t ∧ t.regs.encState = .unknown ∧ t.regs.encState ≠ .key1) :=
  ⟨⟨good_atCompare1 _, _, rfl, rfl, fun h => by cases h⟩, good_atCompare2 _, _, rfl, rfl, fun h => by cases h⟩

theorem witness_CapturedRegistersAreReadOnly :
    (GoodState (atKey2Chipid chipId) ∧ resetNext (atKey2Chipid chipId) = false
        ∧ ∃ t, step (atKey2Chipid chipId) = .next t)
      ∧ (GoodState atInitReturn ∧ resetNext atInitReturn = false ∧ ∃ t, step atInitReturn = .next t) :=
  ⟨⟨good_atKey2Chipid _, rfl, _, rfl⟩, good_atInitReturn, rfl, _, rfl⟩

theorem witness_OnlyBlockResetLeavesUnknownOrFault :
    (GoodState (offers (idle unknownW noPorts []) 0x03)
        ∧ resetNext (offers (idle unknownW noPorts []) 0x03) = false
        ∧ ∃ t, step (offers (idle unknownW noPorts []) 0x03) = .next t)
      ∧ (GoodState (offers faulted 0x06) ∧ resetNext (offers faulted 0x06) = false
        ∧ ∃ t, step (offers faulted 0x06) = .next t) :=
  ⟨⟨good_offers regsOk_unknown _, rfl, _, rfl⟩,
    ⟨regsOk_reset, trivial, fun _ hx => absurd hx List.not_mem_nil⟩, rfl, _, rfl⟩

theorem witness_KeystreamPairNeverChanges :
    GoodState (atCompare2 0x3FC2) ∧ resetNext (atCompare2 0x3FC2) = false
      ∧ (∃ t, step (atCompare2 0x3FC2) = .next t) ∧ (atCompare2 0x3FC2).regs.encState ≠ .uninit
      ∧ (atCompare2 0x3FC2).regs.encState ≠ .raw :=
  ⟨good_atCompare2 _, rfl, ⟨_, rfl⟩, (fun h => by cases h), fun h => by cases h⟩

/-- A step that appends an event, a step that answers the last one, and a request that is not answered yet. -/
theorem witness_TraceIsAppendOnly :
    (resetNext (atKey2Chipid chipId) = false ∧ ∃ t, step (atKey2Chipid chipId) = .next t ∧ t.trace.length = 1)
      ∧ (resetNext { waiting with answers := [some good] } = false
        ∧ ∃ t, step { waiting with answers := [some good] } = .next t ∧ t.trace = [.reset (some 0)])
      ∧ (let s := running .reset .initReset .reset [];
        GoodState s ∧ s.seq = .run .initReset ⟨.reset, false, [], []⟩ ∧ s.answers = [] ∧ resetNext s = false
          ∧ exchangeOf Config.cfg .initReset = some linkReset)
      ∧ (let s := running .reset .initDelay .reset [];
        GoodState s ∧ s.seq = .run .initDelay ⟨.reset, false, [], []⟩ ∧ s.answers = [] ∧ resetNext s = false
          ∧ exchangeOf Config.cfg .initDelay = some (delayRequest Config.cfg)) :=
  ⟨⟨rfl, _, rfl, rfl⟩, ⟨rfl, _, rfl, rfl⟩,
    ⟨⟨regsOk_reset, ⟨rfl, rfl, rfl, rfl⟩, fun _ hx => absurd hx List.not_mem_nil⟩, rfl, rfl, rfl, rfl⟩,
    ⟨regsOk_reset, ⟨rfl, rfl, rfl, rfl⟩, fun _ hx => absurd hx List.not_mem_nil⟩, rfl, rfl, rfl, rfl⟩

/-- The check of an unwritten register, and an illegal word. -/
theorem witness_FaultHappensBeforeAnyEffect :
    (GoodState (running .reset (.inspectCheck .k1K) .reset [])
        ∧ ∃ t, step (running .reset (.inspectCheck .k1K) .reset []) = .next t ∧ t.fault ≠ none)
      ∧ (GoodState (offers .reset 0x07) ∧ (offers .reset 0x07).fault = none
        ∧ ∃ t, step (offers .reset 0x07) = .next t ∧ t.fault ≠ none) :=
  ⟨⟨⟨regsOk_reset, ⟨rfl, trivial⟩, fun _ hx => absurd hx List.not_mem_nil⟩, _, rfl, fun h => by cases h⟩,
    ⟨regsOk_reset, trivial, fun _ hx => absurd hx List.not_mem_nil⟩, rfl, _, rfl, fun h => by cases h⟩

/-- INSPECT of the counter at its check, `k1.encode` after block reset, and INSPECT as it begins. -/
theorem witness_UnwrittenReadOnlyFromInspectOrEncode :
    (let s := running .reset (.inspectCheck .k1K) .reset [];
      GoodState s ∧ s.fault = none ∧ ∃ t, step s = .next t ∧ t.fault = some ⟨.unwrittenRead, 0x0C⟩)
      ∧ (GoodState (offers .reset 0x20) ∧ (offers .reset 0x20).fault = none
        ∧ ∃ t, step (offers .reset 0x20) = .next t ∧ t.fault = some ⟨.unwrittenRead, 0x0F⟩)
      ∧ ((offers .reset 0x0C06).fault = none
        ∧ ∃ t w, step (offers .reset 0x0C06) = .next t ∧ t.seq = .run (.inspectCheck .k1K) w) :=
  ⟨⟨⟨regsOk_reset, ⟨rfl, trivial⟩, fun _ hx => absurd hx List.not_mem_nil⟩, rfl, _, rfl, rfl⟩,
    ⟨⟨regsOk_reset, trivial, fun _ hx => absurd hx List.not_mem_nil⟩, rfl, _, rfl, rfl⟩, rfl, _, _, rfl, rfl⟩

/-! ### State-machine operations -/

theorem ready_idle (r : Regs) (p : HostOp) (a : List Answer) : Ready (idle r p a) := ⟨rfl, rfl⟩

theorem witness_WrongStateIsRejected :
    Ready (idle key1W noPorts []) ∧ key1W.encState ≠ .uninit ∧ key1W.encState ≠ .raw
      ∧ Ready (idle key2W noPorts []) ∧ key2W.encState ≠ .key1 :=
  ⟨ready_idle _ _ _, (fun h => by cases h), (fun h => by cases h), ready_idle _ _ _, fun h => by cases h⟩

theorem witness_InitCapturesChipIdAndHeader :
    let s := idle .reset noPorts [good, good, returns, chipId, header]
    Ready s ∧ s.regs.encState = .uninit
      ∧ s.answers = some good :: some good :: some returns :: some chipId :: some header :: []
      ∧ 0 ≤ good.st.toInt ∧ 0 ≤ chipId.st.toInt ∧ 0 ≤ header.st.toInt :=
  ⟨ready_idle _ _ _, rfl, rfl, by decide, by decide, by decide⟩

/-- A failing answer at each of the four stages. -/
theorem witness_InitAbortsAtTheFailingStage :
    (idle .reset noPorts [bad 1]).answers = some (bad 1) :: []
      ∧ (idle .reset noPorts [good, bad 1]).answers = some good :: some (bad 1) :: []
      ∧ (idle .reset noPorts [good, good, returns, bad 1]).answers
        = some good :: some good :: some returns :: some (bad 1) :: []
      ∧ (idle .reset noPorts [good, good, returns, chipId, bad 4]).answers
        = some good :: some good :: some returns :: some chipId :: some (bad 4) :: []
      ∧ Ready (idle .reset noPorts [bad 1]) ∧ (idle .reset noPorts [bad 1]).regs.encState = .uninit
      ∧ (bad 1).st.toInt < 0 ∧ (bad 4).st.toInt < 0 ∧ 0 ≤ good.st.toInt ∧ 0 ≤ chipId.st.toInt :=
  ⟨rfl, rfl, rfl, rfl, ready_idle _ _ _, rfl, by decide, by decide, by decide, by decide⟩

theorem witness_SetupAppliesTheKeyTwice :
    (idle rawW ⟨2, 0, 0, 0, zeroSchedule⟩ []).ports.schedIn.length = Config.cfg.schedWords
      ∧ Ready (idle rawW ⟨2, 0, 0, 0, zeroSchedule⟩ []) ∧ rawW.encState = .raw
      ∧ rawW.hdrGameCode = some 0x41424344 := ⟨zeroSchedule_length, ready_idle _ _ _, rfl, rfl⟩

theorem witness_SetupChecksTheTableSize :
    Ready (idle rawW ⟨2, 0, 0, 0, 0 :: zeroSchedule⟩ []) ∧ rawW.encState = .raw
      ∧ (idle rawW ⟨2, 0, 0, 0, 0 :: zeroSchedule⟩ []).ports.schedIn.length ≠ Config.cfg.schedWords := by
  refine ⟨ready_idle _ _ _, rfl, ?_⟩
  simp [idle, zeroSchedule]

theorem witness_Begin1NeedsASchedule :
    Ready (idle rawW noPorts []) ∧ rawW.encState = .raw ∧ rawW.schedValid = false := ⟨ready_idle _ _ _, rfl, rfl⟩

/-- The answers of BEGIN1's requests: the commands, and the seed where there is one. -/
def begin1Answers (a1 a2 a3 : Answer) : List Answer :=
  a1 :: a2 :: ((if Config.cfg.hwSeed then [returns] else []) ++ [a3])

theorem begin1Answers_some (a1 a2 a3 : Answer) :
    (begin1Answers a1 a2 a3).map some
      = some a1 :: some a2 :: ((if Config.cfg.hwSeed then [some returns] else []) ++ some a3 :: []) := by
  cases h : Config.cfg.hwSeed <;> simp [begin1Answers, h]

/-- With the chip id that matches, and with one that does not. -/
theorem witness_Begin1EntersKey1OrUnknown :
    Ready (idle setupW noPorts (begin1Answers good good chipId)) ∧ setupW.encState = .raw ∧ setupW.schedValid = true
      ∧ setupW.k1Sched = some zeroSchedule ∧ setupW.rawChipId = some 0x00003FC2
      ∧ setupW.hdrKey1Timing = some 0x001808F8 ∧ setupW.hdrKey2Timing = some 0x00586000
      ∧ setupW.k2SeedByte = some 5
      ∧ (idle setupW noPorts (begin1Answers good good chipId)).answers
        = some good :: some good :: ((if Config.cfg.hwSeed then [some returns] else []) ++ some chipId :: [])
      ∧ 0 ≤ good.st.toInt ∧ 0 ≤ chipId.st.toInt ∧ le32 chipId.bytes 0 = 0x00003FC2 ∧ le32 good.bytes 0 ≠ 0x00003FC2 :=
  ⟨ready_idle _ _ _, rfl, rfl, rfl, rfl, rfl, rfl, rfl, begin1Answers_some _ _ _, by decide, by decide, by decide,
    by decide⟩

theorem witness_Begin1AbortKeepsOnlyTheCounter :
    Ready (idle setupW noPorts [bad 1]) ∧ setupW.encState = .raw ∧ setupW.schedValid = true
      ∧ setupW.k1Sched = some zeroSchedule ∧ setupW.hdrKey1Timing = some 0x001808F8
      ∧ setupW.hdrKey2Timing = some 0x00586000 ∧ setupW.k2SeedByte = some 5
      ∧ (idle setupW noPorts [bad 1]).answers = some (bad 1) :: []
      ∧ (idle setupW noPorts [good, bad 5]).answers = some good :: some (bad 5) :: []
      ∧ (idle setupW noPorts (begin1Answers good good (bad 1))).answers
        = some good :: some good :: ((if Config.cfg.hwSeed then [some returns] else []) ++ some (bad 1) :: [])
      ∧ (bad 1).st.toInt < 0 ∧ (bad 5).st.toInt < 0 ∧ 0 ≤ good.st.toInt :=
  ⟨ready_idle _ _ _, rfl, rfl, rfl, rfl, rfl, rfl, rfl, rfl, begin1Answers_some _ _ _, by decide, by decide, by decide⟩

/-- Chunks 1 and 3 failing, chunks 0 and 2 good. -/
theorem witness_ReadsecReportsEveryChunk :
    Ready (idle key1W noPorts [good, bad 2, good, bad 9]) ∧ key1W.encState = .key1 ∧ key1W.k1Ij = some 0x11A473
      ∧ key1W.k1K = some 0x39D48 ∧ key1W.k1Sched = some zeroSchedule ∧ key1W.hdrKey1Timing = some 0x001808F8
      ∧ (idle key1W noPorts [good, bad 2, good, bad 9]).answers = some good :: some (bad 2) :: some good :: some (bad 9) :: []
      ∧ 0 ≤ good.st.toInt ∧ (bad 2).st.toInt < 0 ∧ (bad 9).st.toInt < 0 :=
  ⟨ready_idle _ _ _, rfl, rfl, rfl, rfl, rfl, rfl, by decide, by decide, by decide⟩

theorem witness_ReadsecIgnoresTheRawChipId :
    (idle key1W noPorts [good]).seq = .idle ∧ key1W.rawChipId = some 0x00003FC2 := ⟨rfl, rfl⟩

theorem witness_Begin2EntersKey2OrUnknown :
    Ready (idle key1W noPorts [good, chipId]) ∧ key1W.encState = .key1 ∧ key1W.k1Sched = some zeroSchedule
      ∧ key1W.rawChipId = some 0x00003FC2 ∧ key1W.hdrKey2Timing = some 0x00586000 ∧ key1W.k1Ij = some 0x11A473
      ∧ key1W.k1K = some 0x39D48 ∧ key1W.k1L = some 0 ∧ key1W.k1Flags = some 0x005868F8
      ∧ (idle key1W noPorts [good, chipId]).answers = some good :: some chipId :: [] ∧ 0 ≤ good.st.toInt
      ∧ 0 ≤ chipId.st.toInt ∧ le32 chipId.bytes 0 = 0x00003FC2 ∧ le32 good.bytes 0 ≠ 0x00003FC2 :=
  ⟨ready_idle _ _ _, rfl, rfl, rfl, rfl, rfl, rfl, rfl, rfl, rfl, by decide, by decide, by decide, by decide⟩

theorem witness_Begin2AbortKeepsOnlyTheCounter :
    Ready (idle key1W noPorts [bad 3]) ∧ key1W.encState = .key1 ∧ key1W.k1Sched = some zeroSchedule
      ∧ key1W.hdrKey2Timing = some 0x00586000 ∧ key1W.k1Ij = some 0x11A473 ∧ key1W.k1K = some 0x39D48
      ∧ key1W.k1L = some 0 ∧ key1W.k1Flags = some 0x005868F8 ∧ (idle key1W noPorts [bad 3]).answers = some (bad 3) :: []
      ∧ (idle key1W noPorts [good, bad 3]).answers = some good :: some (bad 3) :: [] ∧ (bad 3).st.toInt < 0
      ∧ 0 ≤ good.st.toInt :=
  ⟨ready_idle _ _ _, rfl, rfl, rfl, rfl, rfl, rfl, rfl, rfl, rfl, by decide, by decide⟩

/-! ### INSPECT -/

/-- Every register holds a value. -/
theorem witness_InspectReadsWrittenRegisters :
    Ready (idle key2W noPorts []) ∧ headerWritten key2W = true ∧ regimeWritten key2W = true
      ∧ key2W.k2Flags.isSome = true ∧ key2W.k1Key.isSome = true := ⟨ready_idle _ _ _, rfl, rfl, rfl, rfl⟩

/-- Every register is unwritten. -/
theorem witness_InspectFaultsOnUnwrittenRegisters :
    Ready State.reset ∧ headerWritten Regs.reset = false ∧ State.reset.regs.rawChipId = none
      ∧ State.reset.regs.hdrGameCode = none ∧ State.reset.regs.hdrKey1Timing = none
      ∧ State.reset.regs.hdrKey2Timing = none ∧ State.reset.regs.k2SeedByte = none ∧ State.reset.regs.k1Key = none
      ∧ State.reset.regs.k1K = none ∧ regimeUnwritten State.reset.regs = true :=
  ⟨⟨rfl, rfl⟩, rfl, rfl, rfl, rfl, rfl, rfl, rfl, rfl, rfl⟩

/-- The last index and the first one outside, for a schedule of four words; and a valid schedule of the engine's size. -/
theorem witness_InspectScheduleEntry :
    (Ready (idle key1Regs ⟨0, 3, 0, 0, []⟩ []) ∧ key1Regs.schedValid = true ∧ key1Regs.k1Sched = some [0, 0, 0, 0]
        ∧ (3 : U32).toNat < (testCfg id).schedWords)
      ∧ (Ready (withPorts 3 0 0) ∧ (withPorts 3 0 0).regs.schedValid = false)
      ∧ (Ready (withPorts 4 0 0) ∧ (testCfg id).schedWords ≤ (4 : U32).toNat)
      ∧ (Ready (idle key1W noPorts []) ∧ key1W.schedValid = true ∧ key1W.k1Sched = some zeroSchedule) :=
  ⟨⟨ready_idle _ _ _, rfl, rfl, by decide⟩, ⟨⟨rfl, rfl⟩, rfl⟩, ⟨⟨rfl, rfl⟩, by decide⟩, ready_idle _ _ _, rfl, rfl⟩

/-! ### The encoder, the seeder and the codec -/

theorem witness_DeriveShiftsTheGameCode : Ready (withPorts 0x41424344 0 0) := ⟨rfl, rfl⟩

/-- Operands at the tops of their ranges, and the reversed word of a word whose bytes differ. -/
theorem witness_EncodeConsumesOneCounterValue :
    bswap64 0x0102030405060708 = 0x0807060504030201 ∧
    zeroSchedule.length = Config.cfg.schedWords ∧ Ready (idle key1W ⟨0x20, 0xF, 0xFFFF, 0xFFFFFF, []⟩ [])
      ∧ (0xF : U32).toNat < 2 ^ 4 ∧ (0xFFFF : U32).toNat < 2 ^ 16 ∧ (0xFFFFFF : U32).toNat < 2 ^ 24
      ∧ key1W.schedValid = true ∧ key1W.k1Sched = some zeroSchedule ∧ key1W.k1K = some 0x39D48 :=
  ⟨by decide, zeroSchedule_length, ready_idle _ _ _, by decide, by decide, by decide, rfl, rfl, rfl⟩

/-- The least operands that are too wide, an invalid schedule, and an unwritten counter. -/
theorem witness_EncodeFaults :
    Ready (withPorts 0x10 0 0) ∧ 2 ^ 4 ≤ (0x10 : U32).toNat ∧ 2 ^ 16 ≤ (0x10000 : U32).toNat
      ∧ 2 ^ 24 ≤ (0x1000000 : U32).toNat ∧ (withPorts 1 0 0).regs.schedValid = false
      ∧ ¬ (2 ^ 4 ≤ (1 : U32).toNat ∨ 2 ^ 16 ≤ (0 : U32).toNat ∨ 2 ^ 24 ≤ (0 : U32).toNat)
      ∧ Ready (idle setupW ⟨0x20, 1, 0, 0, []⟩ []) ∧ setupW.schedValid = true ∧ setupW.k1K = none :=
  ⟨⟨rfl, rfl⟩, by decide, by decide, by decide, rfl, by decide, ready_idle _ _ _, rfl, rfl⟩

/-- Counters 0x000000 and 0x100000 (41_key1_encoder R136, corner case b). -/
theorem witness_EncodeDependsOnItsInputsOnly :
    let p : HostOp := ⟨0x20, 0, 0, 0, []⟩
    let s := idle { key1W with k1K := some 0 } p []
    let t := idle { key1W with k1K := some 0x100000 } p []
    Ready s ∧ Ready t ∧ s.regs.schedValid = true ∧ t.regs.schedValid = true ∧ s.regs.k1Sched = some zeroSchedule
      ∧ t.regs.k1Sched = some zeroSchedule ∧ s.regs.k1K = some 0 ∧ t.regs.k1K = some 0x100000
      ∧ (0 : U24).extractLsb' 0 20 = (0x100000 : U24).extractLsb' 0 20
      ∧ s.ports = t.ports ∧ s.ports.a.toNat < 2 ^ 4 ∧ s.ports.b.toNat < 2 ^ 16 ∧ s.ports.c.toNat < 2 ^ 24 :=
  ⟨⟨rfl, rfl⟩, ⟨rfl, rfl⟩, rfl, rfl, rfl, rfl, rfl, rfl, by decide, rfl, by decide, by decide, by decide⟩

/-- The identity cipher is injective, and the candidate layout is injective in its counter. -/
theorem key1Layout_counter (c : U4) (a : U16) (n : U24) (k : U20) :
    key1Counter (key1LayoutCandidate c a n k) = k := by
  apply BitVec.eq_of_getLsbD_eq
  intro i hi
  simp only [key1Counter, key1LayoutCandidate, BitVec.getLsbD_append, BitVec.getLsbD_extractLsb']
  have : i = 0 ∨ i = 1 ∨ i = 2 ∨ i = 3 ∨ i = 4 ∨ i = 5 ∨ i = 6 ∨ i = 7 ∨ i = 8 ∨ i = 9 ∨ i = 10 ∨ i = 11 ∨ i = 12
      ∨ i = 13 ∨ i = 14 ∨ i = 15 ∨ i = 16 ∨ i = 17 ∨ i = 18 ∨ i = 19 := by omega
  rcases this with h | h | h | h | h | h | h | h | h | h | h | h | h | h | h | h | h | h | h | h <;> subst h <;> simp

theorem witness_ConsecutiveEncodingsDiffer :
    let cfg := testCfg id
    let s := idle key1Regs ⟨0x20, 1, 0, 0x11A473, []⟩ []
    (∀ b b', cfg.encryptBlock (schedVector cfg.schedWords [0, 0, 0, 0]) b
        = cfg.encryptBlock (schedVector cfg.schedWords [0, 0, 0, 0]) b' → b = b')
      ∧ (∀ c a n k k', cfg.key1Layout c a n k = cfg.key1Layout c a n k' → k = k')
      ∧ s.regs.k1Sched = some [0, 0, 0, 0] ∧ s.fault = none
      ∧ ∃ t u, k1EncodeOp cfg s = .next t ∧ k1EncodeOp cfg t = .next u ∧ t.fault = none ∧ u.fault = none := by
  refine ⟨fun _ _ h => h, fun c a n k k' h => ?_, rfl, rfl, _, _, rfl, rfl, rfl, rfl⟩
  rw [← key1Layout_counter c a n k, ← key1Layout_counter c a n k']
  exact congrArg key1Counter h

theorem witness_SeedGivesTheKeystreamPair :
    Ready (withPorts 0xFF 0xFFFFFF 0) ∧ (0xFF : U32).toNat < 2 ^ 8 ∧ (0xFFFFFF : U32).toNat < 2 ^ 24 :=
  ⟨⟨rfl, rfl⟩, by decide, by decide⟩

theorem witness_SeedChecksOperandWidths :
    (Ready (withPorts 0x100 0 0) ∧ 2 ^ 8 ≤ (0x100 : U32).toNat)
      ∧ (Ready (withPorts 0 0x1000000 0) ∧ 2 ^ 24 ≤ (0x1000000 : U32).toNat) :=
  ⟨⟨⟨rfl, rfl⟩, by decide⟩, ⟨rfl, rfl⟩, by decide⟩

theorem witness_CodecGettersExtractTheirFields : Ready (withPorts 0xFFFFFFFF 0 0) := ⟨rfl, rfl⟩
theorem witness_CodecSettersWriteTheirFields : Ready (withPorts 0x00406000 0 0) := ⟨rfl, rfl⟩
theorem witness_ConstructGivesTheClosedForm : Ready (withPorts 0x1FFF 0x3F 0xFF) := ⟨rfl, rfl⟩

theorem witness_ConstructedWordRoundTrips :
    (0x1FFF : U32).toNat < 2 ^ 13 ∧ (0x3F : U32).toNat < 2 ^ 6 := by decide

theorem witness_SettersKeepTheEnableInvariant : enableInvariant 0x00604100 = true := by decide

/-! ### Bus commands -/

theorem witness_InitCommandsRunTheirStages :
    (running .reset .initDummy .reset [good]).fault = none
      ∧ (running .reset .initDummy .reset [good]).answers = some good :: [] ∧ 0 ≤ good.st.toInt
      ∧ (running .reset .initDummy .reset [good, returns]).answers = some good :: some returns :: []
      ∧ (running .reset .initDummy .reset [good]).seq = .run .initDummy ⟨.reset, false, [], []⟩
      ∧ (running .reset .initRawChipid .reset [chipId]).seq = .run .initRawChipid ⟨.reset, false, [], []⟩
      ∧ (running .reset .initHeaderRead .reset [header]).seq = .run .initHeaderRead ⟨.reset, false, [], []⟩ :=
  ⟨rfl, rfl, by decide, rfl, rfl, rfl, rfl⟩

theorem witness_ActivateKey1RunsItsStage :
    let s := running setupW (.begin1Activate 0x11A473 0x39D46) (loadConstants setupW) [good]
    s.fault = none ∧ s.seq = .run (.begin1Activate 0x11A473 0x39D46) ⟨loadConstants setupW, false, [], []⟩
      ∧ s.regs.hdrKey2Timing = some 0x00586000 ∧ s.regs.hdrKey1Timing = some 0x001808F8
      ∧ (loadConstants setupW).k1L = some 0 ∧ (loadConstants setupW).k2Mn = some 0xC99ACE
      ∧ (loadConstants setupW).k1K = some 0x39D46 ∧ s.answers = some good :: [] ∧ 0 ≤ good.st.toInt :=
  ⟨rfl, rfl, rfl, rfl, rfl, rfl, rfl, rfl, by decide⟩

/-- A seed that is not answered where there is one, and one that is. -/
theorem witness_Key2SeedInitRunsItsStage :
    let w : Regs := { loadConstants setupW with k1Flags := some 0x001808F8 }
    let s := running setupW (.begin1SeedInit 0 0xC99ACE 0x39D46) w [good]
    s.fault = none ∧ s.seq = .run (.begin1SeedInit 0 0xC99ACE 0x39D46) ⟨w, false, [], []⟩ ∧ s.regs.k2SeedByte = some 5
      ∧ w.k1Flags = some 0x001808F8 ∧ w.k1K = some 0x39D46 ∧ w.k1Sched = some zeroSchedule
      ∧ w.k2Mn = some 0xC99ACE ∧ w.k1L = some 0 ∧ w.k1Ij = some 0x11A473 ∧ s.answers = some good :: []
      ∧ 0 ≤ good.st.toInt ∧ ∃ later : List (Option Answer),
        [some returns] = (if Config.cfg.hwSeed then some returns :: later else later) := by
  refine ⟨rfl, rfl, rfl, rfl, rfl, rfl, rfl, rfl, rfl, rfl, by decide, ?_⟩
  cases h : Config.cfg.hwSeed
  · exact ⟨[some returns], by simp⟩
  · exact ⟨[], by simp⟩

/-- The two chip-id requests, each with an id that matches and with one that does not. -/
theorem witness_ChipIdCommandsVerify :
    (atKey1Chipid chipId).fault = none ∧ (atKey1Chipid chipId).regs.rawChipId = some 0x00003FC2
      ∧ (atKey1Chipid chipId).answers = some chipId :: [] ∧ (atKey1Chipid good).answers = some good :: []
      ∧ 0 ≤ chipId.st.toInt ∧ 0 ≤ good.st.toInt
      ∧ (∃ w, (atKey1Chipid chipId).seq = .run (.begin1Chipid 0 0x11A473 0x39D47) w ∧ w.regs.k1Flags = some 0x005868F8
        ∧ w.regs.k1K = some 0x39D47 ∧ w.regs.k1Sched = some zeroSchedule)
      ∧ (atKey2Chipid chipId).fault = none ∧ (atKey2Chipid chipId).regs.rawChipId = some 0x00003FC2
      ∧ (∃ w, (atKey2Chipid chipId).seq = .run .begin2Chipid w ∧ w.regs.k2Flags = some 0x08586000) :=
  ⟨rfl, rfl, rfl, rfl, by decide, by decide, ⟨_, rfl, rfl, rfl, rfl⟩, rfl, rfl, _, rfl, rfl⟩

/-- The first and the last chunk, with a good answer and with a failing one. -/
theorem witness_SecureReadRunsItsStage :
    let s := running key1W (.readsecRead 0 4 0x11A473 0x39D48) key1W [bad 5]
    (s.fault = none ∧ s.seq = .run (.readsecRead 0 4 0x11A473 0x39D48) ⟨key1W, false, [], []⟩
        ∧ s.regs.hdrKey1Timing = some 0x001808F8 ∧ key1W.k1K = some 0x39D48 ∧ key1W.k1Sched = some zeroSchedule
        ∧ key1W.k1Ij = some 0x11A473 ∧ s.answers = some (bad 5) :: [])
      ∧ (atSecureRead [good]).fault = none ∧ (atSecureRead [good]).regs.hdrKey1Timing = some 0x001808F8
      ∧ (atSecureRead [good]).answers = some good :: [] ∧ 0 ≤ good.st.toInt
      ∧ ∃ w, (atSecureRead [good]).seq = .run (.readsecRead 3 7 0x11A473 0x39D4B) w ∧ w.regs.k1K = some 0x39D4B
        ∧ w.regs.k1Sched = some zeroSchedule ∧ w.regs.k1Ij = some 0x11A473 :=
  ⟨⟨rfl, rfl, rfl, rfl, rfl, rfl, rfl⟩, rfl, rfl, rfl, by decide, _, rfl, rfl, rfl, rfl⟩

theorem witness_ActivateKey2RunsItsStage :
    let s := running key1W (.begin2Activate 0 0x11A473 0x39D48) key1W [good]
    s.fault = none ∧ s.seq = .run (.begin2Activate 0 0x11A473 0x39D48) ⟨key1W, false, [], []⟩
      ∧ s.regs.hdrKey2Timing = some 0x00586000 ∧ key1W.k1Flags = some 0x005868F8 ∧ key1W.k1K = some 0x39D48
      ∧ key1W.k1Sched = some zeroSchedule ∧ s.answers = some good :: [] ∧ 0 ≤ good.st.toInt :=
  ⟨rfl, rfl, rfl, rfl, rfl, rfl, rfl, by decide⟩

/-- An encoded request after the encoder has run, and the first raw one. -/
theorem witness_FailingCommandAborts :
    (GoodState (atKey1Chipid (bad 1)) ∧ (∃ w, (atKey1Chipid (bad 1)).seq = .run (.begin1Chipid 0 0x11A473 0x39D47) w)
        ∧ positionInstr (.begin1Chipid 0 0x11A473 0x39D47) = some (.busKey1Chipid 0 0x11A473 0x39D47)
        ∧ (∀ j a n k20, Position.begin1Chipid 0 0x11A473 0x39D47 ≠ .readsecRead j a n k20)
        ∧ (atKey1Chipid (bad 1)).answers = some (bad 1) :: [] ∧ (bad 1).st.toInt < 0)
      ∧ (GoodState (running .reset .initDummy .reset [bad 1])
        ∧ (running .reset .initDummy .reset [bad 1]).seq = .run .initDummy ⟨.reset, false, [], []⟩
        ∧ positionInstr .initDummy = some .busDummy) :=
  ⟨⟨good_atKey1Chipid _, ⟨_, rfl⟩, rfl, (fun _ _ _ _ h => by cases h), rfl, by decide⟩,
    ⟨regsOk_reset, ⟨rfl, rfl, rfl, rfl⟩, fun _ hx => absurd hx List.not_mem_nil⟩, rfl, rfl⟩

end Sys2Proof.Tests
end

