-- ==== Sys2Proof/Proofs/HostWords.lean ====
section
/-!
SUPPORT. The host words as a partition (30_encoding R85): when the two tables have a row, what the decoder answers in terms of
the tables, that the encoder inverts it, and that the words it rejects are those of R72.
-/

namespace Sys2Proof.Proofs

open Sys2Proof.Safety Sys2Proof.Laws

/-! ## The two tables -/

theorem eq_ofNat_of_toNat_eq {b : U8} {n : Nat} (h : b.toNat = n) : b = BitVec.ofNat 8 n := by
  simp [← h]

theorem encode_of_selectorRow {sel : U8} {i : Instr} (h : selectorRow sel = some i) :
    encode i = howWord sel inspectOpc := by
  unfold selectorRow at h
  split at h <;> cases h
  all_goals
    next hsel =>
      rw [eq_ofNat_of_toNat_eq hsel]
      rfl

theorem encode_of_opcodeRow {opc : U8} {i : Instr} (h : opcodeRow opc = some i) : encode i = howWord 0 opc := by
  unfold opcodeRow at h
  split at h <;> cases h
  all_goals
    next hopc =>
      rw [eq_ofNat_of_toNat_eq hopc]
      rfl

/-- The selectors of 30_encoding R74 are 0x00 to 0x14. -/
theorem exists_selectorRow_iff (sel : U8) : (∃ i, selectorRow sel = some i) ↔ sel.toNat ≤ 0x14 := by
  unfold selectorRow
  split
  case h_22 =>
    simp only [imp_false, reduceCtorEq, exists_false, false_iff] at *
    omega
  all_goals simp [*]

/-- The operation codes of 30_encoding R71, `inspect` among them. -/
def hostOpcodes : List Nat :=
  [0x01, 0x02, 0x03, 0x04, 0x05, 0x06, 0x10, 0x11, 0x12, 0x13, 0x14, 0x15, 0x16, 0x17, 0x18, 0x19, 0x1A, 0x1B, 0x1C, 0x1D,
    0x20, 0x21, 0x22]

theorem inspectOpc_mem_hostOpcodes : inspectOpc.toNat ∈ hostOpcodes := by decide

theorem exists_opcodeRow_iff {opc : U8} (h : opc ≠ inspectOpc) :
    (∃ i, opcodeRow opc = some i) ↔ opc.toNat ∈ hostOpcodes := by
  have h6 : opc.toNat ≠ 0x06 := fun h6 => h (eq_ofNat_of_toNat_eq h6)
  unfold opcodeRow
  split
  case h_23 => simp_all [hostOpcodes]
  all_goals simp [*, hostOpcodes]

/-! ## The decoder -/

/-- The decoder answers an operation exactly where the reserved bits are 0 and the table that the operation code selects has it:
the selector table for `inspect`, the operation table with selector 0 for any other code. -/
theorem decodeHow_eq_ok_iff (w : U32) (i : Instr) : decodeHow w = .ok i ↔ howReserved w = 0 ∧
    ((howOpc w = inspectOpc ∧ selectorRow (howSel w) = some i)
      ∨ (howOpc w ≠ inspectOpc ∧ howSel w = 0 ∧ opcodeRow (howOpc w) = some i)) := by
  unfold decodeHow
  by_cases hres : howReserved w = 0#16
  case neg => simp [hres]
  by_cases hopc : howOpc w = inspectOpc
  · cases hrow : selectorRow (howSel w) <;> simp [hres, hopc]
  by_cases hsel : howSel w = 0#8
  · cases hrow : opcodeRow (howOpc w) <;> simp [hres, hopc, hsel]
  · simp [hres, hopc, hsel]

theorem encode_of_decodeHow {w : U32} {i : Instr} (h : decodeHow w = .ok i) : encode i = .how w := by
  obtain ⟨hres, ⟨hopc, hrow⟩ | ⟨-, hsel, hrow⟩⟩ := (decodeHow_eq_ok_iff w i).1 h
  · rw [encode_of_selectorRow hrow, howWord, ← hres, ← hopc, ← how_fields]
  · rw [encode_of_opcodeRow hrow, howWord, ← hres, ← hsel, ← how_fields]

theorem decodeHow_of_encode {w : U32} {i : Instr} (h : encode i = .how w) : decodeHow w = .ok i := by
  cases i <;> simp only [encode, howWord, Code.how.injEq, reduceCtorEq] at h
  all_goals
    subst h
    rfl

/-- A host word is an operation's exactly when the decoder answers that operation. -/
theorem encode_eq_how_iff (w : U32) (i : Instr) : encode i = .how w ↔ decodeHow w = .ok i :=
  ⟨decodeHow_of_encode, encode_of_decodeHow⟩

/-! ## The illegal words -/

/-- The operation codes that `illegalWord` writes out are those of the table. -/
theorem illegalWord_eq (w : U32) : illegalWord w =
    (!hostOpcodes.contains (w.toNat % 256) || w.toNat / 65536 != 0
      || (w.toNat / 256 % 256 != 0 && w.toNat % 256 != 0x06)
      || (w.toNat % 256 == 0x06 && 0x14 < w.toNat / 256 % 256)) := rfl

/-- The four cases of 30_encoding R72, negated, on the fields of R70. -/
theorem illegalWord_eq_false_iff (w : U32) : illegalWord w = false ↔
    (howOpc w).toNat ∈ hostOpcodes ∧ howReserved w = 0 ∧ (howSel w = 0 ∨ howOpc w = inspectOpc)
      ∧ (howOpc w = inspectOpc → (howSel w).toNat ≤ 0x14) := by
  rw [BitVec.toNat_eq (x := howReserved w), BitVec.toNat_eq (x := howSel w), BitVec.toNat_eq (x := howOpc w),
    howOpc_toNat, howSel_toNat, howReserved_toNat]
  simp [illegalWord_eq, inspectOpc, or_iff_not_imp_left, and_assoc]

/-- A word is legal exactly when the decoder answers an operation: for `inspect` the bound of R72 is the selector table's, for
any other code it asks for a row of the operation table. -/
theorem illegalWord_eq_false_iff_decodes (w : U32) : illegalWord w = false ↔ ∃ i, decodeHow w = .ok i := by
  simp only [illegalWord_eq_false_iff, decodeHow_eq_ok_iff, exists_and_left, exists_or, exists_selectorRow_iff]
  by_cases hopc : howOpc w = inspectOpc
  · simp [hopc, inspectOpc_mem_hostOpcodes]
  · simp [hopc, exists_opcodeRow_iff hopc]
    tauto

/-- Settles O2: the words that R72 leaves legal are those the decoder answers, and the encoder inverts the decoder. -/
theorem everyHostWordIsOneRowOrIllegal : Obligations.EveryHostWordIsOneRowOrIllegal := by
  intro w
  simp only [ne_eq, encode_eq_how_iff, decode]
  have hlegal := illegalWord_eq_false_iff_decodes w
  cases hdec : decodeHow w with
  | error e => exact .inl ⟨by simpa [hdec] using hlegal, ⟨e, rfl⟩, by simp⟩
  | ok i => exact .inr ⟨hlegal.2 ⟨i, hdec⟩, i, rfl, by simp [eq_comm]⟩

end Sys2Proof.Proofs
end

