-- ==== Sys2Proof/Proofs/ControlWord.lean ====
section
/-!
SUPPORT. The control word bit by bit (30_encoding R75, 40_control_word R100 to R115): which bits each setter writes and which it
keeps, that the two sub-flag setters commute, what the constructor puts in each bit, and what a codec operation does on an idle
engine without a fault.
-/

namespace Sys2Proof.Proofs

open Sys2Proof.Machine Sys2Proof.Safety Sys2Proof.Laws

/-! ## The masks of 30_encoding R75 -/

theorem dataEncMask_eq : dataEncMask = BitVec.twoPow 32 13 := rfl
theorem secEnMask_eq : secEnMask = BitVec.twoPow 32 14 := rfl
theorem cmdEncMask_eq : cmdEncMask = BitVec.twoPow 32 22 := rfl
theorem slowClkMask_eq : slowClkMask = BitVec.twoPow 32 27 := rfl
theorem pulseClkMask_eq : pulseClkMask = BitVec.twoPow 32 28 := rfl
theorem predelayMask_eq : predelayMask = (BitVec.allOnes 13).setWidth 32 := rfl
theorem postdelayMask_eq : postdelayMask = (BitVec.allOnes 6).setWidth 32 <<< 16 := rfl

/-- A mask of the low `n` bits. -/
theorem getLsbD_lowMask {n : Nat} (hn : n ≤ 32) (i : Nat) :
    ((BitVec.allOnes n).setWidth 32).getLsbD i = decide (i < n) := by
  simp only [BitVec.getLsbD_setWidth, BitVec.getLsbD_allOnes, ← Bool.decide_and, decide_eq_decide]
  omega

theorem getLsbD_predelayMask (i : Nat) : predelayMask.getLsbD i = decide (i < 13) := by
  rw [predelayMask_eq, getLsbD_lowMask (by decide)]

theorem getLsbD_postdelayMask (i : Nat) : postdelayMask.getLsbD i = decide (16 ≤ i ∧ i < 22) := by
  rw [postdelayMask_eq, BitVec.getLsbD_shiftLeft, getLsbD_lowMask (by decide)]
  grind

/-- The 13 bits that go to `PREDELAY`. -/
theorem getLsbD_and_predelay (v : U32) (i : Nat) : (v &&& 0x1FFF).getLsbD i = (decide (i < 13) && v.getLsbD i) := by
  have hmask : (0x1FFF : U32) = predelayMask := rfl
  rw [hmask, BitVec.getLsbD_and, getLsbD_predelayMask, Bool.and_comm]

/-- The 6 bits that go to `POSTDELAY`, at its place. -/
theorem getLsbD_and_postdelay (v : U32) (i : Nat) :
    ((v &&& 0x3F) <<< 16).getLsbD i = (decide (16 ≤ i ∧ i < 22) && v.getLsbD (i - 16)) := by
  have hmask : (0x3F : U32) = (BitVec.allOnes 6).setWidth 32 := rfl
  rw [hmask, BitVec.getLsbD_shiftLeft, BitVec.getLsbD_and, getLsbD_lowMask (by decide)]
  grind

/-! ## The bits of a word after each setter -/

theorem getLsbD_nfSetPredelay (w v : U32) (i : Nat) :
    (nfSetPredelay w v).getLsbD i = if i < 13 then v.getLsbD i else w.getLsbD i := by
  rw [nfSetPredelay, BitVec.getLsbD_or, getLsbD_and_predelay, BitVec.getLsbD_and, BitVec.getLsbD_not, getLsbD_predelayMask]
  by_cases hi : i < 13
  · simp [hi]
  · simpa [hi] using w.lt_of_getLsbD

theorem getLsbD_nfSetPostdelay (w v : U32) (i : Nat) :
    (nfSetPostdelay w v).getLsbD i = if 16 ≤ i ∧ i < 22 then v.getLsbD (i - 16) else w.getLsbD i := by
  rw [nfSetPostdelay, BitVec.getLsbD_or, getLsbD_and_postdelay, BitVec.getLsbD_and, BitVec.getLsbD_not,
    getLsbD_postdelayMask]
  by_cases hi : 16 ≤ i ∧ i < 22
  · simp [hi]
  · simpa [hi] using w.lt_of_getLsbD

/-- Setting one bit changes that bit only. -/
theorem getLsbD_or_twoPow {n : Nat} (hn : n < 32) (w : U32) (i : Nat) :
    (w ||| BitVec.twoPow 32 n).getLsbD i = if i = n then true else w.getLsbD i := by
  rw [BitVec.getLsbD_or, BitVec.getLsbD_twoPow]
  grind

/-- Clearing one bit changes that bit only. -/
theorem getLsbD_and_not_twoPow {n : Nat} (w : U32) (i : Nat) :
    (w &&& ~~~BitVec.twoPow 32 n).getLsbD i = if i = n then false else w.getLsbD i := by
  rw [BitVec.getLsbD_and, BitVec.getLsbD_not, BitVec.getLsbD_twoPow]
  have := w.lt_of_getLsbD (i := i)
  grind

/-- A setter of one bit writes that bit only. -/
theorem getLsbD_setBit {n : Nat} (hn : n < 32) (w : U32) (b : Bool) (i : Nat) :
    (if b then w ||| BitVec.twoPow 32 n else w &&& ~~~BitVec.twoPow 32 n).getLsbD i
      = if i = n then b else w.getLsbD i := by
  cases b
  · exact getLsbD_and_not_twoPow w i
  · exact getLsbD_or_twoPow hn w i

theorem getLsbD_nfSetPulse (w : U32) (b : Bool) (i : Nat) :
    (nfSetPulse w b).getLsbD i = if i = 28 then b else w.getLsbD i := by
  rw [nfSetPulse, pulseClkMask_eq, getLsbD_setBit (by decide)]

theorem getLsbD_nfSetSlow (w : U32) (b : Bool) (i : Nat) :
    (nfSetSlow w b).getLsbD i = if i = 27 then b else w.getLsbD i := by
  rw [nfSetSlow, slowClkMask_eq, getLsbD_setBit (by decide)]

/-- What the two sub-flag setters share (40_control_word R107, R109): the flag is bit `n` and the other flag is bit `other`. -/
def setSubFlag (w : U32) (n other : Nat) (b : Bool) : U32 :=
  if b then w ||| BitVec.twoPow 32 n ||| secEnMask
  else if w.getLsbD other then w &&& ~~~BitVec.twoPow 32 n else w &&& ~~~BitVec.twoPow 32 n &&& ~~~secEnMask

theorem nfSetCmdenc_eq_setSubFlag (w : U32) (b : Bool) : nfSetCmdenc w b = setSubFlag w 22 13 b := rfl

theorem nfSetDataenc_eq_setSubFlag (w : U32) (b : Bool) : nfSetDataenc w b = setSubFlag w 13 22 b := rfl

/-- Setting a sub-flag sets the enable bit; clearing one leaves it set only where it was and the other flag holds. -/
theorem getLsbD_setSubFlag {n : Nat} (hn : n < 32) (w : U32) (other : Nat) (b : Bool) (i : Nat) :
    (setSubFlag w n other b).getLsbD i
      = if i = n then b else if i = 14 then b || (w.getLsbD 14 && w.getLsbD other) else w.getLsbD i := by
  rw [setSubFlag, secEnMask_eq]
  cases b
  case true =>
    rw [if_pos rfl, getLsbD_or_twoPow (by decide), getLsbD_or_twoPow hn]
    by_cases hi : i = 14 <;> simp [hi]
  case false =>
    rw [if_neg Bool.false_ne_true]
    split
    next ho =>
      rw [getLsbD_and_not_twoPow, ho]
      by_cases hi : i = 14 <;> simp [hi]
    next ho =>
      rw [getLsbD_and_not_twoPow, getLsbD_and_not_twoPow, Bool.eq_false_of_not_eq_true ho]
      by_cases hi : i = 14 <;> simp [hi]

theorem getLsbD_nfSetCmdenc (w : U32) (b : Bool) (i : Nat) :
    (nfSetCmdenc w b).getLsbD i
      = if i = 22 then b else if i = 14 then b || (w.getLsbD 14 && w.getLsbD 13) else w.getLsbD i := by
  rw [nfSetCmdenc_eq_setSubFlag, getLsbD_setSubFlag (by decide)]

theorem getLsbD_nfSetDataenc (w : U32) (b : Bool) (i : Nat) :
    (nfSetDataenc w b).getLsbD i
      = if i = 13 then b else if i = 14 then b || (w.getLsbD 14 && w.getLsbD 22) else w.getLsbD i := by
  rw [nfSetDataenc_eq_setSubFlag, getLsbD_setSubFlag (by decide)]

/-- After both sub-flag setters the enable bit is the OR of the flags, whatever it was. -/
theorem getLsbD_nfSetDataenc_nfSetCmdenc (w : U32) (c d : Bool) (i : Nat) :
    (nfSetDataenc (nfSetCmdenc w c) d).getLsbD i
      = if i = 13 then d else if i = 14 then c || d else if i = 22 then c else w.getLsbD i := by
  simp only [getLsbD_nfSetDataenc, getLsbD_nfSetCmdenc]
  by_cases hi : i = 14
  · cases c <;> cases d <;> simp [hi]
  · simp [hi]

/-- The sub-flag setters commute, on any word: the two orders agree at the enable bit and the other bits are the flags' own. -/
theorem nfSetCmdenc_nfSetDataenc_comm (w : U32) (c d : Bool) :
    nfSetCmdenc (nfSetDataenc w d) c = nfSetDataenc (nfSetCmdenc w c) d := by
  apply BitVec.eq_of_getLsbD_eq
  intro i _
  simp only [getLsbD_nfSetCmdenc, getLsbD_nfSetDataenc]
  by_cases hi : i = 14
  · cases c <;> cases d <;> simp [hi]
  · by_cases h13 : i = 13 <;> simp [hi, h13]

/-! ## The constructor -/

/-- Each bit of a constructed word, field by field; the unassigned bits are 0. -/
theorem getLsbD_nfConstruct (p q : U32) (pu c d sl : Bool) (i : Nat) :
    (nfConstruct p q pu c d sl).getLsbD i
      = if i < 13 then p.getLsbD i else if i = 13 then d else if i = 14 then c || d
        else if 16 ≤ i ∧ i < 22 then q.getLsbD (i - 16) else if i = 22 then c else if i = 27 then sl
        else if i = 28 then pu else false := by
  rw [nfConstruct, getLsbD_nfSetSlow, getLsbD_nfSetDataenc_nfSetCmdenc, getLsbD_nfSetPulse, getLsbD_nfSetPostdelay,
    getLsbD_nfSetPredelay]
  have hzero : (0 : U32).getLsbD i = false := by simp
  rw [hzero]
  grind

/-- A boolean at a bit position, as the closed form of R114 writes it. -/
def bitAt (b : Bool) (n : Nat) : U32 := (if b then 1 else 0 : U32) <<< n

theorem getLsbD_bitAt {n : Nat} (hn : n < 32) (b : Bool) (i : Nat) : (bitAt b n).getLsbD i = (b && decide (i = n)) := by
  cases b
  case false => simp [bitAt]
  case true =>
    have hbit : bitAt true n = BitVec.twoPow 32 n := rfl
    rw [hbit, BitVec.getLsbD_twoPow]
    grind

/-- R114: the closed form of a constructed word. -/
theorem nfConstruct_eq_closedForm (p q : U32) (pu c d sl : Bool) :
    nfConstruct p q pu c d sl
      = (p &&& (0x1FFF : U32)) ||| ((q &&& 0x3F) <<< 16) ||| bitAt pu 28 ||| bitAt c 22 ||| bitAt d 13 ||| bitAt (c || d) 14
        ||| bitAt sl 27 := by
  apply BitVec.eq_of_getLsbD_eq
  intro i _
  iterate 6 rw [BitVec.getLsbD_or]
  rw [getLsbD_and_predelay, getLsbD_and_postdelay, getLsbD_bitAt (by decide), getLsbD_bitAt (by decide),
    getLsbD_bitAt (by decide), getLsbD_bitAt (by decide), getLsbD_bitAt (by decide), getLsbD_nfConstruct]
  grind

/-! ## The getters of a constructed word -/

theorem nfGetPredelay_nfConstruct (p q : U32) (pu c d sl : Bool) :
    nfGetPredelay (nfConstruct p q pu c d sl) = p.setWidth 13 := by
  apply BitVec.eq_of_getLsbD_eq
  intro i hi
  simp [nfGetPredelay, getLsbD_nfConstruct, hi]

theorem nfGetPostdelay_nfConstruct (p q : U32) (pu c d sl : Bool) :
    nfGetPostdelay (nfConstruct p q pu c d sl) = q.setWidth 6 := by
  apply BitVec.eq_of_getLsbD_eq
  intro i hi
  rw [nfGetPostdelay, BitVec.getLsbD_extractLsb', getLsbD_nfConstruct, if_neg (by omega), if_neg (by omega),
    if_neg (by omega), if_pos (by omega), Nat.add_sub_cancel_left, BitVec.getLsbD_setWidth]

/-- Settles O50: every getter reads the bits that the constructor wrote. -/
theorem constructedWordRoundTrips : Obligations.ConstructedWordRoundTrips := by
  intro p q pu c d sl hp hq
  refine ⟨?predelay, ?postdelay, ?pulse, ?cmdenc, ?dataenc, ?slow, ?secen⟩
  case predelay => rw [nfGetPredelay_nfConstruct, BitVec.toNat_setWidth, Nat.mod_eq_of_lt hp]
  case postdelay => rw [nfGetPostdelay_nfConstruct, BitVec.toNat_setWidth, Nat.mod_eq_of_lt hq]
  case pulse => exact getLsbD_nfConstruct p q pu c d sl 28
  case cmdenc => exact getLsbD_nfConstruct p q pu c d sl 22
  case dataenc => exact getLsbD_nfConstruct p q pu c d sl 13
  case slow => exact getLsbD_nfConstruct p q pu c d sl 27
  case secen => exact getLsbD_nfConstruct p q pu c d sl 14

/-! ## Operands and results -/

theorem extractLsb'_one (w : U32) (n : Nat) : w.extractLsb' n 1 = BitVec.ofBool (w.getLsbD n) := by
  apply BitVec.eq_of_getLsbD_eq
  intro i hi
  obtain rfl : i = 0 := by omega
  simp

theorem extractLsb'_one_eq_zero_iff (w : U32) (n : Nat) : w.extractLsb' n 1 = 0 ↔ w.getLsbD n = false := by
  rw [extractLsb'_one]
  cases w.getLsbD n <;> decide

/-- One bit of a word, zero-extended. -/
theorem b2u_getLsbD (w : U32) (n : Nat) : b2u (w.getLsbD n) = (w.extractLsb' n 1).setWidth 64 := by
  rw [extractLsb'_one]
  cases w.getLsbD n <;> rfl

/-- A boolean operand is true when it is not zero (30_encoding R73). -/
theorem ite_boolOperand {α : Type} (v : U32) (x y : α) : (if boolOperand v then x else y) = if v ≠ 0 then x else y := by
  simp [boolOperand]

/-- A sub-flag setter with its operand, each of its three words written with one mask. -/
theorem setSubFlag_boolOperand (w v : U32) (n other : Nat) :
    setSubFlag w n other (boolOperand v)
      = if v ≠ 0 then w ||| (BitVec.twoPow 32 n ||| secEnMask)
        else if w.extractLsb' other 1 = 0 then w &&& ~~~(BitVec.twoPow 32 n ||| secEnMask)
        else w &&& ~~~BitVec.twoPow 32 n := by
  rw [setSubFlag, ite_boolOperand, BitVec.or_assoc, BitVec.and_assoc, ← BitVec.not_or]
  simp only [extractLsb'_one_eq_zero_iff]
  cases w.getLsbD other <;> rfl

/-! ## Codec operations on an idle engine without a fault -/

/-- The state after an operation whose only effects are one result and the status OK. -/
def answeredWith (s : State) (v : U64) : State := { clearPorts s with res0 := some v, status := some ⟨0, 0, 0⟩ }

theorem hostOp_returnRes0 {s : State} (hs : Ready s) (v : State → U64) :
    hostOp s (fun s => returnRes0 s (v s)) = .next (answeredWith s (v (clearPorts s))) := by
  obtain ⟨hseq, hfault⟩ := hs
  rw [hostOp_runs _ hseq hfault, returnRes0, finish, ← hseq]
  rfl

theorem codecGet_ready {n : Nat} {s : State} (hs : Ready s) (f : U32 → BitVec n) :
    codecGet s f = .next (answeredWith s ((f s.ports.a).setWidth 64)) :=
  hostOp_returnRes0 hs fun s => (f s.portA).setWidth 64

theorem codecGetBit_ready {s : State} (hs : Ready s) (n : Nat) :
    codecGetBit s (fun w => w.getLsbD n) = .next (answeredWith s ((s.ports.a.extractLsb' n 1).setWidth 64)) := by
  rw [← b2u_getLsbD]
  exact hostOp_returnRes0 hs fun s => b2u (s.portA.getLsbD n)

theorem codecSet_ready {s : State} (hs : Ready s) (f : U32 → U32 → U32) :
    codecSet s f = .next (answeredWith s ((f s.ports.a s.ports.b).setWidth 64)) :=
  hostOp_returnRes0 hs fun s => (f s.portA s.portB).setWidth 64

theorem codecSetBool_ready {s : State} (hs : Ready s) (f : U32 → Bool → U32) :
    codecSetBool s f = .next (answeredWith s ((f s.ports.a (boolOperand s.ports.b)).setWidth 64)) :=
  hostOp_returnRes0 hs fun s => (f s.portA (boolOperand s.portB)).setWidth 64

/-- The setter of the bits of a mask (40_control_word R105, R111). -/
theorem codecSetBool_mask_ready {s : State} (hs : Ready s) (mask : U32) :
    codecSetBool s (fun w b => if b then w ||| mask else w &&& ~~~mask)
      = .next (answeredWith s
          ((if s.ports.b ≠ 0 then s.ports.a ||| mask else s.ports.a &&& ~~~mask).setWidth 64)) := by
  rw [codecSetBool_ready hs, ite_boolOperand]

/-- The setter of a sub-flag (40_control_word R107, R109). -/
theorem codecSetBool_setSubFlag_ready {s : State} (hs : Ready s) (n other : Nat) :
    codecSetBool s (fun w b => setSubFlag w n other b)
      = .next (answeredWith s
          ((if s.ports.b ≠ 0 then s.ports.a ||| (BitVec.twoPow 32 n ||| secEnMask)
            else if s.ports.a.extractLsb' other 1 = 0 then s.ports.a &&& ~~~(BitVec.twoPow 32 n ||| secEnMask)
            else s.ports.a &&& ~~~BitVec.twoPow 32 n).setWidth 64)) := by
  rw [codecSetBool_ready hs, setSubFlag_boolOperand]

theorem execNfConstruct_ready {s : State} (hs : Ready s) :
    execNfConstruct s = .next (answeredWith s
      ((nfConstruct s.ports.a s.ports.b (s.ports.c.getLsbD 0) (s.ports.c.getLsbD 1) (s.ports.c.getLsbD 2)
        (s.ports.c.getLsbD 3)).setWidth 64)) :=
  hostOp_returnRes0 hs fun s => (nfConstruct s.portA s.portB (s.portC.getLsbD 0) (s.portC.getLsbD 1) (s.portC.getLsbD 2)
    (s.portC.getLsbD 3)).setWidth 64

/-- Settles O47: each getter gives the bits at its field's place. -/
theorem codecGettersExtractTheirFields : Obligations.CodecGettersExtractTheirFields := by
  refine ⟨⟨rfl, rfl, rfl, rfl, rfl, rfl, rfl⟩,
    fun s hs => ⟨?predelay, ?postdelay, ?pulse, ?cmdenc, ?dataenc, ?slow, ?secen⟩⟩
  case predelay => exact codecGet_ready hs nfGetPredelay
  case postdelay => exact codecGet_ready hs nfGetPostdelay
  case pulse => exact codecGetBit_ready hs 28
  case cmdenc => exact codecGetBit_ready hs 22
  case dataenc => exact codecGetBit_ready hs 13
  case slow => exact codecGetBit_ready hs 27
  case secen => exact codecGetBit_ready hs 14

/-- Settles O48: a value setter, a setter of one bit's mask, or a setter of a sub-flag, whose other flag is the one it reads. -/
theorem codecSettersWriteTheirFields : Obligations.CodecSettersWriteTheirFields := by
  refine ⟨⟨rfl, rfl, rfl, rfl, rfl, rfl⟩, fun s hs => ⟨?predelay, ?postdelay, ?pulse, ?slow, ?cmdenc, ?dataenc⟩⟩
  case predelay => exact codecSet_ready hs nfSetPredelay
  case postdelay => exact codecSet_ready hs nfSetPostdelay
  case pulse => exact codecSetBool_mask_ready hs pulseClkMask
  case slow => exact codecSetBool_mask_ready hs slowClkMask
  case cmdenc => exact codecSetBool_setSubFlag_ready hs 22 13
  case dataenc => exact codecSetBool_setSubFlag_ready hs 13 22

/-- Settles O49: the composition is `nfConstruct`, which has the closed form, and the sub-flag setters commute. -/
theorem constructGivesTheClosedForm : Obligations.ConstructGivesTheClosedForm := by
  refine ⟨rfl, fun s hs => execNfConstruct_ready hs, fun p q pu c d sl => ?_⟩
  intro bit w closed
  have hclosed : nfSetSlow (nfSetDataenc (nfSetCmdenc w c) d) sl = closed := nfConstruct_eq_closedForm p q pu c d sl
  exact ⟨hclosed, by rw [nfSetCmdenc_nfSetDataenc_comm, hclosed]⟩

end Sys2Proof.Proofs
end

