-- ==== Sys2Proof/Proofs/Key1Encoder.lean ====
section
/-!
SUPPORT. The KEY1 encoder (41_key1_encoder R132 to R138): the byte reversal is its own inverse, the low 20 bits of the counter
change with every encoding, and what `k1.derive` and `k1.encode` answer.
-/

namespace Sys2Proof.Proofs

open Sys2Proof.Machine Sys2Proof.Safety Sys2Proof.Laws

/-! ## The byte reversal -/

/-- Bit `b` of byte `j` of the reversed word (00_scope R9). -/
theorem getLsbD_bswap64 (v : U64) {j b : Nat} (hj : j < 8) (hb : b < 8) :
    (bswap64 v).getLsbD (8 * j + b) = v.getLsbD (8 * (7 - j) + b) := by
  simp only [bswap64, BitVec.getLsbD_append, BitVec.getLsbD_extractLsb']
  interval_cases j <;> simp (disch := omega) only [if_pos, if_neg, decide_eq_true, Bool.true_and]
  all_goals
    congr 1
    omega

theorem bswap64_involutive : Function.Involutive bswap64 := by
  intro v
  apply BitVec.eq_of_getLsbD_eq
  intro i hi
  rw [← Nat.div_add_mod i 8]
  have hj : i / 8 < 8 := by omega
  have hb : i % 8 < 8 := by omega
  rw [getLsbD_bswap64 _ hj hb, getLsbD_bswap64 _ (by omega) hb]
  congr 2
  omega

/-! ## The counter -/

/-- One encoding advances the low 20 bits of the counter by one, modulo 2^20 (R138). -/
theorem lowCounter_nextCounter (kk : U24) : lowCounter (nextCounter kk) = lowCounter kk + 1 := by
  apply BitVec.eq_of_toNat_eq
  simp [lowCounter, nextCounter, BitVec.extractLsb'_toNat]

theorem lowCounter_nextCounter_ne (kk : U24) : lowCounter (nextCounter kk) ≠ lowCounter kk := by
  simp [lowCounter_nextCounter]

/-! ## The encoded word -/

/-- The wire command that `k1.encode` makes of its operands with a schedule and a counter (R134 to R136). -/
def encodedWord (cfg : Cfg) (o : HostOp) (sched : List U32) (kk : U24) : U64 :=
  k1Wire cfg sched (k1Plain cfg (o.a.setWidth 4) (o.b.setWidth 16) (o.c.setWidth 24) kk)

/-- An injective cipher makes the wire command injective in its plaintext (R138). -/
theorem k1Wire_injective {cfg : Cfg} {sched : List U32}
    (hcipher : Function.Injective (cfg.encryptBlock (schedVector cfg.schedWords sched))) :
    Function.Injective (k1Wire cfg sched) :=
  bswap64_involutive.injective.comp (hcipher.comp bswap64_involutive.injective)

/-- Under R138's two assumptions a word tells the low counter bits it was made with. -/
theorem lowCounter_eq_of_encodedWord_eq {cfg : Cfg} {o : HostOp} {sched : List U32} {kk kk' : U24}
    (hcipher : Function.Injective (cfg.encryptBlock (schedVector cfg.schedWords sched)))
    (hlayout : ∀ c a n, Function.Injective (cfg.key1Layout c a n))
    (h : encodedWord cfg o sched kk = encodedWord cfg o sched kk') : lowCounter kk = lowCounter kk' :=
  hlayout _ _ _ (k1Wire_injective hcipher h)

/-! ## `k1.encode` -/

/-- The state after a `k1.encode` that answers with a word: the word, and the counter it consumed (R135, R136). -/
def afterEncode (cfg : Cfg) (s : State) (sched : List U32) (kk : U24) : State :=
  returnRes0 { clearPorts s with regs := { s.regs with k1K := some (nextCounter kk) } } (encodedWord cfg s.ports sched kk)

@[simp] theorem afterEncode_ports (cfg : Cfg) (s : State) (sched : List U32) (kk : U24) :
    (afterEncode cfg s sched kk).ports = s.ports := rfl

@[simp] theorem afterEncode_regs (cfg : Cfg) (s : State) (sched : List U32) (kk : U24) :
    (afterEncode cfg s sched kk).regs = { s.regs with k1K := some (nextCounter kk) } := rfl

@[simp] theorem afterEncode_res0 (cfg : Cfg) (s : State) (sched : List U32) (kk : U24) :
    (afterEncode cfg s sched kk).res0 = some (encodedWord cfg s.ports sched kk) := rfl

/-- Reading a register without a fault: it held a value, and the rest ran with it. -/
theorem readReg_of_no_fault {α : Type} {s : State} {r : RegName} {v : Option α} {k : α → State}
    (h : (readReg s r v k).fault = none) : ∃ x, v = some x ∧ readReg s r v k = k x := by
  obtain hx | ⟨-, hr⟩ := readReg_cases s r v k
  · exact hx
  · rw [hr] at h
    cases h

/-- Encoding without a fault: the counter and the schedule held values, and the rest ran with the word made of them. -/
theorem encodeInWork_of_no_fault {cfg : Cfg} {s : State} {w : Work} {p : U24 → U64} {k : U64 → Work → State}
    (h : (encodeInWork cfg s w p k).fault = none) :
    ∃ kk sched, w.regs.k1K = some kk ∧ w.regs.k1Sched = some sched
      ∧ encodeInWork cfg s w p k
        = k (k1Wire cfg sched (p kk)) { w with regs := { w.regs with k1K := some (kk + 1) }, kused := true } := by
  rw [encodeInWork] at h
  obtain ⟨kk, hkk, hrest⟩ := readReg_of_no_fault h
  rw [hrest] at h
  obtain ⟨sched, hsched, -⟩ := readReg_of_no_fault h
  exact ⟨kk, sched, hkk, hsched, encodeInWork_runs cfg s p k hkk hsched⟩

/-- A `k1.encode` that answers without a fault passed R136's checks, and made its word with the engine's counter and
schedule. -/
theorem k1EncodeOp_of_no_fault {cfg : Cfg} {s t : State} (h : k1EncodeOp cfg s = .next t) (hs : s.fault = none)
    (ht : t.fault = none) :
    (tooWide s.ports.a 4 || tooWide s.ports.b 16 || tooWide s.ports.c 24) = false ∧ s.regs.schedValid = true
      ∧ ∃ kk sched, s.regs.k1K = some kk ∧ s.regs.k1Sched = some sched ∧ t = afterEncode cfg s sched kk := by
  obtain ⟨-, ⟨f, hf, -⟩ | ⟨-, hbody⟩⟩ := hostOp_next h
  · rw [hs] at hf
    cases hf
  · dsimp only at hbody
    split at hbody
    next => rw [hbody] at ht; cases ht
    next hnarrow =>
      split at hbody
      next => rw [hbody] at ht; cases ht
      next hvalid =>
        obtain ⟨kk, sched, hkk, hsched, hrun⟩ := encodeInWork_of_no_fault (hbody ▸ ht)
        exact ⟨Bool.eq_false_of_not_eq_true hnarrow, Bool.eq_true_of_not_eq_false hvalid, kk, sched, hkk, hsched,
          hbody.trans hrun⟩

/-- Settles O43: both words are of the same operands and schedule, so equal words would have equal low counter bits, and one
encoding changes those. -/
theorem consecutiveEncodingsDiffer : Obligations.ConsecutiveEncodingsDiffer := by
  intro cfg s t u sched hcipher hlayout hsched hs ht hu hst htu
  obtain ⟨-, -, kk, sched₁, -, hsched₁, rfl⟩ := k1EncodeOp_of_no_fault hst hs ht
  obtain ⟨-, -, kk', sched₂, hkk', hsched₂, rfl⟩ := k1EncodeOp_of_no_fault htu ht hu
  obtain rfl : sched = sched₁ := Option.some.inj (hsched.symm.trans hsched₁)
  obtain rfl : sched = sched₂ := Option.some.inj (hsched.symm.trans hsched₂)
  obtain rfl : nextCounter kk = kk' := Option.some.inj hkk'
  refine ⟨by simp, by simp, fun hword => lowCounter_nextCounter_ne kk ?_⟩
  simp only [afterEncode_res0, afterEncode_ports, Option.some.injEq] at hword
  exact (lowCounter_eq_of_encodedWord_eq (fun _ _ => hcipher _ _) (fun c a n _ _ => hlayout c a n _ _) hword).symm

/-! ## `k1.derive` -/

/-- `k1.derive` on an idle engine without a fault: the key's three words on the result ports, and no other effect (R133). -/
theorem execK1Derive_ready {s : State} (hs : Ready s) :
    execK1Derive s = .next { clearPorts s with
      res0 := some ((deriveKey s.ports.a).k1 ++ (deriveKey s.ports.a).k0)
      res1 := some ((deriveKey s.ports.a).k2.setWidth 64), status := some okStatus } := by
  obtain ⟨hseq, hfault⟩ := hs
  rw [execK1Derive, hostOp_runs _ hseq hfault, returnRes01, finish, ← hseq]
  rfl

/-- Settles O39: the words of the derived key are R132's two shifts of the game code. -/
theorem deriveShiftsTheGameCode : Obligations.DeriveShiftsTheGameCode :=
  ⟨rfl, fun _ hs => execK1Derive_ready hs⟩

end Sys2Proof.Proofs
end

