-- ==== Sys2Proof/Proofs/KeystreamSeeder.lean ====
section
/-!
SUPPORT. The KEY2 keystream seeder (42_keystream_seeder R150 to R153): the sum that `k2.seed` answers, and what a step writes in
the states that BEGIN1 enters: no register but `ENC_STATE`, `K1_K`, `K2_FLAGS` and `K2_CHIP_ID`.
-/

namespace Sys2Proof.Proofs

open Sys2Proof.Machine Sys2Proof.Safety Sys2Proof.Laws

/-! ## The seed sum -/

/-- Bits 2:0 of a seed byte that a port holds (R150). -/
theorem seedEntry_setWidth (cfg : Cfg) (v : U32) : seedEntry cfg (v.setWidth 8) = cfg.seedTable[v.toNat % 8] := by
  have hindex : (v.setWidth 8 &&& 7).toNat % 8 = v.toNat % 8 := by
    rw [BitVec.toNat_and, BitVec.toNat_setWidth]
    change (v.toNat % 2 ^ 8 &&& 2 ^ 3 - 1) % 8 = v.toNat % 8
    rw [Nat.and_two_pow_sub_one_eq_mod]
    omega
  simp only [seedEntry, hindex]

theorem seedSum_lt (entry : U8) {n : Nat} (hn : n < 2 ^ 24) : entry.toNat + n * 2 ^ 15 + 0x6000 < 2 ^ 40 := by
  have := entry.isLt
  omega

/-- The 64-bit sum is the exact one, by its bound (R150). -/
theorem k2SeedX_toNat (cfg : Cfg) (sb : U8) (mn : U24) :
    (k2SeedX cfg sb mn).toNat = (seedEntry cfg sb).toNat + mn.toNat * 2 ^ 15 + 0x6000 := by
  have hlt := seedSum_lt (seedEntry cfg sb) mn.isLt
  have haddend : Config.seedAddend.toNat = 0x6000 := rfl
  simp only [k2SeedX, BitVec.toNat_add, BitVec.toNat_shiftLeft, BitVec.toNat_setWidth, Nat.shiftLeft_eq, haddend]
  omega

/-- The sum of the ports' values: operands in range lose nothing in the fields they are taken into. -/
theorem k2SeedX_ports (cfg : Cfg) (a : U32) {b : U32} (hb : b.toNat < 2 ^ 24) :
    k2SeedX cfg (a.setWidth 8) (b.setWidth 24)
      = BitVec.ofNat 64 (cfg.seedTable[a.toNat % 8].toNat + b.toNat * 2 ^ 15 + 0x6000) := by
  have hlt := seedSum_lt cfg.seedTable[a.toNat % 8] hb
  apply BitVec.eq_of_toNat_eq
  rw [k2SeedX_toNat, seedEntry_setWidth, BitVec.toNat_setWidth, Nat.mod_eq_of_lt hb, BitVec.toNat_ofNat]
  exact (Nat.mod_eq_of_lt (hlt.trans (by decide))).symm

theorem tooWide_eq_false {v : U32} {n : Nat} (h : v.toNat < 2 ^ n) : tooWide v n = false :=
  decide_eq_false (Nat.not_le.2 h)

/-- `k2.seed` on an idle engine without a fault, with operands in range: the pair, and no other effect (R152). -/
theorem execK2Seed_ready {s : State} (hs : Ready s) (ha : s.ports.a.toNat < 2 ^ 8) (hb : s.ports.b.toNat < 2 ^ 24) :
    execK2Seed s = .next { clearPorts s with
      res0 := some (k2SeedX Config.cfg (s.ports.a.setWidth 8) (s.ports.b.setWidth 24)), res1 := some k2SeedY
      status := some okStatus } := by
  obtain ⟨hseq, hfault⟩ := hs
  have hwidths : ¬(tooWide (clearPorts s).portA 8 || tooWide (clearPorts s).portB 24) = true := by
    simp [State.portA, State.portB, tooWide_eq_false ha, tooWide_eq_false hb]
  rw [execK2Seed, k2SeedOp, hostOp_runs _ hseq hfault, if_neg hwidths, returnRes01, finish, ← hseq]
  rfl

/-- Settles O44: the exact sum is below 2^40, so it fits the result port. -/
theorem seedGivesTheKeystreamPair : Obligations.SeedGivesTheKeystreamPair := by
  intro s hs ha hb x
  refine ⟨seedSum_lt _ hb, ?_⟩
  rw [← k2SeedX_ports _ _ hb]
  exact execK2Seed_ready hs ha hb

/-! ## One step of the machine -/

theorem goOn_running {s : State} {p : Position} {w : Work} (hs : s.seq = .run p w ∨ s.seq = .wait p w) :
    goOn s = atPosition s p := by
  rcases hs with hs | hs <;> simp [goOn, hs]

/-- A running or waiting engine goes on with its step, and leaves an operation in the host's list (10_state R28; log 13). -/
theorem fetch_running {s : State} {p : Position} {w : Work} (hs : s.seq = .run p w ∨ s.seq = .wait p w)
    (hreset : resetNext s = false) : fetch s = atPosition (afterPass s) p := by
  match hhost : s.host with
  | [] => simp only [fetch, afterPass, hhost, goOn_running hs]
  | .pass :: rest =>
    simp only [fetch, afterPass, hhost]
    exact goOn_running hs
  | .op o :: rest =>
    have hoffered : offered s o rest = goOn s := by rcases hs with hs | hs <;> simp [offered, hs]
    simp only [fetch, afterPass, hhost, hoffered, goOn_running hs]
  | .blockReset :: rest => simp [resetNext, hhost] at hreset

@[simp] theorem afterPass_seq (s : State) : (afterPass s).seq = s.seq := by
  unfold afterPass
  split <;> rfl

@[simp] theorem afterPass_regs (s : State) : (afterPass s).regs = s.regs := by
  unfold afterPass
  split <;> rfl

@[simp] theorem afterPass_fault (s : State) : (afterPass s).fault = s.fault := by
  unfold afterPass
  split <;> rfl

/-- While an operation runs or waits, a step is one step of the sequencer, at a bus command too. -/
theorem step_running {s : State} {p : Position} {w : Work} (hs : s.seq = .run p w ∨ s.seq = .wait p w)
    (hreset : resetNext s = false) : step s = .next (seqStep Config.cfg (afterPass s)) := by
  rw [step, fetch_running hs hreset, atPosition]
  cases hi : positionInstr p with
  | none => rfl
  | some i => exact exec_positionInstr (p := p) (w := w) hi (by simpa using hs)

/-- At IDLE a step passes, or it accepts the host's operation. -/
theorem fetch_idle {s : State} (hs : s.seq = .idle) (hreset : resetNext s = false) :
    fetch s = .waiting (afterPass s) ∨ ∃ o rest, fetch s = accept s o rest := by
  match hhost : s.host with
  | [] => exact .inl (by simp [fetch, afterPass, hhost, goOn, hs])
  | .pass :: rest => exact .inl (by simp [fetch, afterPass, hhost, goOn, hs])
  | .op o :: rest => exact .inr ⟨o, rest, by simp [fetch, hhost, offered, hs]⟩
  | .blockReset :: rest => simp [resetNext, hhost] at hreset

/-- An accepted operation, with a legal word or an illegal one: it meets the latched fault, or it does what the body of a host
operation can do. -/
theorem step_accept {s t : State} {o : HostOp} {rest : List HostEvent} (hfetch : fetch s = accept s o rest)
    (h : step s = .next t) :
    (∃ f, t = refuseLatched { s with host := rest, ports := o } f)
      ∨ ∃ op, bodyResult op (clearPorts { s with host := rest, ports := o }) t := by
  rw [step, hfetch, accept] at h
  cases hdec : decode (.how o.how) with
  | ok i =>
    rw [hdec] at h
    obtain ⟨-, ⟨f, -, hlatched⟩ | ⟨-, hbody⟩⟩ := exec_hostOperation (encode_of_decodeHow hdec) h
    · exact .inl ⟨f, hlatched⟩
    · exact .inr ⟨_, hbody⟩
  | error e =>
    rw [hdec] at h
    obtain ⟨-, ⟨f, -, hlatched⟩ | ⟨-, hraised⟩⟩ := hostOp_next h
    · exact .inl ⟨f, hlatched⟩
    · exact .inr ⟨none, hraised ▸ bodyResult_raise _ _⟩

/-! ## Steps that write no register but the counter -/

/-- The registers are the same but for `K1_K`. -/
def SameButCounter (r r' : Regs) : Prop := ∃ k, r' = { r with k1K := k }

theorem SameButCounter.refl (r : Regs) : SameButCounter r r := ⟨r.k1K, rfl⟩

/-- The body of a host operation writes no register but the counter. -/
theorem bodyResult_regs {op : Option SeqOp} {s t : State} (h : bodyResult op s t) : SameButCounter s.regs t.regs := by
  obtain ⟨st, rfl⟩ | ⟨f, rfl⟩ | ⟨v, rfl⟩ | ⟨v, v', rfl⟩ | ⟨kk, v, -, -, rfl⟩ | ⟨p, rfl, -⟩ := h
  case inr.inr.inr.inr.inl => exact ⟨some (kk + 1), rfl⟩
  all_goals exact .refl s.regs

/-- A step at IDLE writes no register but the counter, which `k1.encode` consumes (41_key1_encoder R136). -/
theorem step_idle_regs {s t : State} (hs : s.seq = .idle) (hreset : resetNext s = false) (h : step s = .next t) :
    SameButCounter s.regs t.regs := by
  obtain hwaits | ⟨o, rest, haccept⟩ := fetch_idle hs hreset
  · rw [step, hwaits] at h
    cases h
    rw [afterPass_regs]
    exact .refl s.regs
  · obtain ⟨f, rfl⟩ | ⟨op, hbody⟩ := step_accept haccept h
    · exact .refl s.regs
    · simpa using bodyResult_regs hbody

theorem callAnswer_regs (s : State) (w : Work) (stage : U8) (size : U32) (d : Dest) (next : Position) :
    SameButCounter s.regs (callAnswer s w stage size d next).regs :=
  callAnswer_elim (fun t => SameButCounter s.regs t.regs) (.refl s.regs) (fun _ _ => .refl s.regs)
    (fun _ _ _ _ => ⟨_, rfl⟩) fun _ _ _ _ => .refl s.regs

theorem onReturn_regs (s : State) (w : Work) (next : Position) : SameButCounter s.regs (onReturn s w next).regs :=
  onReturn_elim (fun t => SameButCounter s.regs t.regs) (.refl s.regs) (fun _ _ => .refl s.regs) fun _ _ _ => .refl s.regs

theorem afterChunk_regs (s : State) (w : Work) (j : Fin 4) : (afterChunk s w j).regs = s.regs := by
  unfold afterChunk
  split
  · exact formKey1_elim (fun t => t.regs = s.regs) (fun _ => rfl) (fun _ => rfl) fun _ _ _ _ => rfl
  · rfl

theorem storeChunk_regs (s : State) (j : Fin 4) (st : U32) (bytes : Memory) : (storeChunk s j st bytes).regs = s.regs := by
  rw [storeChunk_eq]

theorem linkReset_answer_regs (s : State) (w : Work) : SameButCounter s.regs (linkReset.2 s w).regs := by
  refine onAnswer_elim (fun t => SameButCounter s.regs t.regs) (.refl s.regs) (fun _ _ => .refl s.regs) fun a _ _ => ?_
  split
  · exact ⟨_, rfl⟩
  · exact .refl s.regs

theorem secureReadCommand_answer_regs (cfg : Cfg) (j : Fin 4) (a : U16) (n : U24) (k20 : U20) (s : State) (w : Work) :
    SameButCounter s.regs ((secureReadCommand cfg j a n k20).2 s w).regs := by
  refine onAnswer_elim (fun t => SameButCounter s.regs t.regs) (.refl s.regs) (fun _ _ => .refl s.regs) fun a _ _ => ?_
  rw [afterChunk_regs, storeChunk_regs]
  exact .refl s.regs

/-- The answer of a request writes no register but the counter, which an abort keeps (43_state_machine R160). -/
theorem exchangeOf_answer_regs {cfg : Cfg} {p : Position} {q : Exchange} (h : exchangeOf cfg p = some q) (s : State)
    (w : Work) : SameButCounter s.regs (q.2 s w).regs := by
  exact exchangeOf_cases h (fun _ q => SameButCounter s.regs (q.2 s w).regs) (linkReset_answer_regs s w)
    (callAnswer_regs ..) (onReturn_regs ..) (callAnswer_regs ..) (callAnswer_regs ..) (fun _ _ => callAnswer_regs ..)
    (fun _ _ _ => callAnswer_regs ..) (fun _ => onReturn_regs ..) (fun _ _ _ => callAnswer_regs ..)
    (fun j a n k20 => secureReadCommand_answer_regs cfg j a n k20 s w) (fun _ _ _ => callAnswer_regs ..)
    (callAnswer_regs ..)

/-- The same of a step that makes a request, and takes its answer if the platform has one. -/
theorem exchange_regs {cfg : Cfg} {p : Position} {q : Exchange} (h : exchangeOf cfg p = some q) (s : State) (w : Work) :
    SameButCounter s.regs (exchange q s w).regs :=
  exchange_elim (fun t => SameButCounter s.regs t.regs) h (fun _ _ => .refl s.regs)
    fun _ _ _ _ => exchangeOf_answer_regs h _ _

/-! ## The states that BEGIN1 enters -/

/-- KEY1, KEY2 and UNKNOWN: BEGIN1 has committed the keystream pair (10_state R22). -/
def PairWritten (r : Regs) : Prop := r.encState ≠ .uninit ∧ r.encState ≠ .raw

/-- The registers are the same but for those that READSEC and BEGIN2 write. -/
def SameButRegime (r r' : Regs) : Prop :=
  ∃ e k f id, r' = { r with encState := e, k1K := k, k2Flags := f, k2ChipId := id }

theorem SameButRegime.refl (r : Regs) : SameButRegime r r := ⟨_, _, _, _, rfl⟩

theorem SameButCounter.sameButRegime {r r' : Regs} (h : SameButCounter r r') : SameButRegime r r' := by
  obtain ⟨k, rfl⟩ := h
  exact ⟨_, _, _, _, rfl⟩

theorem SameButRegime.keystreamPair {r r' : Regs} (h : SameButRegime r r') : r'.k2X = r.k2X ∧ r'.k2Y = r.k2Y := by
  obtain ⟨e, k, f, id, rfl⟩ := h
  exact ⟨rfl, rfl⟩

/-- The check that ends an operation commits its working copy, in the state that the comparison gives. -/
theorem compareStep_regs {s : State} {w : Work} {entered : EncState} (hw : SameButRegime s.regs w.regs) :
    SameButRegime s.regs (compareStep s w entered).regs := by
  obtain ⟨e, k, f, id, hw⟩ := hw
  refine readReg_elim (fun t => SameButRegime s.regs t.regs) (fun _ => .refl s.regs) fun _ _ =>
    readReg_elim (fun t => SameButRegime s.regs t.regs) (fun _ => .refl s.regs) fun _ _ => ?_
  split
  · exact ⟨entered, k, f, id, by simp [hw]⟩
  · exact ⟨.unknown, k, f, id, by simp [returnErr, hw]⟩

/-- A step that makes no request: INIT, SETUP and BEGIN1 do not run in these states, READSEC writes the counter, and BEGIN2's
working copy differs from the registers in the four. -/
theorem runPosition_regs_of_no_request {cfg : Cfg} {s : State} {p : Position} {w : Work} (hp : exchangeOf cfg p = none)
    (hpair : PairWritten s.regs) (hw : WorkOk cfg s p w) : SameButRegime s.regs (runPosition cfg s w p).regs := by
  obtain ⟨huninit, hraw⟩ := hpair
  cases p
  case initReset | initDummy | initDelay | initRawChipid | initCapture | initHeaderRead | initParse | initOutput
      | initEnter | initReturn => exact absurd hw.1 huninit
  case setupFirst | setupSecond | setupWrite | setupReturn | begin1Constants | begin1Activate | begin1Word
      | begin1SeedInit | begin1SeedPair | begin1PlatformSeed | begin1Enable | begin1Chipid | begin1StoreId
      | begin1Compare => exact absurd hw.1 hraw
  case readsecRead | begin2Activate | begin2Chipid => cases hp
  case readsecCounter => exact SameButCounter.sameButRegime ⟨_, rfl⟩
  case readsecReturn | begin2StoreId => exact .refl s.regs
  case begin2Word | inspectCheck | inspectRead =>
    exact readReg_elim (fun t => SameButRegime s.regs t.regs) (fun _ => .refl s.regs) fun _ _ => .refl s.regs
  case begin2Compare =>
    obtain ⟨-, -, kk, f, id, -, hregs⟩ := hw
    exact compareStep_regs ⟨_, _, _, _, hregs⟩

theorem runPosition_regs {cfg : Cfg} {s : State} {p : Position} {w : Work} (hpair : PairWritten s.regs)
    (hw : WorkOk cfg s p w) : SameButRegime s.regs (runPosition cfg s w p).regs := by
  cases hp : exchangeOf cfg p with
  | none => exact runPosition_regs_of_no_request hp hpair hw
  | some q =>
    rw [runPosition_exchange s w hp]
    exact (exchange_regs hp s w).sameButRegime

theorem answerPosition_regs (cfg : Cfg) (s : State) (w : Work) (p : Position) :
    SameButCounter s.regs (answerPosition cfg s w p).regs := by
  unfold answerPosition
  split
  next hq => exact exchangeOf_answer_regs hq s w
  next => exact .refl s.regs

/-- What a step looks at in the working copy does not depend on what the host still does. -/
theorem workOk_afterPass {cfg : Cfg} {s : State} {p : Position} {w : Work} (h : WorkOk cfg s p w) :
    WorkOk cfg (afterPass s) p w := by
  unfold afterPass
  split <;> exact h

/-- The frame of every step without a block reset in the states that BEGIN1 enters. -/
theorem step_regs_of_pairWritten {s t : State} (hgood : GoodState s) (hreset : resetNext s = false)
    (h : step s = .next t) (hpair : PairWritten s.regs) : SameButRegime s.regs t.regs := by
  obtain ⟨-, hseqOk, -⟩ := hgood
  rw [← afterPass_regs s] at hpair
  cases hs : s.seq with
  | idle => exact (step_idle_regs hs hreset h).sameButRegime
  | run p w =>
    simp only [SeqOk, hs] at hseqOk
    obtain ⟨hfault, hw⟩ := hseqOk
    rw [step_running (.inl hs) hreset, seqStep_run _ ((afterPass_seq s).trans hs) ((afterPass_fault s).trans hfault)] at h
    cases h
    rw [← afterPass_regs s]
    exact runPosition_regs hpair (workOk_afterPass hw)
  | wait p w =>
    simp only [SeqOk, hs] at hseqOk
    obtain ⟨hfault, -⟩ := hseqOk
    rw [step_running (.inr hs) hreset, seqStep_wait _ ((afterPass_seq s).trans hs) ((afterPass_fault s).trans hfault)] at h
    cases h
    rw [← afterPass_regs s]
    exact (answerPosition_regs _ _ w p).sameButRegime

/-- Settles O20: the pair is not among the registers that such a step writes. -/
theorem keystreamPairNeverChanges : Obligations.KeystreamPairNeverChanges := by
  intro s t hgood hreset h huninit hraw
  exact (step_regs_of_pairWritten hgood hreset h ⟨huninit, hraw⟩).keystreamPair

end Sys2Proof.Proofs
end

