-- ==== Sys2Proof/Proofs/StateMachine.lean ====
section
/-!
SUPPORT. The state-machine operations (43_state_machine R161 to R164): an operation outside its state is rejected, a step whose
request is answered goes on to the next one, and the ten steps of INIT in their order.
-/

namespace Sys2Proof.Proofs

open Sys2Proof.Machine Sys2Proof.Safety Sys2Proof.Laws

/-! ## The precondition of a state-machine operation -/

theorem finish_of_idle {s : State} (hs : s.seq = .idle) (st : Status) : finish s st = { s with status := some st } := by
  rw [finish, ← hs]

theorem hostOp_requireState_holds {s : State} (hs : Ready s) {e : EncState} (h : s.regs.encState = e)
    (body : State → State) : hostOp s (fun s => requireState s e body) = .next (body (clearPorts s)) := by
  obtain ⟨hseq, hfault⟩ := hs
  rw [hostOp_runs _ hseq hfault, requireState_holds (s := clearPorts s) body h]

/-- In any other state the body does not run: the status is the operation's only effect (R161). -/
theorem hostOp_requireState_fails {s : State} (hs : Ready s) {e : EncState} (h : s.regs.encState ≠ e)
    (body : State → State) :
    hostOp s (fun s => requireState s e body)
      = .next { clearPorts s with status := some (errStatus .invalidStateTransition) } := by
  obtain ⟨hseq, hfault⟩ := hs
  rw [hostOp_runs _ hseq hfault, requireState_fails (s := clearPorts s) body h, returnErr,
    finish_of_idle (s := clearPorts s) hseq]

/-- Settles O24: each of the five operations is a body behind its precondition. -/
theorem wrongStateIsRejected : Obligations.WrongStateIsRejected := by
  intro s hs rejected
  refine ⟨fun huninit => ?init, fun hraw => ⟨?setup, ?begin1⟩, fun hkey1 => ⟨?readsec, ?begin2⟩⟩
  case init => exact hostOp_requireState_fails hs huninit _
  case setup | begin1 => exact hostOp_requireState_fails hs hraw _
  case readsec | begin2 => exact hostOp_requireState_fails hs hkey1 _

/-! ## Answered requests -/

/-- The state after a request that the platform has answered: the event with its status in the trace, and the answers that are
left. -/
def afterRequest (s : State) (e : Event) (rest : List (Option Answer)) : State :=
  { s with answers := rest, trace := s.trace ++ [e] }

theorem isError_eq_false_of_nonneg {st : U32} (h : 0 ≤ st.toInt) : isError st = false :=
  decide_eq_false (not_lt.2 h)

/-- Taking the answer to a request just made: its status joins the event, and the rest goes on from there. -/
theorem onAnswer_request {s : State} {a : Answer} {rest : List (Option Answer)} (p : Position) (w : Work) (e : Event)
    (k : State → Answer → State) (h : s.answers = some a :: rest) :
    onAnswer (request s p w e) k = k { afterRequest s (e.answered a.st) rest with seq := .wait p w } a := by
  rw [onAnswer_answered (rest := rest) k (by simpa using h), request_trace, settle_append_cons, settle_singleton]
  rfl

theorem callAnswer_request {s : State} {a : Answer} {rest : List (Option Answer)} (p : Position) (w : Work) (e : Event)
    (stage : U8) (size : U32) (d : Dest) (next : Position) (h : s.answers = some a :: rest) (hok : 0 ≤ a.st.toInt) :
    callAnswer (request s p w e) w stage size d next
      = advance (afterRequest s (e.answered a.st) rest) next (deliver w d (a.bytes.restrict size.toNat)) := by
  rw [callAnswer, onAnswer_request p w e _ h, isError_eq_false_of_nonneg hok]
  rfl

theorem linkReset_request {s : State} {a : Answer} {rest : List (Option Answer)} (w : Work)
    (h : s.answers = some a :: rest) (hok : 0 ≤ a.st.toInt) :
    linkReset.2 (request s .initReset w (.reset none)) w
      = advance (afterRequest s (.reset (some a.st)) rest) .initDummy w := by
  simp only [linkReset, onAnswer_request _ _ _ _ h, isError_eq_false_of_nonneg hok]
  rfl

/-! ## The steps of INIT (R163) -/

section InitSteps

variable {cfg : Cfg} {s : State} {a : Answer} {rest : List (Option Answer)} (n : Nat) (w : Work)

theorem drive_initReset (hfault : s.fault = none) (h : s.answers = some a :: rest) (hok : 0 ≤ a.st.toInt) :
    drive cfg (n + 1) (advance s .initReset w)
      = drive cfg n (advance (afterRequest s (.reset (some a.st)) rest) .initDummy w) := by
  rw [drive_advance _ _ _ _ _ hfault]
  exact congrArg _ (linkReset_request w h hok)

theorem drive_initDummy (hfault : s.fault = none) (h : s.answers = some a :: rest) (hok : 0 ≤ a.st.toInt) :
    drive cfg (n + 1) (advance s .initDummy w)
      = drive cfg n (advance
          (afterRequest s (.send cfg.dummyCmd cfg.dummyReadSize (dummyFlags cfg) (some a.st)) rest) .initDelay w) := by
  rw [drive_advance _ _ _ _ _ hfault]
  exact congrArg _ (callAnswer_request _ _ _ _ _ .discard _ h hok)

/-- The delay returns whatever its answer is (60_exceptions R212). -/
theorem drive_initDelay (hfault : s.fault = none) (h : s.answers = some a :: rest) :
    drive cfg (n + 1) (advance s .initDelay w)
      = drive cfg n (advance (afterRequest s (.delay cfg.initDelay) rest) .initRawChipid w) := by
  rw [drive_advance _ _ _ _ _ hfault]
  exact congrArg _ (onAnswer_request _ w _ (fun s _ => advance s .initRawChipid w) h)

theorem drive_initRawChipid (hfault : s.fault = none) (h : s.answers = some a :: rest) (hok : 0 ≤ a.st.toInt) :
    drive cfg (n + 1) (advance s .initRawChipid w)
      = drive cfg n (advance (afterRequest s (.send cfg.rawChipidCmd 4 cfg.rawChipidFlags (some a.st)) rest) .initCapture
          { w with rsp4 := a.bytes.restrict 4 }) := by
  rw [drive_advance _ _ _ _ _ hfault]
  exact congrArg _ (callAnswer_request _ _ _ _ _ .rsp4 _ h hok)

theorem drive_initCapture (hfault : s.fault = none) :
    drive cfg (n + 1) (advance s .initCapture w)
      = drive cfg n (advance s .initHeaderRead { w with regs := { w.regs with rawChipId := some (le32 w.rsp4 0) } }) :=
  drive_advance _ _ _ _ _ hfault

theorem drive_initHeaderRead (hfault : s.fault = none) (h : s.answers = some a :: rest) (hok : 0 ≤ a.st.toInt) :
    drive cfg (n + 1) (advance s .initHeaderRead w)
      = drive cfg n (advance (afterRequest s (.send cfg.headerCmd 0x1000 cfg.headerFlags (some a.st)) rest) .initParse
          { w with hdrBuf := a.bytes.restrict 0x1000 }) := by
  rw [drive_advance _ _ _ _ _ hfault]
  exact congrArg _ (callAnswer_request _ _ _ _ _ .hdrBuf _ h hok)

/-- The last four steps make no request: the header is parsed and put out, and the working copy is committed in RAW. -/
theorem drive_initParse (hfault : s.fault = none) :
    drive cfg 4 (advance s .initParse w)
      = returnOk { s with hdrOut := some w.hdrBuf, regs := { headerParse w.regs w.hdrBuf with encState := .raw } } := by
  refine Eq.trans (drive_advance _ 3 _ .initParse _ hfault) ?_
  refine Eq.trans (drive_advance _ 2 _ .initOutput _ hfault) ?_
  refine Eq.trans (drive_advance _ 1 _ .initEnter _ hfault) ?_
  exact drive_advance _ 0 _ .initReturn _ hfault

end InitSteps

/-! ## INIT from its first step to its end -/

/-- What INIT captures from an answer that is cut to its size, it reads from the answer itself (60_exceptions R211). -/
theorem le32_restrict (m : Memory) {off n : Nat} (h : off + 4 ≤ n) : le32 (m.restrict n) off = le32 m off := by
  have inside : ∀ i < n, (m.restrict n).read i = m.read i := fun i hi => by rw [read_restrict, if_pos hi]
  rw [le32, inside (off + 3) (by omega), inside (off + 2) (by omega), inside (off + 1) (by omega), inside off (by omega),
    le32]

theorem headerParse_restrict (r : Regs) (h : Memory) : headerParse r (h.restrict 0x1000) = headerParse r h := by
  simp [headerParse, le32_restrict, read_restrict]

/-- The events of an INIT whose requests were answered with these statuses (R163). -/
def initEvents (cfg : Cfg) (st0 st1 st2 st3 : U32) : List Event :=
  [.reset (some st0), .send cfg.dummyCmd cfg.dummyReadSize (dummyFlags cfg) (some st1), .delay cfg.initDelay,
    .send cfg.rawChipidCmd 4 cfg.rawChipidFlags (some st2), .send cfg.headerCmd 0x1000 cfg.headerFlags (some st3)]

/-- The ten steps of INIT where the platform answers each request, and no command fails. -/
theorem drive_init_succeeds {cfg : Cfg} {s : State} {a0 a1 d a2 a3 : Answer} {rest : List (Option Answer)} (w : Work)
    (hfault : s.fault = none)
    (h : s.answers = some a0 :: some a1 :: some d :: some a2 :: some a3 :: rest) (h0 : 0 ≤ a0.st.toInt)
    (h1 : 0 ≤ a1.st.toInt) (h2 : 0 ≤ a2.st.toInt) (h3 : 0 ≤ a3.st.toInt) :
    drive cfg 10 (advance s .initReset w) = returnOk { s with
      hdrOut := some (a3.bytes.restrict 0x1000)
      regs := { headerParse { w.regs with rawChipId := some (le32 a2.bytes 0) } a3.bytes with encState := .raw }
      answers := rest
      trace := s.trace ++ initEvents cfg a0.st a1.st a2.st a3.st } := by
  refine Eq.trans (drive_initReset 9 w hfault h h0) ?_
  refine Eq.trans (drive_initDummy 8 w hfault rfl h1) ?_
  refine Eq.trans (drive_initDelay 7 w hfault rfl) ?_
  refine Eq.trans (drive_initRawChipid 6 w hfault rfl h2) ?_
  refine Eq.trans (drive_initCapture 5 _ hfault) ?_
  refine Eq.trans (drive_initHeaderRead 4 _ hfault rfl h3) ?_
  refine Eq.trans (drive_initParse _ hfault) ?_
  rw [headerParse_restrict, le32_restrict _ (by decide)]
  simp [afterRequest, initEvents]

/-- Settles O25: INIT's precondition holds, its ten steps are `drive_init_succeeds`, and it ends at IDLE, where it began. -/
theorem initCapturesChipIdAndHeader : Obligations.InitCapturesChipIdAndHeader := by
  intro s a0 a1 d a2 a3 rest hs huninit hanswers h0 h1 h2 h3 id h fd t
  refine ⟨hostOp_requireState_holds hs huninit _, ?_⟩
  obtain ⟨hseq, hfault⟩ := hs
  have hend := drive_init_succeeds (cfg := Config.cfg) (s := clearPorts s) (beginWork s) hfault hanswers h0 h1 h2 h3
  exact hend.trans (finish_of_idle (by exact hseq) okStatus)

end Sys2Proof.Proofs
end

