-- ==== Sys2Proof/Proofs/BusWords.lean ====
section
/-!
SUPPORT. The bus words (30_encoding R78 to R81, candidates by log 5): the fields of the two layouts read back, the command nibble
tells the rows apart, and so the decoder inverts the encoder on every row.
-/

namespace Sys2Proof.Proofs

/-! ## The fields of the KEY1 plaintext layout (R78) -/

/-- The nibble at which the rows of the bus command table differ. -/
def busNibble (w : U64) : U4 := w.extractLsb' 4 4

theorem busNibble_key1Layout (c : U4) (a : U16) (n : U24) (k20 : U20) : busNibble (key1LayoutCandidate c a n k20) = c := by
  apply BitVec.eq_of_getLsbD_eq
  intro i hi
  simp only [busNibble, key1LayoutCandidate, BitVec.getLsbD_append, BitVec.getLsbD_extractLsb']
  grind

theorem key1Argument_key1Layout (c : U4) (a : U16) (n : U24) (k20 : U20) :
    key1Argument (key1LayoutCandidate c a n k20) = a := by
  apply BitVec.eq_of_getLsbD_eq
  intro i hi
  simp only [key1Argument, key1LayoutCandidate, BitVec.getLsbD_append, BitVec.getLsbD_extractLsb']
  grind

theorem key1Nonce_key1Layout (c : U4) (a : U16) (n : U24) (k20 : U20) : key1Nonce (key1LayoutCandidate c a n k20) = n := by
  apply BitVec.eq_of_getLsbD_eq
  intro i hi
  simp only [key1Nonce, key1LayoutCandidate, BitVec.getLsbD_append, BitVec.getLsbD_extractLsb']
  grind

theorem key1Counter_key1Layout (c : U4) (a : U16) (n : U24) (k20 : U20) :
    key1Counter (key1LayoutCandidate c a n k20) = k20 := by
  apply BitVec.eq_of_getLsbD_eq
  intro i hi
  simp only [key1Counter, key1LayoutCandidate, BitVec.getLsbD_append, BitVec.getLsbD_extractLsb']
  grind

/-! ## The fields of the activation layout (R79) -/

theorem busNibble_actLayout (ij : U24) (k20 : U20) : busNibble (actLayoutCandidate act1Opcode ij k20) = 0x3 := by
  apply BitVec.eq_of_getLsbD_eq
  intro i hi
  simp only [busNibble, actLayoutCandidate, BitVec.getLsbD_append, BitVec.getLsbD_extractLsb']
  interval_cases i <;> rfl

theorem actNonce_actLayout (opc : U8) (ij : U24) (k20 : U20) : actNonce (actLayoutCandidate opc ij k20) = ij := by
  apply BitVec.eq_of_getLsbD_eq
  intro i hi
  simp only [actNonce, actLayoutCandidate, BitVec.getLsbD_append, BitVec.getLsbD_extractLsb']
  grind

theorem actCounter_actLayout (opc : U8) (ij : U24) (k20 : U20) : actCounter (actLayoutCandidate opc ij k20) = k20 := by
  apply BitVec.eq_of_getLsbD_eq
  intro i hi
  simp only [actCounter, actLayoutCandidate, BitVec.getLsbD_append, BitVec.getLsbD_extractLsb']
  grind

/-- The fixed bits of an activation word are its opcode's, whatever the nonce and the counter are. -/
theorem actLayout_and_actFixedMask (ij : U24) (k20 : U20) :
    actLayoutCandidate act1Opcode ij k20 &&& actFixedMask = act1Opcode.setWidth 64 := by
  apply BitVec.eq_of_getLsbD_eq
  intro i hi
  simp only [actLayoutCandidate, BitVec.getLsbD_and, BitVec.getLsbD_append, BitVec.getLsbD_setWidth]
  interval_cases i <;> simp [actFixedMask, act1Opcode]

/-! ## The command nibble tells the rows apart -/

theorem ne_of_busNibble_ne {w v : U64} (h : busNibble w ≠ busNibble v) : w ≠ v := fun hwv => h (hwv ▸ rfl)

/-- A word with the fixed bits of an activation has its nibble. -/
theorem busNibble_of_and_actFixedMask {w : U64} (h : w &&& actFixedMask = act1Opcode.setWidth 64) : busNibble w = 0x3 := by
  have hmask : busNibble (w &&& actFixedMask) = busNibble w := by
    apply BitVec.eq_of_getLsbD_eq
    intro i hi
    simp only [busNibble, BitVec.getLsbD_extractLsb', BitVec.getLsbD_and]
    interval_cases i <;> simp [actFixedMask]
  rw [← hmask, h]
  rfl

/-- A word whose nibble is none of the four fixed commands' and not the activation's is read by its nibble. -/
theorem decodeBus_of_busNibble {w : U64} (h9 : busNibble w ≠ 0x9) (h0 : busNibble w ≠ 0x0) (hB : busNibble w ≠ 0xB)
    (h3 : busNibble w ≠ 0x3) :
    decodeBus w =
      if busNibble w = seedNibble then .ok (.busKey2SeedInit (key1Argument w) (key1Nonce w) (key1Counter w))
      else if busNibble w = chipidNibble then .ok (.busKey1Chipid (key1Argument w) (key1Nonce w) (key1Counter w))
      else if busNibble w = secreadNibble then .ok (.busSecureRead (key1Argument w) (key1Nonce w) (key1Counter w))
      else if busNibble w = act2Nibble then .ok (.busActivateKey2 (key1Argument w) (key1Nonce w) (key1Counter w))
      else .error .unknownBusCommand := by
  rw [decodeBus, if_neg (ne_of_busNibble_ne (v := dummyWord) h9), if_neg (ne_of_busNibble_ne (v := rawChipidWord) h9),
    if_neg (ne_of_busNibble_ne (v := headerWord) h0), if_neg (ne_of_busNibble_ne (v := key2ChipidWord) hB),
    if_neg fun h => h3 (busNibble_of_and_actFixedMask h)]
  rfl

theorem decodeBus_key1Layout {c : U4} (a : U16) (n : U24) (k20 : U20)
    (hc : c ∈ [seedNibble, chipidNibble, secreadNibble, act2Nibble]) :
    decodeBus (key1LayoutCandidate c a n k20) =
      if c = seedNibble then .ok (.busKey2SeedInit a n k20) else if c = chipidNibble then .ok (.busKey1Chipid a n k20)
      else if c = secreadNibble then .ok (.busSecureRead a n k20) else if c = act2Nibble then .ok (.busActivateKey2 a n k20)
      else .error .unknownBusCommand := by
  have hfixed : c ≠ 0x9 ∧ c ≠ 0x0 ∧ c ≠ 0xB ∧ c ≠ 0x3 := by
    revert hc
    revert c
    decide
  obtain ⟨h9, h0, hB, h3⟩ := hfixed
  rw [decodeBus_of_busNibble (by rwa [busNibble_key1Layout]) (by rwa [busNibble_key1Layout])
    (by rwa [busNibble_key1Layout]) (by rwa [busNibble_key1Layout]), busNibble_key1Layout, key1Argument_key1Layout,
    key1Nonce_key1Layout, key1Counter_key1Layout]

theorem decodeBus_actLayout (ij : U24) (k20 : U20) :
    decodeBus (actLayoutCandidate act1Opcode ij k20) = .ok (.busActivateKey1 ij k20) := by
  have hnibble : ∀ v, busNibble v ≠ 0x3 → actLayoutCandidate act1Opcode ij k20 ≠ v := fun v hv =>
    ne_of_busNibble_ne (by rw [busNibble_actLayout]; exact hv.symm)
  rw [decodeBus, if_neg (hnibble dummyWord (by decide)), if_neg (hnibble rawChipidWord (by decide)),
    if_neg (hnibble headerWord (by decide)), if_neg (hnibble key2ChipidWord (by decide)),
    if_pos (actLayout_and_actFixedMask ij k20), actNonce_actLayout, actCounter_actLayout]

/-! ## Decoding what the encoder writes -/

/-- The decoder inverts the encoder on the bus rows. -/
theorem decodeBus_of_encode {w : U64} {i : Instr} (h : encode i = .bus w) : decodeBus w = .ok i := by
  cases i <;> simp only [encode, howWord, Code.bus.injEq, reduceCtorEq] at h
  all_goals subst h
  case busDummy | busRawChipid | busHeaderRead | busKey2Chipid => rfl
  case busActivateKey1 ij k20 => exact decodeBus_actLayout ij k20
  case busKey2SeedInit | busKey1Chipid | busSecureRead | busActivateKey2 => exact decodeBus_key1Layout _ _ _ (by decide)

/-- Settles O1: a row has a host word or a bus word, and the decoder of its kind inverts the encoder. -/
theorem decodeOfEncodeIsTheInstruction : Obligations.DecodeOfEncodeIsTheInstruction := by
  intro i _
  cases hword : encode i with
  | how w => exact decodeHow_of_encode hword
  | bus w => exact decodeBus_of_encode hword

/-- Settles O3: each word lies in one row of its table, or in one of the four cases of R72. -/
theorem wordsOfTheTablesDecode : Obligations.WordsOfTheTablesDecode :=
  ⟨rfl, rfl, rfl, rfl, rfl, rfl, rfl, rfl, rfl, rfl, rfl, rfl, rfl⟩

end Sys2Proof.Proofs
end

