-- ==== Sys2Proof/Proofs/MachineStep.lean ====
section
/-!
SUPPORT. What a step of the machine is (10_state R28): a block reset, a pass, the host's next operation, or one step of the
sequencer; and what an operation of either kind does at a state where it does not run.
-/

namespace Sys2Proof.Proofs

open Sys2Proof.Machine Sys2Proof.Safety Sys2Proof.Laws

/-! ## The two kinds of operation -/

/-- The fault of the state, if it has one, is not UNWRITTEN_READ. -/
def NoUnwrittenRead (s : State) : Prop := ∀ info, s.fault ≠ some ⟨.unwrittenRead, info⟩

theorem noUnwrittenRead_of_fault_none {s : State} (h : s.fault = none) : NoUnwrittenRead s := by
  simp [NoUnwrittenRead, h]

theorem noUnwrittenRead_raiseContract (s : State) (b : ContractBreach) : NoUnwrittenRead (raiseContract s b) := by
  simp [NoUnwrittenRead, raiseContract]

/-- The operations that read a register before their step list begins, and when they find it unwritten (41_key1_encoder R136,
43_state_machine R167, R168). -/
def FindsUnwritten (i : Instr) (r : Regs) : Prop :=
  i = .k1Encode ∨ r.encState = .key1 ∧ (r.k1Ij = none ∨ r.k1K = none ∨ r.k1L = none)

/-- A host operation is a body behind the checks that all of them share, and few bodies can find a register unwritten. -/
theorem exists_body_of_isHostOperation {i : Instr} (h : isHostOperation i = true) :
    ∃ body, (∀ s, exec i s = hostOp s body)
      ∧ ∀ s, s.fault = none → NoUnwrittenRead (body s) ∨ FindsUnwritten i s.regs := by
  cases i
  case busDummy | busRawChipid | busHeaderRead | busActivateKey1 | busKey2SeedInit | busKey1Chipid | busSecureRead
      | busActivateKey2 | busKey2Chipid => cases h
  all_goals
    dsimp only [exec, execInit, execSetup, setupOp, execBegin1, execReadsec, execBegin2, inspectReg, execInspectEncState,
      execInspectSchedValid, execInspectHwSeed, execInspectRawChipId, execInspectHdrGameCode, execInspectHdrKey1Timing,
      execInspectHdrKey2Timing, execInspectK2SeedByte, execInspectK1Key0, execInspectK1Key1, execInspectK1Key2,
      execInspectK1Ij, execInspectK1K, execInspectK1L, execInspectK1Flags, execInspectK1Sched, inspectSchedOp,
      execInspectK2Mn, execInspectK2Flags, execInspectK2ChipId, execInspectK2X, execInspectK2Y, codecGet, codecGetBit,
      codecSet, codecSetBool, execNfConstruct, execNfGetPredelay, execNfSetPredelay, execNfGetPostdelay,
      execNfSetPostdelay, execNfGetPulse, execNfSetPulse, execNfGetCmdenc, execNfSetCmdenc, execNfGetDataenc,
      execNfSetDataenc, execNfGetSlow, execNfSetSlow, execNfGetSecen, execK1Encode, k1EncodeOp, execK1Derive, execK2Seed,
      k2SeedOp]
    refine ⟨_, fun _ => rfl, fun s hf => ?_⟩
  case init =>
    unfold requireState
    split <;> exact .inl (noUnwrittenRead_of_fault_none hf)
  case setup | begin1 =>
    unfold requireState
    split
    · dsimp only
      split
      · exact .inl (noUnwrittenRead_raiseContract s _)
      · exact .inl (noUnwrittenRead_of_fault_none hf)
    · exact .inl (noUnwrittenRead_of_fault_none hf)
  case readsec =>
    unfold requireState
    split
    next he =>
      exact formKey1_elim (fun t => NoUnwrittenRead t ∨ _) (fun hij => .inr (.inr ⟨he, .inl hij⟩))
        (fun hk => .inr (.inr ⟨he, .inr (.inl hk)⟩)) fun _ _ _ _ => .inl (noUnwrittenRead_of_fault_none hf)
    next => exact .inl (noUnwrittenRead_of_fault_none hf)
  case begin2 =>
    unfold requireState
    split
    next he =>
      refine readReg_elim (fun t => NoUnwrittenRead t ∨ _) (fun hl => .inr (.inr ⟨he, .inr (.inr hl)⟩)) fun l _ => ?_
      exact formKey1_elim (fun t => NoUnwrittenRead t ∨ _) (fun hij => .inr (.inr ⟨he, .inl hij⟩))
        (fun hk => .inr (.inr ⟨he, .inr (.inl hk)⟩)) fun _ _ _ _ => .inl (noUnwrittenRead_of_fault_none hf)
    next => exact .inl (noUnwrittenRead_of_fault_none hf)
  case inspectK1Sched | k2Seed =>
    split
    · exact .inl (noUnwrittenRead_raiseContract s _)
    · exact .inl (noUnwrittenRead_of_fault_none hf)
  case k1Encode => exact .inr (.inl rfl)
  all_goals exact .inl (noUnwrittenRead_of_fault_none hf)

/-- A bus command is the request of a step that sends it. -/
theorem exists_atRequest_of_bus {i : Instr} (h : isHostOperation i = false) (s : State) :
    ∃ p q, positionInstr p = some i ∧ exec i s = atRequest s p q := by
  cases i
  case busDummy | busRawChipid | busHeaderRead | busActivateKey1 | busKey2SeedInit | busKey1Chipid | busSecureRead
      | busActivateKey2 | busKey2Chipid => exact ⟨_, _, rfl, rfl⟩
  all_goals cases h

/-- Settles O8: the shared checks come before the body. -/
theorem latchedFaultAnswersEveryOperation : Obligations.LatchedFaultAnswersEveryOperation := by
  intro i s f hi hseq hfault
  obtain ⟨body, hexec, -⟩ := exists_body_of_isHostOperation hi
  rw [hexec, hostOp_latched body hseq hfault]
  rfl

/-- Settles O9: the shared checks come before the body. -/
theorem busyEngineRefusesHostOperations : Obligations.BusyEngineRefusesHostOperations := by
  intro i s p w hi hseq
  obtain ⟨body, hexec, -⟩ := exists_body_of_isHostOperation hi
  rw [hexec, hostOp_busy body hseq]

theorem atRequest_idle {s : State} (p : Position) (q : Exchange) (hs : s.seq = .idle) :
    atRequest s p q = .fault .notOutstanding := by
  simp [atRequest, hs]

theorem atRequest_elsewhere {s : State} {p p' : Position} {w : Work} (q : Exchange)
    (hs : s.seq = .run p' w ∨ s.seq = .wait p' w) (hp : p' ≠ p) : atRequest s p q = .fault .notOutstanding := by
  rcases hs with hs | hs <;> simp [atRequest, hs, hp]

/-- Settles O11: a sequencer at the request of the command stands at a step that sends it. -/
theorem busCommandNeedsItsStage : Obligations.BusCommandNeedsItsStage := by
  intro i s hi
  obtain ⟨p, q, hp, hexec⟩ := exists_atRequest_of_bus hi s
  refine ⟨fun hidle => by rw [hexec, atRequest_idle p q hidle], fun p' w hs hp' => ?_⟩
  rw [hexec, atRequest_elsewhere q hs fun heq => hp' (heq ▸ hp)]

/-! ## The host's event -/

theorem resetNext_eq_true_iff (s : State) : resetNext s = true ↔ ∃ rest, s.host = .blockReset :: rest := by
  unfold resetNext
  split
  next rest h => simp [h]
  next h => simpa using h

/-- The state in which a host operation runs: it is taken from the list, and its word and operands are on the ports
(30_encoding R70). -/
def accepted (s : State) (o : HostOp) (rest : List HostEvent) : State := { s with host := rest, ports := o }

theorem fetch_offered {s : State} {o : HostOp} {rest : List HostEvent} (hs : s.seq = .idle) (hh : s.host = .op o :: rest) :
    fetch s = accept s o rest := by
  simp [fetch, offered, hs, hh]

theorem step_operation {s : State} {o : HostOp} {rest : List HostEvent} {i : Instr} (hs : s.seq = .idle)
    (hh : s.host = .op o :: rest) (hdec : decodeHow o.how = .ok i) : step s = exec i (accepted s o rest) := by
  simp only [step, fetch_offered hs hh, accept, decode, hdec, accepted]

theorem step_illegal {s : State} {o : HostOp} {rest : List HostEvent} {e : DecodeError} (hs : s.seq = .idle)
    (hh : s.host = .op o :: rest) (hdec : decodeHow o.how = .error e) :
    step s = illegalOperation (accepted s o rest) := by
  simp only [step, fetch_offered hs hh, accept, decode, hdec, accepted]

theorem step_blockReset {s : State} {rest : List HostEvent} (hh : s.host = .blockReset :: rest) :
    step s = .next (blockReset { s with host := rest }) := by
  simp only [step, fetch, hh]

theorem step_pass {s : State} (hs : s.seq = .idle) (hh : s.host = [] ∨ ∃ rest, s.host = .pass :: rest) :
    step s = .next (afterPass s) := by
  obtain hh | ⟨rest, hh⟩ := hh <;> simp [step, fetch, afterPass, goOn, hh, hs]

/-- Settles O4. -/
theorem stepRunsTheHostOperation : Obligations.StepRunsTheHostOperation := by
  intro s o rest i hs hh hdec _
  exact step_operation hs hh hdec

/-- Settles O6: an illegal word is one that the decoder rejects, and `illegalOperation` is a host operation. -/
theorem illegalWordLatchesIllegalOp : Obligations.IllegalWordLatchesIllegalOp := by
  intro s o rest hs hh hillegal
  have hrejected : ¬∃ i, decodeHow o.how = .ok i := by
    rw [← illegalWord_eq_false_iff_decodes, hillegal]
    decide
  cases hdec : decodeHow o.how with
  | ok i => exact absurd ⟨i, hdec⟩ hrejected
  | error e =>
    rw [step_illegal hs hh hdec, illegalOperation]
    refine ⟨fun hfault => ?_, fun f hfault => ?_⟩
    · rw [hostOp_runs (s := accepted s o rest) _ hs hfault, raiseIllegal, raise, finish, ← hs]
      rfl
    · rw [hostOp_latched (s := accepted s o rest) _ hs hfault, refuseLatched, ← hfault]
      rfl

/-- Settles O7. -/
theorem blockResetGivesTheResetState : Obligations.BlockResetGivesTheResetState := by
  intro s rest hh
  exact ⟨_, step_blockReset hh, rfl, rfl, rfl, rfl, rfl, rfl, rfl, rfl, rfl, rfl, rfl, rfl, rfl, rfl, rfl, rfl, rfl, rfl,
    rfl, rfl, rfl, rfl, rfl, rfl, rfl, rfl, rfl, rfl, rfl, rfl, rfl⟩

/-! ## Every step -/

/-- What a step that answers a next state was. -/
inductive StepCase (s : State) : State → Prop
  | reset {rest : List HostEvent} (hhost : s.host = .blockReset :: rest) : StepCase s (blockReset { s with host := rest })
  | pass (hseq : s.seq = .idle) (hreset : resetNext s = false) : StepCase s (afterPass s)
  | latched {o : HostOp} {rest : List HostEvent} {f : FaultRecord} (hseq : s.seq = .idle)
      (hhost : s.host = .op o :: rest) (hfault : s.fault = some f) : StepCase s (refuseLatched (accepted s o rest) f)
  | illegal {o : HostOp} {rest : List HostEvent} (hseq : s.seq = .idle) (hhost : s.host = .op o :: rest)
      (hfault : s.fault = none) : StepCase s (raiseIllegal (clearPorts (accepted s o rest)) o.how)
  | operation {o : HostOp} {rest : List HostEvent} {i : Instr} {t : State} (hseq : s.seq = .idle)
      (hhost : s.host = .op o :: rest) (hfault : s.fault = none) (hword : encode i = .how o.how)
      (hexec : exec i (accepted s o rest) = .next t)
      (hbody : bodyResult (listedOperation o.how) (clearPorts (accepted s o rest)) t) : StepCase s t
  | sequencer {p : Position} {w : Work} (hseq : s.seq = .run p w ∨ s.seq = .wait p w) (hreset : resetNext s = false) :
      StepCase s (seqStep Config.cfg (afterPass s))

/-- An operation that the engine accepts at IDLE. -/
theorem step_cases_of_op {s t : State} {o : HostOp} {rest : List HostEvent} (hs : s.seq = .idle)
    (hh : s.host = .op o :: rest) (h : step s = .next t) : StepCase s t := by
  cases hdec : decodeHow o.how with
  | error e =>
    rw [step_illegal hs hh hdec] at h
    obtain ⟨-, ⟨f, hf, rfl⟩ | ⟨hf, rfl⟩⟩ := hostOp_next h
    · exact .latched hs hh hf
    · exact .illegal hs hh hf
  | ok i =>
    rw [step_operation hs hh hdec] at h
    have hword := encode_of_decodeHow hdec
    obtain ⟨-, ⟨f, hf, rfl⟩ | ⟨hf, hbody⟩⟩ := exec_hostOperation hword h
    · exact .latched hs hh hf
    · exact .operation hs hh hf hword h hbody

theorem step_cases {s t : State} (h : step s = .next t) : StepCase s t := by
  cases hreset : resetNext s with
  | true =>
    obtain ⟨rest, hh⟩ := (resetNext_eq_true_iff s).1 hreset
    rw [step_blockReset hh] at h
    cases h
    exact .reset hh
  | false =>
    cases hs : s.seq with
    | run p w =>
      rw [step_running (.inl hs) hreset] at h
      cases h
      exact .sequencer (.inl hs) hreset
    | wait p w =>
      rw [step_running (.inr hs) hreset] at h
      cases h
      exact .sequencer (.inr hs) hreset
    | idle =>
      match hh : s.host with
      | .op o :: rest => exact step_cases_of_op hs hh h
      | .blockReset :: rest => simp [resetNext, hh] at hreset
      | .pass :: rest =>
        rw [step_pass hs (.inr ⟨rest, hh⟩)] at h
        cases h
        exact .pass hs hreset
      | [] =>
        rw [step_pass hs (.inl hh)] at h
        cases h
        exact .pass hs hreset

/-! ## The state after reset -/

/-- At reset every register is unwritten and nothing runs. -/
theorem goodState_reset : GoodState State.reset := by
  have hsched : ScheduleOk Config.cfg Regs.reset := ⟨rfl, rfl, fun _ h => by cases h⟩
  have htrace : TraceOk State.reset := fun _ h => by cases h
  exact ⟨⟨hsched, rfl⟩, trivial, htrace⟩

/-- Settles O13: there is no buffer, no answer and no working copy. -/
theorem resetStateIsGood : Obligations.ResetStateIsGood := by
  have hanswers : ∀ a, some a ∈ State.reset.answers → Memory.wf a.bytes = true := fun _ h => by cases h
  refine ⟨goodState_reset, rfl, rfl, hanswers, fun p w h => ?_⟩
  obtain h | h := h <;> cases h

end Sys2Proof.Proofs
end

