-- ==== Sys2Proof/Proofs/SequencerStep.lean ====
section
/-!
SUPPORT. What a step of the sequencer can do, whatever the state (10_state R28): a step without a request faults, moves on or
ends; the answer of a request aborts, moves on or stores a chunk. The order of the steps, the trace and the buffers follow.
-/

namespace Sys2Proof.Proofs

open Sys2Proof.Machine Sys2Proof.Safety Sys2Proof.Laws

/-! ## A step that makes no request -/

/-- `p'` is the next step of the list that `p` is in. -/
def follows (p p' : Position) : Prop := p'.op = p.op ∧ p'.index = p.index + 1

/-- What a step that makes no request can do. -/
inductive LocalResult (s : State) (p : Position) (w : Work) : State → Prop
  | faults (r : RegName) : LocalResult s p w (raiseUnwritten s r)
  | moves {p' : Position} (hp : follows p p') (r r' : Regs) {out : Option Memory}
      (hout : out = s.hdrOut ∨ out = some w.hdrBuf) :
      LocalResult s p w (advance { s with regs := r, hdrOut := out } p' { w with regs := r' })
  | ends (r : Regs) (v : Option U64) (st : Status) : LocalResult s p w (finish { s with regs := r, res0 := v } st)

variable {s : State} {p p' : Position} {w : Work}

/-- The next step comes, and nothing but the working copy's registers has changed. -/
theorem localResult_advance (r' : Regs) (hp : follows p p') : LocalResult s p w (advance s p' { w with regs := r' }) :=
  .moves hp s.regs r' (.inl rfl)

theorem localResult_formKey1 {a : U16} {r : RegName} {v : Option U24} {mk : U16 → U24 → U20 → Position} (r' : Regs)
    (hmk : ∀ n k20, follows p (mk a n k20)) : LocalResult s p w (formKey1 s { w with regs := r' } a r v mk) :=
  formKey1_elim (LocalResult s p w) (fun _ => .faults _) (fun _ => .faults _) fun n kk _ _ =>
    localResult_advance r' (hmk n (lowCounter kk))

theorem localResult_readReg {α : Type} {r : RegName} {v : Option α} {k : α → State}
    (hk : ∀ x, LocalResult s p w (k x)) : LocalResult s p w (readReg s r v k) :=
  readReg_elim (LocalResult s p w) (fun _ => .faults r) fun x _ => hk x

theorem localResult_compareStep (entered : EncState) : LocalResult s p w (compareStep s w entered) := by
  refine localResult_readReg fun chipId => localResult_readReg fun rawId => ?_
  split
  · exact .ends { w.regs with encState := entered } s.res0 _
  · exact .ends { w.regs with encState := .unknown } s.res0 _

/-- Every step without a request. -/
theorem runPosition_local {cfg : Cfg} (hp : exchangeOf cfg p = none) (s : State) (w : Work) :
    LocalResult s p w (runPosition cfg s w p) := by
  cases p
  case initReset | initDummy | initDelay | initRawChipid | initHeaderRead | begin1Activate | begin1SeedInit | begin1Chipid
      | readsecRead | begin2Activate | begin2Chipid => cases hp
  case initCapture | initParse | initEnter | begin1Constants | begin1StoreId | begin2StoreId =>
    exact localResult_advance _ (by exact ⟨rfl, rfl⟩)
  case initOutput => exact .moves (p := .initOutput) (p' := .initEnter) ⟨rfl, rfl⟩ s.regs w.regs (.inr rfl)
  case initReturn => exact .ends w.regs s.res0 okStatus
  case setupFirst => exact localResult_readReg fun _ => localResult_advance _ (by exact ⟨rfl, rfl⟩)
  case setupSecond =>
    exact localResult_readReg fun _ => localResult_readReg fun _ => localResult_advance _ (by exact ⟨rfl, rfl⟩)
  case setupWrite =>
    exact .moves (p := .setupWrite) (p' := .setupReturn) (w := w) ⟨rfl, rfl⟩
      { s.regs with k1Sched := w.regs.k1Sched, k1Key := w.regs.k1Key, schedValid := true } w.regs (.inl rfl)
  case setupReturn => exact .ends s.regs s.res0 okStatus
  case begin1Word =>
    exact localResult_readReg fun _ => localResult_readReg fun _ => localResult_readReg fun _ =>
      localResult_formKey1 _ fun _ _ => ⟨rfl, rfl⟩
  case begin1SeedPair =>
    exact localResult_readReg fun _ => localResult_readReg fun _ => localResult_advance _ (by exact ⟨rfl, rfl⟩)
  case begin1PlatformSeed =>
    have hsoft : cfg.hwSeed = false := by simpa [exchangeOf] using hp
    rw [runPosition, platformSeedStep_software s w hsoft]
    exact localResult_advance w.regs ⟨rfl, rfl⟩
  case begin1Enable =>
    exact localResult_readReg fun _ => localResult_readReg fun _ => localResult_formKey1 _ fun _ _ => ⟨rfl, rfl⟩
  case begin1Compare | begin2Compare => exact localResult_compareStep _
  case readsecCounter =>
    exact .moves (p := .readsecCounter) (p' := .readsecReturn) (w := w) ⟨rfl, rfl⟩
      { s.regs with k1K := w.regs.k1K } w.regs (.inl rfl)
  case readsecReturn => exact .ends s.regs s.res0 _
  case begin2Word => exact localResult_readReg fun _ => localResult_advance _ (by exact ⟨rfl, rfl⟩)
  case inspectCheck => exact localResult_readReg fun _ => localResult_advance w.regs (by exact ⟨rfl, rfl⟩)
  case inspectRead => exact localResult_readReg fun v => .ends s.regs (some v) okStatus

/-! ## The answer of a request -/

/-- The state when an answer is taken: its status joins its event (60_exceptions R214). -/
def answered (s : State) (a : Answer) (rest : List (Option Answer)) : State :=
  { s with answers := rest, trace := settle s.trace a.st }

/-- What a `call` does with a good answer and with a failing one (43_state_machine R162). -/
structure Call where
  stage : U8
  size : U32
  dest : Dest
  next : Position

/-- The requests that a failing answer aborts: the link reset, and every command but the secure reads (43_state_machine
R163, R166, R168). The size of an answer that is not kept is left at 0. -/
def callOf : Position → Option Call
  | .initReset => some ⟨0, 0, .none, .initDummy⟩
  | .initDummy => some ⟨1, 0, .discard, .initDelay⟩
  | .initRawChipid => some ⟨2, Config.chipIdSize, .rsp4, .initCapture⟩
  | .initHeaderRead => some ⟨3, Config.headerSize, .hdrBuf, .initParse⟩
  | .begin1Activate _ _ => some ⟨1, 0, .none, .begin1Word⟩
  | .begin1SeedInit _ _ _ => some ⟨2, 0, .none, .begin1SeedPair⟩
  | .begin1Chipid _ _ _ => some ⟨3, Config.chipIdSize, .rsp4, .begin1StoreId⟩
  | .begin2Activate _ _ _ => some ⟨1, 0, .none, .begin2Word⟩
  | .begin2Chipid => some ⟨2, Config.chipIdSize, .rsp4, .begin2StoreId⟩
  | _ => none

/-- The requests that cannot fail (60_exceptions R212, R213), with the step that comes after. -/
def returnOf : Position → Option Position
  | .initDelay => some .initRawChipid
  | .begin1PlatformSeed => some .begin1Enable
  | _ => none

theorem follows_callOf {p : Position} {c : Call} (h : callOf p = some c) : follows p c.next := by
  cases p <;> cases h <;> exact ⟨rfl, rfl⟩

theorem follows_returnOf {p p' : Position} (h : returnOf p = some p') : follows p p' := by
  cases p <;> cases h <;> exact ⟨rfl, rfl⟩

/-- What the answer of a request can do. -/
inductive AnswerResult (s : State) (p : Position) (w : Work) : State → Prop
  | waits : AnswerResult s p w s
  | passes {rest : List (Option Answer)} (h : s.answers = none :: rest) : AnswerResult s p w { s with answers := rest }
  | aborts {a : Answer} {rest : List (Option Answer)} {c : Call} (h : s.answers = some a :: rest)
      (hc : callOf p = some c) : AnswerResult s p w (abort (answered s a rest) w c.stage a.st)
  | moves {a : Answer} {rest : List (Option Answer)} {c : Call} (h : s.answers = some a :: rest)
      (hc : callOf p = some c) :
      AnswerResult s p w (advance (answered s a rest) c.next (deliver w c.dest (a.bytes.restrict c.size.toNat)))
  | returns {a : Answer} {rest : List (Option Answer)} {p' : Position} (h : s.answers = some a :: rest)
      (hp : returnOf p = some p') : AnswerResult s p w (advance (answered s a rest) p' w)
  | reads {a : Answer} {rest : List (Option Answer)} {j : Fin 4} {arg : U16} {n : U24} {k20 : U20}
      (h : s.answers = some a :: rest) (hp : p = .readsecRead j arg n k20) :
      AnswerResult s p w (afterChunk (storeChunk (answered s a rest) j a.st a.bytes) w j)

/-- A step that makes a request makes a `call`, one that cannot fail, or a secure read. -/
theorem request_cases {cfg : Cfg} {q : Exchange} (h : exchangeOf cfg p = some q) :
    (∃ c, callOf p = some c) ∨ (∃ p', returnOf p = some p') ∨ ∃ j a n k20, p = .readsecRead j a n k20 := by
  cases p
  case initReset | initDummy | initRawChipid | initHeaderRead | begin1Activate | begin1SeedInit | begin1Chipid
      | begin2Activate | begin2Chipid => exact .inl ⟨_, rfl⟩
  case initDelay | begin1PlatformSeed => exact .inr (.inl ⟨_, rfl⟩)
  case readsecRead j a n k20 => exact .inr (.inr ⟨j, a, n, k20, rfl⟩)
  all_goals cases h

theorem answer_of_callOf {cfg : Cfg} {q : Exchange} {c : Call} (h : exchangeOf cfg p = some q) (hc : callOf p = some c)
    (s : State) (w : Work) : q.2 s w = callAnswer s w c.stage c.size c.dest c.next := by
  cases p <;> cases hc <;> cases h <;> rfl

theorem answer_of_returnOf {cfg : Cfg} {q : Exchange} (h : exchangeOf cfg p = some q) (hp : returnOf p = some p')
    (s : State) (w : Work) : q.2 s w = onReturn s w p' := by
  cases p <;> cases hp
  case initDelay =>
    cases h
    rfl
  case begin1PlatformSeed =>
    obtain ⟨-, rfl⟩ : cfg.hwSeed = true ∧ platformSeed = q := by simpa [exchangeOf] using h
    rfl

theorem answer_of_readsecRead {cfg : Cfg} {q : Exchange} {j : Fin 4} {arg : U16} {n : U24} {k20 : U20}
    (h : exchangeOf cfg (.readsecRead j arg n k20) = some q) (s : State) (w : Work) :
    q.2 s w = onAnswer s fun s a => afterChunk (storeChunk s j a.st a.bytes) w j := by
  cases h
  rfl

/-- Every request. -/
theorem exchangeOf_answer {cfg : Cfg} {q : Exchange} (h : exchangeOf cfg p = some q) (s : State) (w : Work) :
    AnswerResult s p w (q.2 s w) := by
  obtain ⟨c, hc⟩ | ⟨p', hp'⟩ | ⟨j, arg, n, k20, rfl⟩ := request_cases h
  · rw [answer_of_callOf h hc]
    exact callAnswer_elim (AnswerResult s p w) .waits (fun _ h => .passes h) (fun _ _ h _ => .aborts h hc)
      fun _ _ h _ => .moves h hc
  · rw [answer_of_returnOf h hp']
    exact onReturn_elim (AnswerResult s p w) .waits (fun _ h => .passes h) fun _ _ h => .returns h hp'
  · rw [answer_of_readsecRead h]
    exact onAnswer_elim (AnswerResult s _ w) .waits (fun _ h => .passes h) fun _ _ h => .reads h rfl

/-- After a chunk the next read comes, or the counter is written; the read needs a nonce and a counter. -/
theorem afterChunk_cases (s : State) (w : Work) (j : Fin 4) (a : U16) (n : U24) (k20 : U20) :
    (∃ r, afterChunk s w j = raiseUnwritten s r)
      ∨ ∃ p', follows (.readsecRead j a n k20) p' ∧ afterChunk s w j = advance s p' w := by
  unfold afterChunk
  split
  next hj =>
    exact formKey1_elim (fun t => (∃ r, t = raiseUnwritten s r) ∨ ∃ p', follows _ p' ∧ t = advance s p' w)
      (fun _ => .inl ⟨_, rfl⟩) (fun _ => .inl ⟨_, rfl⟩) fun n kk _ _ =>
        .inr ⟨.readsecRead ⟨j.val + 1, hj⟩ (secureArgument ⟨j.val + 1, hj⟩) n (lowCounter kk), ⟨rfl, rfl⟩, rfl⟩
  next hj =>
    have hlast : (4 : Nat) = j.val + 1 := by omega
    exact .inr ⟨.readsecCounter, ⟨rfl, hlast⟩, rfl⟩

/-! ## Making a request -/

/-- Two working copies have the same answer buffers. -/
def SameBuffers (w w' : Work) : Prop := w'.rsp4 = w.rsp4 ∧ w'.hdrBuf = w.hdrBuf

/-- Where a request is outstanding, its working copy has the answer buffers of `w`. -/
def WaitsWithBuffers (w : Work) (t : State) : Prop := ∀ p w', t.seq = .wait p w' → SameBuffers w w'

theorem waitsWithBuffers_request (s : State) (p : Position) (w : Work) (r : Regs) (used : Bool) (e : Event) :
    WaitsWithBuffers w (request s p { w with regs := r, kused := used } e) := by
  intro _ _ h
  cases h
  exact ⟨rfl, rfl⟩

theorem waitsWithBuffers_readReg {α : Type} {s : State} {w : Work} {r : RegName} {v : Option α} {k : α → State}
    (hk : ∀ x, WaitsWithBuffers w (k x)) : WaitsWithBuffers w (readReg s r v k) :=
  readReg_elim (WaitsWithBuffers w) (fun _ _ _ h => by cases h) fun x _ => hk x

/-- Making a request keeps the answer buffers: it changes the counter of the working copy at most. -/
theorem exchangeOf_waitsWithBuffers {cfg : Cfg} {p : Position} {q : Exchange} (h : exchangeOf cfg p = some q) (s : State)
    (w : Work) : WaitsWithBuffers w (q.1 s w) := by
  refine exchangeOf_cases h (fun _ q => WaitsWithBuffers w (q.1 s w)) ?reset ?dummy ?delay ?rawChipid ?header ?activate1
    ?seedInit ?seed ?chipid1 ?read ?activate2 ?chipid2
  case reset | dummy | delay | rawChipid | header => exact waitsWithBuffers_request s _ w _ _ _
  case activate1 => exact fun _ _ => waitsWithBuffers_readReg fun _ => waitsWithBuffers_request s _ w _ _ _
  case chipid2 => exact waitsWithBuffers_readReg fun _ => waitsWithBuffers_request s _ w _ _ _
  case seed =>
    exact fun _ => waitsWithBuffers_readReg fun _ => waitsWithBuffers_readReg fun _ => waitsWithBuffers_request s _ w _ _ _
  all_goals
    intros
    exact waitsWithBuffers_readReg fun _ => waitsWithBuffers_readReg fun _ => waitsWithBuffers_readReg fun _ =>
      waitsWithBuffers_request s _ w _ _ _

/-! ## Every step of the sequencer -/

/-- A property of a step of the sequencer: it holds of what a step without a request does, of the fault of a request that
cannot be made, and of the answer of a request, just made or outstanding. -/
theorem seqStep_elim {cfg : Cfg} {s : State} {p : Position} {w : Work} (P : State → Prop) (hf : s.fault = none)
    (hs : s.seq = .run p w ∨ s.seq = .wait p w)
    (hlocal : ∀ t, LocalResult s p w t → P t)
    (hstays : s.seq = .wait p w → P s)
    (hrequest : ∀ w' e t, SameBuffers w w' → AnswerResult (request s p w' e) p w' t → P t)
    (hanswer : ∀ t, s.seq = .wait p w → AnswerResult s p w t → P t) : P (seqStep cfg s) := by
  rcases hs with hs | hs
  · rw [seqStep_run cfg hs hf]
    cases hq : exchangeOf cfg p with
    | none => exact hlocal _ (runPosition_local hq s w)
    | some q =>
      rw [runPosition_exchange s w hq]
      refine exchange_elim P hq (fun r _ => hlocal _ (.faults r)) fun w' e heq _ => ?_
      have hbuffers : SameBuffers w w' := exchangeOf_waitsWithBuffers hq s w p w' (by rw [heq]; rfl)
      exact hrequest w' e _ hbuffers (exchangeOf_answer hq _ w')
  · rw [seqStep_wait cfg hs hf, answerPosition]
    cases hq : exchangeOf cfg p with
    | none => exact hstays hs
    | some q => exact hanswer _ hs (exchangeOf_answer hq s w)

/-! ## The host's list -/

theorem LocalResult.host {s t : State} {p : Position} {w : Work} (h : LocalResult s p w t) : t.host = s.host := by
  cases h <;> rfl

theorem AnswerResult.host {s t : State} {p : Position} {w : Work} (h : AnswerResult s p w t) : t.host = s.host := by
  cases h with
  | @reads a rest j arg n k20 _ _ =>
    obtain ⟨r, h⟩ | ⟨p', -, h⟩ := afterChunk_cases (storeChunk (answered s a rest) j a.st a.bytes) w j arg n k20 <;>
      rw [h, storeChunk_eq] <;> rfl
  | _ => rfl

/-- The sequencer takes nothing from the host. -/
theorem seqStep_host (cfg : Cfg) (s : State) : (seqStep cfg s).host = s.host := by
  cases hf : s.fault with
  | some f => rw [seqStep_latched cfg hf]
  | none =>
    cases hs : s.seq with
    | idle => rw [seqStep_idle cfg hs]
    | run p w | wait p w =>
      exact seqStep_elim (p := p) (w := w) (fun t => t.host = s.host) hf (by simp [hs]) (fun _ h => h.host) (fun _ => rfl)
        (fun _ _ _ _ h => h.host) fun _ _ h => h.host

theorem afterPass_of_host_nil {s : State} (h : s.host = []) : afterPass s = s := by
  simp [afterPass, h]

/-- With nothing from the host, a step is the sequencer's, which at IDLE has none. -/
theorem step_of_host_nil {s : State} (h : s.host = []) : step s = .next (seqStep Config.cfg s) := by
  have hreset : resetNext s = false := by simp [resetNext, h]
  cases hs : s.seq with
  | idle => rw [step_pass hs (.inl h), afterPass_of_host_nil h, seqStep_idle _ hs]
  | run p w => rw [step_running (.inl hs) hreset, afterPass_of_host_nil h]
  | wait p w => rw [step_running (.inr hs) hreset, afterPass_of_host_nil h]

/-- Settles O5: a step is the sequencer's at a bus command too, and keeps the host's list empty. -/
theorem stepRunsTheOutstandingCommand : Obligations.StepRunsTheOutstandingCommand := by
  constructor
  · intro s p w hs hreset
    have hstep := step_running hs hreset
    refine ⟨hstep, fun i hi => ?_⟩
    rw [hstep, exec_positionInstr (p := p) (w := w) hi (by simpa using hs)]
  · intro s n hhost
    induction n generalizing s with
    | zero => rfl
    | succ n ih =>
      have hstep : Sys2Proof.core.step s = .next (seqStep Config.cfg s) := step_of_host_nil hhost
      simp only [Host.Core.run, hstep]
      exact ih _ ((seqStep_host _ _).trans hhost)

/-! ## The order of the steps -/

/-- Where a step from `p` leaves the sequencer. -/
def inOrder (p : Position) (t : State) : Prop :=
  t.seq = .idle ∨ (∃ w, t.seq = .wait p w) ∨ ∃ p' w, t.seq = .run p' w ∧ follows p p'

theorem LocalResult.inOrder {s t : State} {p : Position} {w : Work} (h : LocalResult s p w t) : inOrder p t := by
  cases h with
  | faults r => exact .inl rfl
  | moves hp => exact .inr (.inr ⟨_, _, rfl, hp⟩)
  | ends r v st => exact .inl rfl

theorem AnswerResult.inOrder {s t : State} {p : Position} {w : Work} (h : AnswerResult s p w t) (hs : s.seq = .wait p w) :
    inOrder p t := by
  cases h with
  | waits | passes => exact .inr (.inl ⟨w, hs⟩)
  | aborts => exact .inl rfl
  | moves _ hc => exact .inr (.inr ⟨_, _, rfl, follows_callOf hc⟩)
  | returns _ hp => exact .inr (.inr ⟨_, _, rfl, follows_returnOf hp⟩)
  | @reads a rest j arg n k20 _ hp =>
    subst hp
    obtain ⟨r, h⟩ | ⟨p', hp', h⟩ := afterChunk_cases (storeChunk (answered s a rest) j a.st a.bytes) w j arg n k20
    · exact .inl (by rw [h]; rfl)
    · exact .inr (.inr ⟨p', w, by rw [h]; rfl, hp'⟩)

theorem seqStep_inOrder {cfg : Cfg} {s : State} {p : Position} {w : Work} (hf : s.fault = none)
    (hs : s.seq = .run p w ∨ s.seq = .wait p w) : inOrder p (seqStep cfg s) :=
  seqStep_elim (inOrder p) hf hs (fun _ h => h.inOrder) (fun hs => .inr (.inl ⟨w, hs⟩)) (fun _ _ _ _ h => h.inOrder rfl)
    fun _ hs h => h.inOrder hs

/-- A host operation ends in its first step, or begins its own step list. -/
theorem bodyResult_seq {op : Option SeqOp} {s t : State} (h : bodyResult op s t) :
    t.seq = .idle ∨ ∃ p, t.seq = .run p (beginWork s) ∧ p.index = 0 ∧ op = some p.op := by
  obtain ⟨st, rfl⟩ | ⟨f, rfl⟩ | ⟨v, rfl⟩ | ⟨v, v', rfl⟩ | ⟨kk, v, -, -, rfl⟩ | ⟨p, rfl, hop, hindex, -⟩ := h
  case inr.inr.inr.inr.inr => exact .inr ⟨p, rfl, hindex, hop⟩
  all_goals exact .inl rfl

/-- Settles O12: an operation that begins is at index 0 of its list, and a step of the sequencer keeps the list's order. -/
theorem sequencerTakesItsStepsInOrder : Obligations.SequencerTakesItsStepsInOrder := by
  constructor
  · intro i how s t hword hexec
    obtain ⟨hs, ⟨f, -, rfl⟩ | ⟨-, hbody⟩⟩ := exec_hostOperation hword hexec
    · exact .inl hs
    · obtain hidle | ⟨p, hrun, hindex, hop⟩ := bodyResult_seq hbody
      · exact .inl hidle
      · exact .inr ⟨p, _, hrun, hindex, hop⟩
  · intro s t p w hfault hs hreset hstep
    rw [step_running hs hreset] at hstep
    cases hstep
    have horder : inOrder p (seqStep Config.cfg (afterPass s)) :=
      seqStep_inOrder (w := w) (by simpa using hfault) (by simpa using hs)
    obtain hidle | hwait | ⟨p', w', hrun, hop, hindex⟩ := horder
    · exact .inl hidle
    · exact .inr (.inl hwait)
    · exact .inr (.inr ⟨p', w', hrun, hop, hindex⟩)

/-! ## The buffers -/

/-- The buffers of a working copy are in canonical form. -/
def WorkBuffersOk (w : Work) : Prop := Memory.wf w.rsp4 = true ∧ Memory.wf w.hdrBuf = true

/-- The buffers of the working copy of the operation that runs, if one does. -/
def SeqBuffersOk : Seq → Prop
  | .idle => True
  | .run _ w | .wait _ w => WorkBuffersOk w

theorem buffersOk_iff (s : State) :
    BuffersOk s ↔ bufferOk s.hdrOut = true ∧ bufferOk s.secOut = true
      ∧ (∀ a, some a ∈ s.answers → Memory.wf a.bytes = true) ∧ SeqBuffersOk s.seq := by
  unfold BuffersOk
  cases hs : s.seq <;> simp [SeqBuffersOk, WorkBuffersOk]

theorem WorkBuffersOk.of_same {w w' : Work} (hw : WorkBuffersOk w) (h : SameBuffers w w') : WorkBuffersOk w' := by
  rwa [WorkBuffersOk, h.1, h.2]

theorem workBuffersOk_deliver {w : Work} {bytes : Memory} (d : Dest) (hw : WorkBuffersOk w)
    (hb : Memory.wf bytes = true) : WorkBuffersOk (deliver w d bytes) := by
  obtain ⟨hrsp4, hhdrBuf⟩ := hw
  cases d
  case none | discard => exact ⟨hrsp4, hhdrBuf⟩
  case rsp4 => exact ⟨hb, hhdrBuf⟩
  case hdrBuf => exact ⟨hrsp4, hb⟩

theorem storeChunk_secOut_wf {s : State} (j : Fin 4) (st : U32) {bytes : Memory} (hs : bufferOk s.secOut = true)
    (hb : Memory.wf bytes = true) : bufferOk (storeChunk s j st bytes).secOut = true := by
  have hold : Memory.wf (s.secOut.getD []) = true := by
    cases h : s.secOut with
    | none => rfl
    | some m => simpa [h, bufferOk] using hs
  have hnew : Memory.wf (if isError st then freeChunk s.freeCount else bytes) = true := by
    split
    · exact ofFn_wf _ _
    · exact hb
  rw [storeChunk_eq]
  exact memWrite_wf _ _ _ _ hold hnew

theorem LocalResult.buffers {s t : State} {p : Position} {w : Work} (h : LocalResult s p w t) (hs : BuffersOk s)
    (hw : WorkBuffersOk w) : BuffersOk t := by
  rw [buffersOk_iff] at *
  obtain ⟨hhdr, hsec, hanswers, -⟩ := hs
  cases h with
  | faults r => exact ⟨rfl, rfl, hanswers, trivial⟩
  | ends r v st => exact ⟨hhdr, hsec, hanswers, trivial⟩
  | moves _ _ _ hout =>
    refine ⟨?_, hsec, hanswers, hw⟩
    obtain rfl | rfl := hout
    · exact hhdr
    · exact hw.2

theorem AnswerResult.buffers {s t : State} {p : Position} {w : Work} (h : AnswerResult s p w t) (hs : BuffersOk s)
    (hw : WorkBuffersOk w) : BuffersOk t := by
  rw [buffersOk_iff] at *
  obtain ⟨hhdr, hsec, hanswers, hseq⟩ := hs
  have hrest {x : Option Answer} {rest : List (Option Answer)} (h : s.answers = x :: rest) :
      ∀ a, some a ∈ rest → Memory.wf a.bytes = true := fun a ha => hanswers a (h ▸ List.mem_cons_of_mem _ ha)
  cases h with
  | waits => exact ⟨hhdr, hsec, hanswers, hseq⟩
  | passes h => exact ⟨hhdr, hsec, hrest h, hseq⟩
  | aborts h => exact ⟨hhdr, hsec, hrest h, trivial⟩
  | @moves a _ c h =>
    exact ⟨hhdr, hsec, hrest h, workBuffersOk_deliver c.dest hw (restrict_wf _ _ (hanswers a (by simp [h])))⟩
  | returns h => exact ⟨hhdr, hsec, hrest h, hw⟩
  | @reads a rest j arg n k20 h =>
    have hchunk : bufferOk (storeChunk (answered s a rest) j a.st a.bytes).secOut = true :=
      storeChunk_secOut_wf j a.st hsec (hanswers a (by simp [h]))
    obtain ⟨r, heq⟩ | ⟨p', -, heq⟩ := afterChunk_cases (storeChunk (answered s a rest) j a.st a.bytes) w j arg n k20
    · rw [heq, storeChunk_eq]
      exact ⟨rfl, rfl, hrest h, trivial⟩
    · rw [heq]
      refine ⟨?_, hchunk, ?_, hw⟩ <;> rw [storeChunk_eq]
      · exact hhdr
      · exact hrest h

theorem buffersOk_request {s : State} (p : Position) {w : Work} (e : Event) (hs : BuffersOk s) (hw : WorkBuffersOk w) :
    BuffersOk (request s p w e) := by
  rw [buffersOk_iff] at *
  obtain ⟨hhdr, hsec, hanswers, -⟩ := hs
  exact ⟨hhdr, hsec, hanswers, hw⟩

theorem seqStep_buffers {cfg : Cfg} {s : State} {p : Position} {w : Work} (hf : s.fault = none)
    (hs : s.seq = .run p w ∨ s.seq = .wait p w) (hbuffers : BuffersOk s) : BuffersOk (seqStep cfg s) := by
  have hw : WorkBuffersOk w := by
    obtain ⟨-, -, -, hseq⟩ := (buffersOk_iff s).1 hbuffers
    rcases hs with hs | hs <;> simpa [hs, SeqBuffersOk] using hseq
  exact seqStep_elim BuffersOk hf hs (fun _ h => h.buffers hbuffers hw) (fun _ => hbuffers)
    (fun w' e _ hsame h => h.buffers (buffersOk_request p e hbuffers (hw.of_same hsame)) (hw.of_same hsame))
    fun _ _ h => h.buffers hbuffers hw

/-- A host operation clears the buffers, and the working copy that it takes has empty ones. -/
theorem bodyResult_buffers {op : Option SeqOp} {s t : State} (hanswers : ∀ a, some a ∈ s.answers → Memory.wf a.bytes = true)
    (h : bodyResult op (clearPorts s) t) : BuffersOk t := by
  rw [buffersOk_iff]
  obtain ⟨st, rfl⟩ | ⟨f, rfl⟩ | ⟨v, rfl⟩ | ⟨v, v', rfl⟩ | ⟨kk, v, -, -, rfl⟩ | ⟨p, rfl, -⟩ := h
  case inr.inr.inr.inr.inr => exact ⟨rfl, rfl, hanswers, rfl, rfl⟩
  all_goals exact ⟨rfl, rfl, hanswers, trivial⟩

theorem buffersOk_afterPass {s : State} (h : BuffersOk s) : BuffersOk (afterPass s) := by
  unfold afterPass
  split <;> exact h

/-- Settles O15: every step of `step_cases` keeps the buffers, clears them or writes canonical ones. -/
theorem stepKeepsBuffersCanonical : Obligations.StepKeepsBuffersCanonical := by
  intro s t hbuffers hstep
  obtain ⟨hhdr, hsec, hanswers, hseqBuffers⟩ := (buffersOk_iff s).1 hbuffers
  cases step_cases hstep with
  | reset => exact (buffersOk_iff _).2 ⟨rfl, rfl, hanswers, trivial⟩
  | pass => exact buffersOk_afterPass hbuffers
  | latched => exact (buffersOk_iff _).2 ⟨rfl, rfl, hanswers, hseqBuffers⟩
  | @illegal o rest => exact bodyResult_buffers (s := accepted s o rest) hanswers (bodyResult_raise (op := none) _ _)
  | @operation o rest i t _ _ _ _ _ hbody => exact bodyResult_buffers (s := accepted s o rest) hanswers hbody
  | @sequencer p w hseq =>
    have hbuffers' := buffersOk_afterPass hbuffers
    cases hfault : s.fault with
    | none => exact seqStep_buffers (w := w) (by simpa using hfault) (by simpa using hseq) hbuffers'
    | some f => rwa [seqStep_latched _ ((afterPass_fault s).trans hfault)]

/-! ## The trace -/

/-- A settled trace is the trace, or its last event has taken its status. -/
theorem settle_cases (l : List Event) (st : U32) :
    settle l st = l ∨ ∃ l' e, l = l' ++ [e] ∧ e.pending = true ∧ settle l st = l' ++ [e.answered st] := by
  induction l using List.reverseRecOn with
  | nil => exact .inl rfl
  | append_singleton l e _ =>
    rw [settle_append_cons, settle_singleton]
    cases he : e.pending with
    | false => exact .inl (by rw [answered_settled st he])
    | true => exact .inr ⟨l, e, rfl, he, rfl⟩

theorem LocalResult.trace {s t : State} {p : Position} {w : Work} (h : LocalResult s p w t) : t.trace = s.trace := by
  cases h <;> rfl

theorem AnswerResult.trace {s t : State} {p : Position} {w : Work} (h : AnswerResult s p w t) :
    t.trace = s.trace ∨ ∃ st, t.trace = settle s.trace st := by
  cases h with
  | waits | passes => exact .inl rfl
  | aborts | moves | returns => exact .inr ⟨_, rfl⟩
  | @reads a rest j arg n k20 _ _ =>
    refine .inr ⟨a.st, ?_⟩
    obtain ⟨r, h⟩ | ⟨p', -, h⟩ := afterChunk_cases (storeChunk (answered s a rest) j a.st a.bytes) w j arg n k20 <;>
      rw [h, storeChunk_eq] <;> rfl

/-- `l'` is `l` with events appended to it, where the last event of `l` may have taken its status. -/
def Appended (l l' : List Event) : Prop :=
  ∃ es, l' = l ++ es ∨ ∃ l₀ e st, l = l₀ ++ [e] ∧ e.pending = true ∧ l' = l₀ ++ [e.answered st] ++ es

theorem Appended.refl (l : List Event) : Appended l l := ⟨[], .inl (by simp)⟩

theorem appended_settle (l : List Event) (st : U32) : Appended l (settle l st) := by
  obtain h | ⟨l₀, e, rfl, he, h⟩ := settle_cases l st
  · rw [h]
    exact .refl l
  · exact ⟨[], .inr ⟨l₀, e, st, rfl, he, by simp [h]⟩⟩

theorem seqStep_appended {cfg : Cfg} {s : State} {p : Position} {w : Work} (hf : s.fault = none)
    (hs : s.seq = .run p w ∨ s.seq = .wait p w) : Appended s.trace (seqStep cfg s).trace := by
  refine seqStep_elim (fun t => Appended s.trace t.trace) hf hs (fun t h => ?_) (fun _ => .refl _) (fun w' e t _ h => ?_)
    fun t _ h => ?_
  · rw [h.trace]
    exact .refl _
  · obtain h | ⟨st, h⟩ := h.trace
    · exact ⟨[e], .inl h⟩
    · exact ⟨[e.answered st], .inl (by rw [h, request_trace, settle_append_cons, settle_singleton])⟩
  · obtain h | ⟨st, h⟩ := h.trace <;> rw [h]
    · exact .refl _
    · exact appended_settle _ _

theorem bodyResult_trace {op : Option SeqOp} {s t : State} (h : bodyResult op s t) : t.trace = s.trace := by
  obtain ⟨st, rfl⟩ | ⟨f, rfl⟩ | ⟨v, rfl⟩ | ⟨v, v', rfl⟩ | ⟨kk, v, -, -, rfl⟩ | ⟨p, rfl, -⟩ := h <;> rfl

@[simp] theorem afterPass_trace (s : State) : (afterPass s).trace = s.trace := by
  unfold afterPass
  split <;> rfl

/-- Without a block reset events are only appended. -/
theorem step_appended {s t : State} (hreset : resetNext s = false) (hstep : step s = .next t) :
    Appended s.trace t.trace := by
  cases step_cases hstep with
  | reset hhost => simp [resetNext, hhost] at hreset
  | pass =>
    rw [afterPass_trace]
    exact .refl _
  | latched | illegal => exact .refl _
  | operation _ _ _ _ _ hbody =>
    rw [bodyResult_trace hbody]
    exact .refl _
  | @sequencer p w hseq =>
    rw [← afterPass_trace s]
    cases hfault : s.fault with
    | none => exact seqStep_appended (w := w) (by simpa using hfault) (by simpa using hseq)
    | some f =>
      rw [seqStep_latched _ ((afterPass_fault s).trans hfault)]
      exact .refl _

end Sys2Proof.Proofs
end

