-- ==== Sys2Proof/Proofs/StepEquations.lean ====
section
/-!
SUPPORT. Each step of the step lists where the registers it reads hold values (43_state_machine R163 to R169): what a step
without a request writes, the request that a step makes, and the step once its request is answered.
-/

namespace Sys2Proof.Proofs

open Sys2Proof.Machine Sys2Proof.Safety Sys2Proof.Laws

variable {cfg : Cfg} {s : State} {w : Work}

/-! ## Steps without a request -/

theorem firstApplication_eq {gc : U32} (hgc : s.regs.hdrGameCode = some gc) :
    firstApplication cfg s w = advance s .setupSecond (keepApplied w (applyKey cfg s.portSched (deriveKey gc))) := by
  rw [firstApplication, hgc, readReg_some]

theorem secondApplication_eq {l : List U32} {key : Key} (hl : w.regs.k1Sched = some l) (hkey : w.regs.k1Key = some key) :
    secondApplication cfg s w = advance s .setupWrite (keepApplied w (applyKey cfg l key)) := by
  rw [secondApplication, hl, readReg_some, hkey, readReg_some]

theorem k1WordStep_eq {t1 t2 : U32} {l : U16} {mn kk : U24} (ht2 : s.regs.hdrKey2Timing = some t2)
    (ht1 : s.regs.hdrKey1Timing = some t1) (hl : w.regs.k1L = some l) (hmn : w.regs.k2Mn = some mn)
    (hkk : w.regs.k1K = some kk) :
    k1WordStep cfg s w = advance s (.begin1SeedInit l mn (lowCounter kk)) { w with
      regs := { w.regs with k1Flags := some (k1WorkingWord cfg t1 (actFlags cfg t2)) } } := by
  rw [k1WordStep, ht2, readReg_some, ht1, readReg_some, hl, readReg_some]
  exact formKey1_runs _ _ _ _ _ hmn hkk

theorem seedPairStep_eq {sb : U8} {mn : U24} (hsb : s.regs.k2SeedByte = some sb) (hmn : w.regs.k2Mn = some mn) :
    seedPairStep cfg s w = advance s .begin1PlatformSeed { w with
      regs := { w.regs with k2X := some (k2SeedX cfg sb mn), k2Y := some k2SeedY } } := by
  rw [seedPairStep, k2SeedPair, hsb, readReg_some, hmn, readReg_some]

theorem enableStep_eq {f : U32} {l : U16} {ij kk : U24} (hf : w.regs.k1Flags = some f) (hl : w.regs.k1L = some l)
    (hij : w.regs.k1Ij = some ij) (hkk : w.regs.k1K = some kk) :
    enableStep s w = advance s (.begin1Chipid l ij (lowCounter kk)) { w with
      regs := { w.regs with k1Flags := some (enableBoth f) } } := by
  rw [enableStep, hf, readReg_some, hl, readReg_some]
  exact formKey1_runs _ _ _ _ _ hij hkk

/-- The status of the chip-id check (R166, R168). -/
def verdict (id rawId : U32) : Status := if id = rawId then okStatus else errStatus .verificationMismatch

/-- The chip-id check commits the working copy in the state that the comparison gives (R166, R168). -/
theorem compareStep_eq {id rawId : U32} (hid : w.regs.k2ChipId = some id) (hraw : s.regs.rawChipId = some rawId)
    (entered : EncState) :
    compareStep s w entered = finish { s with
      regs := { w.regs with encState := if id = rawId then entered else .unknown } } (verdict id rawId) := by
  rw [compareStep, hid, readReg_some, hraw, readReg_some]
  by_cases h : id = rawId
  · simp only [h, if_true, verdict]
    rfl
  · simp only [h, if_false, verdict]
    rfl

theorem k2WordStep_eq {t2 : U32} (ht2 : s.regs.hdrKey2Timing = some t2) :
    k2WordStep cfg s w = advance s .begin2Chipid { w with
      regs := { w.regs with k2Flags := some (k2WorkingWord cfg t2) } } := by
  rw [k2WordStep, ht2, readReg_some]

theorem afterChunk_next {j : Fin 4} (hj : j.val + 1 < 4) {ij kk : U24} (hij : w.regs.k1Ij = some ij)
    (hkk : w.regs.k1K = some kk) :
    afterChunk s w j
      = advance s (.readsecRead ⟨j.val + 1, hj⟩ (secureArgument ⟨j.val + 1, hj⟩) ij (lowCounter kk)) w := by
  rw [afterChunk, dif_pos hj]
  exact formKey1_runs _ _ _ _ _ hij hkk

theorem afterChunk_last {j : Fin 4} (hj : ¬j.val + 1 < 4) : afterChunk s w j = advance s .readsecCounter w := by
  rw [afterChunk, dif_neg hj]

/-! ## Making a request -/

/-- The working copy once the encoder has consumed a counter value (41_key1_encoder R135). -/
def consumed (w : Work) (kk : U24) : Work := { w with kused := true, regs := { w.regs with k1K := some (kk + 1) } }

theorem activateKey1_request {t2 : U32} (ij : U24) (k20 : U20) (ht2 : s.regs.hdrKey2Timing = some t2) :
    (activateKey1Command cfg ij k20).1 s w = request s (.begin1Activate ij k20) w
      (.send (cfg.actLayout cfg.act1Opc ij k20) 0 (actFlags cfg t2) none) := by
  simp only [activateKey1Command, ht2, readReg_some]

theorem platformSeed_request {x y : U64} (hx : w.regs.k2X = some x) (hy : w.regs.k2Y = some y) :
    platformSeed.1 s w = request s .begin1PlatformSeed w (.seed x y) := by
  simp only [platformSeed, hx, hy, readReg_some]

theorem key2Chipid_request {f : U32} (hf : w.regs.k2Flags = some f) :
    (key2ChipidCommand cfg).1 s w = request s .begin2Chipid w
      (.send cfg.k2ChipidCmd Config.chipIdSize f none) := by
  simp only [key2ChipidCommand, hf, readReg_some]

section Encoded

variable {kk : U24} {sched : List U32} {f : U32} (a : U16) (n : U24) (k20 : U20) (hkk : w.regs.k1K = some kk)
  (hsched : w.regs.k1Sched = some sched) (hf : w.regs.k1Flags = some f)
include hkk hsched

theorem secureRead_request {t1 : U32} (j : Fin 4) (ht1 : s.regs.hdrKey1Timing = some t1) :
    (secureReadCommand cfg j a n k20).1 s w = request s (.readsecRead j a n k20) (consumed w kk)
      (.send (k1Wire cfg sched (cfg.key1Layout cfg.k1CmdSecread a n k20)) Config.chunkSize (secureFlags cfg t1) none) := by
  simp only [secureReadCommand, ht1, readReg_some, requestEncoded_runs _ _ _ _ _ _ _ _ _ hkk hsched, consumed]

include hf

theorem key2SeedInit_request :
    (key2SeedInitCommand cfg a n k20).1 s w = request s (.begin1SeedInit a n k20) (consumed w kk)
      (.send (k1Wire cfg sched (cfg.key1Layout cfg.k1CmdSeed a n k20)) 0 f none) := by
  simp only [key2SeedInitCommand, hf, readReg_some, requestEncoded_runs _ _ _ _ _ _ _ _ _ hkk hsched, consumed]

theorem key1Chipid_request :
    (key1ChipidCommand cfg a n k20).1 s w = request s (.begin1Chipid a n k20) (consumed w kk)
      (.send (k1Wire cfg sched (cfg.key1Layout cfg.k1CmdChipid a n k20)) Config.chipIdSize f none) := by
  simp only [key1ChipidCommand, hf, readReg_some, requestEncoded_runs _ _ _ _ _ _ _ _ _ hkk hsched, consumed]

theorem activateKey2_request :
    (activateKey2Command cfg a n k20).1 s w = request s (.begin2Activate a n k20) (consumed w kk)
      (.send (k1Wire cfg sched (cfg.key1Layout cfg.k1CmdAct2 a n k20)) 0 f none) := by
  simp only [activateKey2Command, hf, readReg_some, requestEncoded_runs _ _ _ _ _ _ _ _ _ hkk hsched, consumed]

end Encoded

/-! ## The step of a request that the platform answers -/

/-- An abort after a request: the counter of the working copy is kept if the encoder has run (R160). -/
theorem abort_afterRequest (e : Event) (rest : List (Option Answer)) (stage : U8) (st : U32) :
    abort (afterRequest s e rest) w stage st = { s with
      seq := .idle, status := some ⟨1, stage, st⟩
      regs := { s.regs with k1K := if w.kused then w.regs.k1K else s.regs.k1K }
      answers := rest, trace := s.trace ++ [e] } := rfl

section Answered

variable {p : Position} {q : Exchange} {w' : Work} {e : Event} {a : Answer} {rest : List (Option Answer)}
  (hq : exchangeOf cfg p = some q) (hreq : q.1 s w = request s p w' e) (hans : s.answers = some a :: rest)
include hq hreq hans

/-- A good answer of a `call`: its bytes are delivered, and the next step comes (R162). -/
theorem runPosition_call_succeeds {c : Call} (hc : callOf p = some c) (hok : 0 ≤ a.st.toInt) :
    runPosition cfg s w p
      = advance (afterRequest s (e.answered a.st) rest) c.next (deliver w' c.dest (a.bytes.restrict c.size.toNat)) := by
  rw [runPosition_exchange s w hq, exchange_requests hreq, answer_of_callOf hq hc,
    callAnswer_request _ _ _ _ _ _ _ hans hok]

/-- A failing answer of a `call`: the operation aborts at its stage (R162). -/
theorem runPosition_call_fails {c : Call} (hc : callOf p = some c) (herr : a.st.toInt < 0) :
    runPosition cfg s w p = abort (afterRequest s (e.answered a.st) rest) w' c.stage a.st := by
  rw [runPosition_exchange s w hq, exchange_requests hreq, answer_of_callOf hq hc, callAnswer,
    onAnswer_request _ _ _ _ hans, if_pos ((isError_iff a.st).2 herr)]
  rfl

/-- The return from a delay or a seed: the next step comes (60_exceptions R212, R213). -/
theorem runPosition_return {p' : Position} (hp : returnOf p = some p') :
    runPosition cfg s w p = advance (afterRequest s (e.answered a.st) rest) p' w' := by
  rw [runPosition_exchange s w hq, exchange_requests hreq, answer_of_returnOf hq hp, onReturn,
    onAnswer_request _ _ _ _ hans]
  rfl

end Answered

/-- The answer of a secure read, good or not: the chunk is stored, and READSEC goes on (R167). -/
theorem runPosition_readsecRead {j : Fin 4} {arg : U16} {n : U24} {k20 : U20} {w' : Work} {e : Event} {a : Answer}
    {rest : List (Option Answer)}
    (hreq : (secureReadCommand cfg j arg n k20).1 s w = request s (.readsecRead j arg n k20) w' e)
    (hans : s.answers = some a :: rest) :
    runPosition cfg s w (.readsecRead j arg n k20)
      = afterChunk (storeChunk { afterRequest s (e.answered a.st) rest with seq := .wait (.readsecRead j arg n k20) w' }
          j a.st a.bytes) w' j := by
  rw [runPosition_exchange s w rfl, exchange_requests hreq, answer_of_readsecRead rfl, onAnswer_request _ _ _ _ hans]

/-- A request that the platform does not answer is outstanding (60_exceptions R203). -/
theorem runPosition_unanswered {p : Position} {q : Exchange} {w' : Work} {e : Event} (hq : exchangeOf cfg p = some q)
    (hreq : q.1 s w = request s p w' e) (hans : s.answers = []) : runPosition cfg s w p = request s p w' e := by
  rw [runPosition_exchange s w hq, exchange_requests hreq, exchangeOf_waits hq w' (by exact hans)]

end Sys2Proof.Proofs
end

