-- ==== Sys2Proof/Proofs/GoodStep.lean ====
section
/-!
SUPPORT. What a step does from a good state (10_state R20 to R26, 43_state_machine R160): how the registers change, that the
working copy of the step that comes next is as the invariant says, and that no step but an INSPECT's check faults.
-/

namespace Sys2Proof.Proofs

open Sys2Proof.Machine Sys2Proof.Safety Sys2Proof.Laws

/-! ## How the registers change -/

/-- The changes of the register file in a step from a good state, with the status of the steps that enter a state
(10_state R22, 43_state_machine R163 to R168). -/
inductive RegsStep (cfg : Cfg) (r : Regs) : Regs → Option Status → Prop
  | same (st : Option Status) : RegsStep cfg r r st
  | counter (hv : r.schedValid = true) (kk : U24) (st : Option Status) : RegsStep cfg r { r with k1K := some kk } st
  | schedule (he : r.encState = .raw) {l : List U32} (hl : l.length = cfg.schedWords) (key : Key) (st : Option Status) :
      RegsStep cfg r { r with k1Sched := some l, k1Key := some key, schedValid := true } st
  | captures {r' : Regs} (he : r.encState = .uninit) (hr : capturing { r with encState := .raw } r')
      (hh : headerWritten r' = true) : RegsStep cfg r r' (some okStatus)
  | entersKey1 (he : r.encState = .raw) (hv : r.schedValid = true) {rawId : U32} (hraw : r.rawChipId = some rawId)
      (f id : U32) (x y : U64) :
      RegsStep cfg r { begun1 r 2 with
        k1Flags := some f, k2X := some x, k2Y := some y, k2ChipId := some id
        encState := if id = rawId then .key1 else .unknown } (some (verdict id rawId))
  | entersKey2 (he : r.encState = .key1) (hv : r.schedValid = true) {rawId : U32} (hraw : r.rawChipId = some rawId)
      (f id : U32) (kk : U24) :
      RegsStep cfg r { r with
        k1K := some kk, k2Flags := some f, k2ChipId := some id
        encState := if id = rawId then .key2 else .unknown } (some (verdict id rawId))

theorem exists_of_capturing {r r' : Regs} (h : capturing r r') : ∃ id gc t1 t2 sb, r' = { r with
    rawChipId := id, hdrGameCode := gc, hdrKey1Timing := t1, hdrKey2Timing := t2, k2SeedByte := sb } :=
  ⟨_, _, _, _, _, h⟩

section RegisterFile

variable {cfg : Cfg} {r r' : Regs}

theorem writtenOk_uninit_iff (he : r.encState = .uninit) : WrittenOk r ↔ r = Regs.reset := by
  rw [WrittenOk, he]

theorem writtenOk_raw_iff (he : r.encState = .raw) : WrittenOk r ↔
    headerWritten r = true ∧ regimeUnwritten r = true ∧ (r.k1K.isSome = true → r.schedValid = true) := by
  rw [WrittenOk, he]

theorem writtenOk_key1_iff (he : r.encState = .key1) : WrittenOk r ↔
    headerWritten r = true ∧ r.schedValid = true ∧ regimeWritten r = true ∧ r.k2Flags = none := by
  rw [WrittenOk, he]

theorem writtenOk_key2_iff (he : r.encState = .key2) : WrittenOk r ↔
    headerWritten r = true ∧ r.schedValid = true ∧ regimeWritten r = true ∧ r.k2Flags.isSome = true := by
  rw [WrittenOk, he]

theorem writtenOk_unknown_iff (he : r.encState = .unknown) : WrittenOk r ↔
    headerWritten r = true ∧ r.schedValid = true ∧ regimeWritten r = true := by
  rw [WrittenOk, he]

theorem regimeWritten_counter (h : regimeWritten r = true) (kk : U24) : regimeWritten { r with k1K := some kk } = true := by
  simp only [regimeWritten, Bool.and_eq_true] at *
  simp_all

/-- A counter value leaves the invariant: where it is not written yet, the schedule is. -/
theorem writtenOk_counter (h : WrittenOk r) (hv : r.schedValid = true) (kk : U24) :
    WrittenOk { r with k1K := some kk } := by
  cases he : r.encState with
  | uninit =>
    rw [writtenOk_uninit_iff he] at h
    rw [h] at hv
    cases hv
  | raw =>
    obtain ⟨hheader, hregime, -⟩ := (writtenOk_raw_iff he).1 h
    exact (writtenOk_raw_iff rfl).2 ⟨hheader, hregime, fun _ => hv⟩
  | key1 =>
    obtain ⟨hheader, -, hregime, hflags⟩ := (writtenOk_key1_iff he).1 h
    exact (writtenOk_key1_iff rfl).2 ⟨hheader, hv, regimeWritten_counter hregime kk, hflags⟩
  | key2 =>
    obtain ⟨hheader, -, hregime, hflags⟩ := (writtenOk_key2_iff he).1 h
    exact (writtenOk_key2_iff rfl).2 ⟨hheader, hv, regimeWritten_counter hregime kk, hflags⟩
  | unknown =>
    obtain ⟨hheader, -, hregime⟩ := (writtenOk_unknown_iff he).1 h
    exact (writtenOk_unknown_iff rfl).2 ⟨hheader, hv, regimeWritten_counter hregime kk⟩

/-- Every change keeps the register invariant. -/
theorem RegsStep.regsOk {st : Option Status} (h : RegsStep cfg r r' st) (hr : RegsOk cfg r) : RegsOk cfg r' := by
  obtain ⟨hsched, hwritten⟩ := hr
  cases h with
  | same => exact ⟨hsched, hwritten⟩
  | counter hv kk => exact ⟨hsched, writtenOk_counter hwritten hv kk⟩
  | schedule he hl key =>
    obtain ⟨hheader, hregime, -⟩ := (writtenOk_raw_iff he).1 hwritten
    refine ⟨⟨rfl, rfl, fun l' hl' => ?_⟩, (writtenOk_raw_iff (by exact he)).2 ⟨hheader, hregime, fun _ => rfl⟩⟩
    cases hl'
    exact hl
  | captures he hcapt hheader =>
    rw [writtenOk_uninit_iff he] at hwritten
    subst hwritten
    obtain ⟨id, gc, t1, t2, sb, rfl⟩ := exists_of_capturing hcapt
    exact ⟨hsched, (writtenOk_raw_iff rfl).2 ⟨hheader, rfl, fun h => by cases h⟩⟩
  | @entersKey1 he hv rawId hraw f id x y =>
    obtain ⟨hheader, hregime, -⟩ := (writtenOk_raw_iff he).1 hwritten
    have hflags : r.k2Flags = none := by
      simp only [regimeUnwritten, Bool.and_eq_true, Option.isNone_iff_eq_none] at hregime
      exact hregime.2
    refine ⟨hsched, ?_⟩
    by_cases hid : id = rawId
    · exact (writtenOk_key1_iff (by simp [hid])).2 ⟨hheader, hv, rfl, hflags⟩
    · exact (writtenOk_unknown_iff (by simp [hid])).2 ⟨hheader, hv, rfl⟩
  | @entersKey2 he hv rawId hraw f id kk =>
    obtain ⟨hheader, -, hregime, -⟩ := (writtenOk_key1_iff he).1 hwritten
    have hregime' : regimeWritten { r with k1K := some kk, k2ChipId := some id } = true := by
      simp only [regimeWritten, Bool.and_eq_true] at *
      simp_all
    refine ⟨hsched, ?_⟩
    by_cases hid : id = rawId
    · exact (writtenOk_key2_iff (by simp [hid])).2 ⟨hheader, hv, hregime', rfl⟩
    · exact (writtenOk_unknown_iff (by simp [hid])).2 ⟨hheader, hv, hregime'⟩

end RegisterFile

/-! ## A good state after a step -/

/-- Every reset and send in the trace has its status. -/
def Settled (l : List Event) : Prop := ∀ e ∈ l, e.pending = false

theorem settled_append_singleton {l : List Event} {e : Event} (hl : Settled l) (he : e.pending = false) :
    Settled (l ++ [e]) := by
  intro x hx
  rw [List.mem_append, List.mem_singleton] at hx
  obtain hx | rfl := hx
  · exact hl x hx
  · exact he

/-- What a step from the good state `s` has made of it. -/
structure GoodAfter (cfg : Cfg) (s t : State) : Prop where
  regs : RegsStep cfg s.regs t.regs t.status
  seq : SeqOk cfg t
  trace : TraceOk t
  fault : t.fault = none

section After

variable {cfg : Cfg} {s u : State} {p : Position} {w : Work}

/-- The next step comes, with its working copy. -/
theorem goodAfter_advance (hregs : RegsStep cfg s.regs u.regs u.status) (hfault : u.fault = none)
    (htrace : Settled u.trace) (hw : WorkOk cfg u p w) : GoodAfter cfg s (advance u p w) :=
  ⟨hregs, ⟨hfault, hw⟩, htrace, hfault⟩

theorem goodAfter_finish {st : Status} (hregs : RegsStep cfg s.regs u.regs (some st)) (hfault : u.fault = none)
    (htrace : Settled u.trace) : GoodAfter cfg s (finish u st) :=
  ⟨hregs, trivial, htrace, hfault⟩

end After

/-! ## A step without a request -/

theorem exists_rawChipId {r : Regs} (h : headerWritten r = true) : ∃ rawId, r.rawChipId = some rawId := by
  obtain ⟨rawId, _, _, _, _, hraw, -⟩ := headerWritten_values h
  exact ⟨rawId, hraw⟩

section LocalSteps

variable {cfg : Cfg} {s : State} {w : Work} (hr : RegsOk cfg s.regs) (hf : s.fault = none) (ht : Settled s.trace)
include hf ht

/-- The next step comes, and no register has changed. -/
theorem goodAfter_moves {p : Position} {w' : Work} (hw : WorkOk cfg s p w') : GoodAfter cfg s (advance s p w') :=
  goodAfter_advance (.same s.status) hf ht hw

theorem good_initParse (hw : WorkOk cfg s .initParse w) : GoodAfter cfg s (parseStep s w) := by
  obtain ⟨he, hk, id, hid⟩ := hw
  exact goodAfter_moves hf ht ⟨he, hk, by simp [capturing, headerParse, hid], by simp [headerWritten, headerParse, hid]⟩

theorem good_initEnter (hw : WorkOk cfg s .initEnter w) : GoodAfter cfg s (enterStep s w) := by
  obtain ⟨he, hk, hcapt, hheader⟩ := hw
  have hcapt' := congrArg (fun r : Regs => { r with encState := .raw }) hcapt
  exact goodAfter_moves hf ht ⟨he, hk, hcapt', hheader⟩

theorem good_initReturn (hw : WorkOk cfg s .initReturn w) : GoodAfter cfg s (commitStep s w) := by
  obtain ⟨he, -, hcapt, hheader⟩ := hw
  exact goodAfter_finish (u := commit s w) (.captures he hcapt hheader) hf ht

theorem good_setupSecond (hw : WorkOk cfg s .setupSecond w) : GoodAfter cfg s (secondApplication cfg s w) := by
  obtain ⟨he, hk, l, key, hregs, -⟩ := hw
  rw [secondApplication_eq (l := l) (key := key) (by rw [hregs]) (by rw [hregs])]
  exact goodAfter_moves hf ht ⟨he, hk, _, _, by rw [keepApplied, hregs], applyKey_length _ _ _⟩

theorem good_setupWrite (hw : WorkOk cfg s .setupWrite w) : GoodAfter cfg s (writeSchedule s w) := by
  obtain ⟨he, -, l, key, hregs, hl⟩ := hw
  rw [writeSchedule, hregs]
  exact goodAfter_advance (.schedule he hl key s.status) hf ht ⟨he, rfl⟩

theorem good_begin1Constants (hw : WorkOk cfg s .begin1Constants w) : GoodAfter cfg s (constantsStep s w) := by
  obtain ⟨he, hv, hk, hregs⟩ := hw
  exact goodAfter_moves hf ht ⟨he, hv, hk, by rw [hregs]; rfl, rfl, rfl⟩

theorem good_begin1Enable (hw : WorkOk cfg s .begin1Enable w) : GoodAfter cfg s (enableStep s w) := by
  obtain ⟨he, hv, hk, f, x, y, hregs⟩ := hw
  rw [enableStep_eq (by rw [hregs]) (by rw [hregs]; rfl) (by rw [hregs]; rfl) (by rw [hregs]; rfl)]
  exact goodAfter_moves hf ht ⟨he, hv, hk, ⟨_, x, y, by rw [hregs]⟩, rfl, rfl, rfl⟩

theorem good_begin1StoreId (hw : WorkOk cfg s .begin1StoreId w) : GoodAfter cfg s (storeIdStep s w .begin1Compare) := by
  obtain ⟨he, hv, hk, f, x, y, hregs⟩ := hw
  exact goodAfter_moves hf ht ⟨he, hv, hk, f, x, y, le32 w.rsp4 0, by rw [hregs]⟩

theorem good_begin2StoreId (hw : WorkOk cfg s .begin2StoreId w) : GoodAfter cfg s (storeIdStep s w .begin2Compare) := by
  obtain ⟨he, hk, kk, f, hkk, hregs⟩ := hw
  exact goodAfter_moves hf ht ⟨he, hk, kk, f, le32 w.rsp4 0, hkk, by rw [hregs]⟩

theorem good_inspectRead {r : RegName} (hw : WorkOk cfg s (.inspectRead r) w) : GoodAfter cfg s (inspectReadStep cfg s r) := by
  obtain ⟨v, hv⟩ := exists_of_isSome hw
  rw [inspectReadStep, hv, readReg_some]
  exact goodAfter_finish (u := { s with res0 := some v }) (.same _) hf ht

include hr

theorem good_setupFirst (hw : WorkOk cfg s .setupFirst w) : GoodAfter cfg s (firstApplication cfg s w) := by
  obtain ⟨he, hk, hregs⟩ := hw
  obtain ⟨_, gc, _, _, _, -, hgc, -⟩ := headerWritten_values (regsOk_raw_header hr he)
  rw [firstApplication_eq hgc]
  exact goodAfter_moves hf ht ⟨he, hk, _, _, by rw [keepApplied, hregs], applyKey_length _ _ _⟩

theorem good_begin1Word (hw : WorkOk cfg s .begin1Word w) : GoodAfter cfg s (k1WordStep cfg s w) := by
  obtain ⟨he, hv, hk, hregs⟩ := hw
  obtain ⟨_, _, t1, t2, _, -, -, ht1, ht2, -⟩ := headerWritten_values (regsOk_raw_header hr he)
  rw [k1WordStep_eq ht2 ht1 (by rw [hregs]; rfl) (by rw [hregs]; rfl) (by rw [hregs]; rfl)]
  exact goodAfter_moves hf ht ⟨he, hv, hk, ⟨_, by rw [hregs]⟩, rfl, rfl, rfl⟩

theorem good_begin1SeedPair (hw : WorkOk cfg s .begin1SeedPair w) : GoodAfter cfg s (seedPairStep cfg s w) := by
  obtain ⟨he, hv, hk, f, hregs⟩ := hw
  obtain ⟨_, _, _, _, sb, -, -, -, -, hsb⟩ := headerWritten_values (regsOk_raw_header hr he)
  rw [seedPairStep_eq hsb (by rw [hregs]; rfl)]
  exact goodAfter_moves hf ht ⟨he, hv, hk, f, _, _, by rw [hregs]⟩

theorem good_begin1Compare (hw : WorkOk cfg s .begin1Compare w) : GoodAfter cfg s (compareStep s w .key1) := by
  obtain ⟨he, hv, -, f, x, y, id, hregs⟩ := hw
  obtain ⟨rawId, hraw⟩ := exists_rawChipId (regsOk_raw_header hr he)
  rw [compareStep_eq (by rw [hregs]) hraw, hregs]
  exact goodAfter_finish (.entersKey1 he hv hraw f id x y) hf ht

theorem good_readsecCounter (hw : WorkOk cfg s .readsecCounter w) : GoodAfter cfg s (counterStep s w) := by
  obtain ⟨he, kk, hregs⟩ := hw
  obtain ⟨-, hv, -⟩ := regsOk_key1_written hr he
  rw [counterStep, hregs]
  exact goodAfter_advance (.counter hv kk s.status) hf ht he

theorem good_begin2Word (hw : WorkOk cfg s .begin2Word w) : GoodAfter cfg s (k2WordStep cfg s w) := by
  obtain ⟨he, hk, kk, hkk, hregs⟩ := hw
  obtain ⟨hheader, -⟩ := regsOk_key1_written hr he
  obtain ⟨_, _, _, t2, _, -, -, -, ht2, -⟩ := headerWritten_values hheader
  rw [k2WordStep_eq ht2]
  exact goodAfter_moves hf ht ⟨he, hk, kk, _, hkk, by rw [hregs]⟩

theorem good_begin2Compare (hw : WorkOk cfg s .begin2Compare w) : GoodAfter cfg s (compareStep s w .key2) := by
  obtain ⟨he, -, kk, f, id, -, hregs⟩ := hw
  obtain ⟨hheader, hv, -⟩ := regsOk_key1_written hr he
  obtain ⟨rawId, hraw⟩ := exists_rawChipId hheader
  rw [compareStep_eq (by rw [hregs]) hraw, hregs]
  exact goodAfter_finish (.entersKey2 he hv hraw f id (nextCounter kk)) hf ht

/-- Every step without a request but an INSPECT's check. -/
theorem runPosition_good {p : Position} (hq : exchangeOf cfg p = none) (hp : ∀ r, p ≠ .inspectCheck r)
    (hw : WorkOk cfg s p w) : GoodAfter cfg s (runPosition cfg s w p) := by
  cases p
  case initReset | initDummy | initDelay | initRawChipid | initHeaderRead | begin1Activate | begin1SeedInit | begin1Chipid
      | readsecRead | begin2Activate | begin2Chipid => cases hq
  case initCapture =>
    obtain ⟨he, hk, hregs⟩ := hw
    exact goodAfter_moves hf ht ⟨he, hk, le32 w.rsp4 0, by rw [hregs]⟩
  case initParse => exact good_initParse hf ht hw
  case initOutput => exact goodAfter_advance (u := { s with hdrOut := some w.hdrBuf }) (.same _) hf ht hw
  case initEnter => exact good_initEnter hf ht hw
  case initReturn => exact good_initReturn hf ht hw
  case setupFirst => exact good_setupFirst hr hf ht hw
  case setupSecond => exact good_setupSecond hf ht hw
  case setupWrite => exact good_setupWrite hf ht hw
  case setupReturn | readsecReturn => exact goodAfter_finish (.same _) hf ht
  case begin1Constants => exact good_begin1Constants hf ht hw
  case begin1Word => exact good_begin1Word hr hf ht hw
  case begin1SeedPair => exact good_begin1SeedPair hr hf ht hw
  case begin1PlatformSeed =>
    have hsoft : cfg.hwSeed = false := by simpa [exchangeOf] using hq
    rw [runPosition, platformSeedStep_software s w hsoft]
    exact goodAfter_moves hf ht hw
  case begin1Enable => exact good_begin1Enable hf ht hw
  case begin1StoreId => exact good_begin1StoreId hf ht hw
  case begin1Compare => exact good_begin1Compare hr hf ht hw
  case readsecCounter => exact good_readsecCounter hr hf ht hw
  case begin2Word => exact good_begin2Word hr hf ht hw
  case begin2StoreId => exact good_begin2StoreId hf ht hw
  case begin2Compare => exact good_begin2Compare hr hf ht hw
  case inspectCheck r => exact absurd rfl (hp r)
  case inspectRead => exact good_inspectRead hf ht hw

omit hr in
/-- An INSPECT's check goes on to the read, or faults. -/
theorem inspectCheck_good (r : RegName) :
    GoodAfter cfg s (inspectCheckStep cfg s w r)
      ∨ inspected cfg s r = none ∧ inspectCheckStep cfg s w r = raiseUnwritten s r := by
  cases hv : inspected cfg s r with
  | some v =>
    rw [inspectCheckStep, hv, readReg_some]
    exact .inl (goodAfter_moves hf ht (Option.isSome_iff_exists.2 ⟨v, hv⟩))
  | none => exact .inr ⟨rfl, by rw [inspectCheckStep, hv, readReg_none]⟩

end LocalSteps

/-! ## The answer of a request -/

section Answers

variable {cfg : Cfg} {s : State} {p p' : Position} {w : Work}

/-- The step after a `call` that succeeded has its working copy, whatever was delivered. -/
theorem workOk_callOf {c : Call} (hc : callOf p = some c) (hw : WorkOk cfg s p w) (bytes : Memory) :
    WorkOk cfg s c.next (deliver (requested p w) c.dest bytes) := by
  cases p <;> cases hc
  case initReset | initDummy | initRawChipid | initHeaderRead => exact hw
  case begin1Activate =>
    obtain ⟨he, hv, hk, hregs, -⟩ := hw
    exact ⟨he, hv, hk, hregs⟩
  case begin1SeedInit =>
    obtain ⟨he, hv, -, ⟨f, hregs⟩, -⟩ := hw
    exact ⟨he, hv, rfl, f, by simp only [requested, encodes, deliver, hregs]; rfl⟩
  case begin1Chipid =>
    obtain ⟨he, hv, -, ⟨f, x, y, hregs⟩, -⟩ := hw
    exact ⟨he, hv, rfl, f, x, y, by simp only [requested, encodes, deliver, hregs]; rfl⟩
  case begin2Activate =>
    obtain ⟨he, -, hregs, -, -, kk, hkk, -⟩ := hw
    exact ⟨he, rfl, kk, hkk, by simp only [requested, encodes, deliver, hregs, hkk]; rfl⟩
  case begin2Chipid => exact hw

theorem workOk_returnOf (hp : returnOf p = some p') (hw : WorkOk cfg s p w) : WorkOk cfg s p' (requested p w) := by
  cases p <;> cases hp <;> exact hw

/-- Where the encoder has run, the working copy holds a counter and the schedule is valid. -/
theorem requested_counter {c : Call} (hc : callOf p = some c) (hr : RegsOk cfg s.regs) (hw : WorkOk cfg s p w) :
    (requested p w).kused = false ∨ s.regs.schedValid = true ∧ ∃ kk, (requested p w).regs.k1K = some kk := by
  cases p <;> cases hc
  case initReset | initDummy | initRawChipid | initHeaderRead =>
    obtain ⟨-, hk, -⟩ := hw
    exact .inl hk
  case begin1Activate =>
    obtain ⟨-, -, hk, -⟩ := hw
    exact .inl hk
  case begin1SeedInit =>
    obtain ⟨-, hv, -, ⟨f, hregs⟩, -⟩ := hw
    exact .inr ⟨hv, _, by simp only [requested, encodes, hregs]; rfl⟩
  case begin1Chipid =>
    obtain ⟨-, hv, -, ⟨f, x, y, hregs⟩, -⟩ := hw
    exact .inr ⟨hv, _, by simp only [requested, encodes, hregs]; rfl⟩
  case begin2Activate =>
    obtain ⟨he, -, hregs, -, -, kk, hkk, -⟩ := hw
    obtain ⟨-, hv, -⟩ := regsOk_key1_written hr he
    exact .inr ⟨hv, nextCounter kk, by simp only [requested, encodes, hregs, hkk]; rfl⟩
  case begin2Chipid =>
    obtain ⟨he, -, kk, f, -, hregs⟩ := hw
    obtain ⟨-, hv, -⟩ := regsOk_key1_written hr he
    exact .inr ⟨hv, nextCounter kk, by change w.regs.k1K = _; rw [hregs]⟩

/-- An abort writes the counter, if the encoder has run (43_state_machine R160). -/
theorem goodAfter_abort {u : State} {stage : U8} {e : U32} (hregs : u.regs = s.regs) (hf : u.fault = none)
    (ht : Settled u.trace)
    (hcounter : w.kused = false ∨ s.regs.schedValid = true ∧ ∃ kk, w.regs.k1K = some kk) :
    GoodAfter cfg s (abort u w stage e) := by
  refine goodAfter_finish (u := { u with regs := { u.regs with
    k1K := if w.kused then w.regs.k1K else u.regs.k1K } }) ?_ hf ht
  rw [hregs]
  cases hk : w.kused with
  | false => exact .same _
  | true =>
    obtain h | ⟨hv, kk, hkk⟩ := hcounter
    · rw [hk] at h
      cases h
    · rw [hkk]
      exact .counter hv kk _

theorem workOk_afterChunk {j : Fin 4} {arg : U16} {n : U24} {k20 : U20} (u : State) (hregs : u.regs = s.regs)
    (hw : WorkOk cfg s (.readsecRead j arg n k20) w) :
    ∃ p', afterChunk u (requested (.readsecRead j arg n k20) w) j
        = advance u p' (requested (.readsecRead j arg n k20) w)
      ∧ WorkOk cfg u p' (requested (.readsecRead j arg n k20) w) := by
  obtain ⟨he, ⟨kk, hwork, -⟩, -, hij⟩ := hw
  have hrequested : (requested (.readsecRead j arg n k20) w).regs = { s.regs with k1K := some (nextCounter kk) } := by
    simp only [requested, encodes, hwork]
    rfl
  rw [← hregs] at he hij hrequested
  by_cases hj : j.val + 1 < 4
  · refine ⟨_, afterChunk_next hj (ij := n) (kk := nextCounter kk) ?_ ?_, he, ⟨_, hrequested, rfl⟩, rfl, hij⟩ <;>
      rw [hrequested]
    exact hij
  · exact ⟨_, afterChunk_last hj, he, _, hrequested⟩

/-- The answer to the request of a good state, or its absence. -/
theorem answer_good {q : Exchange} (hq : exchangeOf cfg p = some q) (hr : RegsOk cfg s.regs) (hf : s.fault = none)
    (hs : s.seq = .wait p (requested p w)) {l : List Event} {e : Event} (htrace : s.trace = l ++ [e])
    (he : outstanding p e = true) (hl : Settled l) (hw : WorkOk cfg s p w) :
    GoodAfter cfg s (q.2 s (requested p w)) := by
  have hwaits : GoodAfter cfg s s := by
    refine ⟨.same _, ?_, ?_, hf⟩
    · rw [SeqOk, hs]
      exact ⟨hf, by rw [hq]; rfl, w, hw, rfl⟩
    · rw [TraceOk, hs]
      exact ⟨l, e, htrace, he, hl⟩
  have hpasses (rest : List (Option Answer)) : GoodAfter cfg s { s with answers := rest } :=
    ⟨.same _, hwaits.seq, hwaits.trace, hf⟩
  have hsettled (st : U32) : Settled (settle s.trace st) := by
    rw [htrace, settle_append_cons, settle_singleton]
    exact settled_append_singleton hl (pending_answered e st)
  obtain ⟨c, hc⟩ | ⟨p', hp'⟩ | ⟨j, arg, n, k20, rfl⟩ := request_cases hq
  · rw [answer_of_callOf hq hc]
    exact callAnswer_elim (GoodAfter cfg s) hwaits (fun rest _ => hpasses rest)
      (fun a _ _ _ => goodAfter_abort rfl hf (hsettled a.st) (requested_counter hc hr hw))
      fun a rest _ _ => goodAfter_advance (u := answered s a rest) (.same _) hf (hsettled a.st)
        (workOk_callOf hc hw _)
  · rw [answer_of_returnOf hq hp']
    exact onReturn_elim (GoodAfter cfg s) hwaits (fun rest _ => hpasses rest)
      fun a rest _ => goodAfter_advance (u := answered s a rest) (.same _) hf (hsettled a.st) (workOk_returnOf hp' hw)
  · rw [answer_of_readsecRead hq]
    refine onAnswer_elim (GoodAfter cfg s) hwaits (fun rest _ => hpasses rest) fun a rest _ => ?_
    have hstored : (storeChunk (answered s a rest) j a.st a.bytes).regs = s.regs := by rw [storeChunk_regs]; rfl
    obtain ⟨p', hnext, hw'⟩ := workOk_afterChunk _ hstored hw
    have hafter : GoodAfter cfg s (advance (storeChunk (answered s a rest) j a.st a.bytes) p'
        (requested (.readsecRead j arg n k20) w)) := by
      refine goodAfter_advance ?_ ?_ ?_ hw' <;> rw [storeChunk_eq]
      · exact .same _
      · exact hf
      · exact hsettled a.st
    rw [← hnext] at hafter
    exact hafter

end Answers

/-! ## A step of the sequencer -/

/-- A good state at which an operation runs: the step that comes next has its working copy. -/
theorem good_run {s : State} {p : Position} {w : Work} (h : GoodState s) (hs : s.seq = .run p w) :
    RegsOk Config.cfg s.regs ∧ s.fault = none ∧ Settled s.trace ∧ WorkOk Config.cfg s p w := by
  obtain ⟨hr, hseq, htrace⟩ := h
  rw [SeqOk, hs] at hseq
  rw [TraceOk, hs] at htrace
  exact ⟨hr, hseq.1, htrace, hseq.2⟩

/-- A good state at which a request is outstanding. -/
theorem good_wait {s : State} {p : Position} {w : Work} (h : GoodState s) (hs : s.seq = .wait p w) :
    RegsOk Config.cfg s.regs ∧ s.fault = none ∧ (∃ q, exchangeOf Config.cfg p = some q)
      ∧ (∃ l e, s.trace = l ++ [e] ∧ outstanding p e = true ∧ Settled l)
      ∧ ∃ w₀, WorkOk Config.cfg s p w₀ ∧ w = requested p w₀ := by
  obtain ⟨hr, hseq, htrace⟩ := h
  rw [SeqOk, hs] at hseq
  rw [TraceOk, hs] at htrace
  obtain ⟨hf, hq, hw⟩ := hseq
  exact ⟨hr, hf, exists_of_isSome hq, htrace, hw⟩

/-- A step of the sequencer from a good state: no step faults but the check of an INSPECT of an unwritten register. -/
theorem seqStep_good {s : State} {p : Position} {w : Work} (h : GoodState s) (hs : s.seq = .run p w ∨ s.seq = .wait p w) :
    GoodAfter Config.cfg s (seqStep Config.cfg s)
      ∨ ∃ r, s.seq = .run (.inspectCheck r) w ∧ inspected Config.cfg s r = none
          ∧ seqStep Config.cfg s = raiseUnwritten s r := by
  obtain hs | hs := hs
  · obtain ⟨hr, hf, ht, hw⟩ := good_run h hs
    rw [seqStep_run _ hs hf]
    cases hq : exchangeOf Config.cfg p with
    | some q =>
      obtain ⟨e, he, hreq⟩ := request_of_workOk hq hr hw
      obtain ⟨hregs, hseq, htrace, hfault⟩ :=
        answer_good (s := request s p (requested p w) e) hq hr hf rfl rfl he ht hw
      rw [runPosition_exchange s w hq, exchange_requests hreq]
      exact .inl ⟨hregs, hseq, htrace, hfault⟩
    | none =>
      by_cases hp : ∃ r, p = .inspectCheck r
      · obtain ⟨r, rfl⟩ := hp
        obtain hgood | ⟨hunwritten, hraise⟩ := inspectCheck_good (w := w) hf ht r
        · exact .inl hgood
        · exact .inr ⟨r, hs, hunwritten, hraise⟩
      · exact .inl (runPosition_good hr hf ht hq (fun r hr => hp ⟨r, hr⟩) hw)
  · obtain ⟨hr, hf, ⟨q, hq⟩, ⟨l, e, htrace, he, hl⟩, w₀, hw, rfl⟩ := good_wait h hs
    rw [seqStep_wait _ hs hf, answerPosition, hq]
    exact .inl (answer_good hq hr hf hs htrace he hl hw)

/-! ## A step of the machine -/

@[simp] theorem afterPass_ports (s : State) : (afterPass s).ports = s.ports := by
  unfold afterPass
  split <;> rfl

@[simp] theorem afterPass_answers (s : State) : (afterPass s).answers = s.answers := by
  unfold afterPass
  split <;> rfl

@[simp] theorem afterPass_status (s : State) : (afterPass s).status = s.status := by
  unfold afterPass
  split <;> rfl

theorem goodState_afterPass {s : State} (h : GoodState s) : GoodState (afterPass s) := by
  unfold afterPass
  split <;> exact h

/-- What every step without a block reset makes of a good state. -/
def StaysGood (s t : State) : Prop := RegsStep Config.cfg s.regs t.regs t.status ∧ GoodState t

theorem GoodAfter.staysGood {s t : State} (h : GoodAfter Config.cfg s t) (hr : RegsOk Config.cfg s.regs) :
    StaysGood s t :=
  ⟨h.regs, h.regs.regsOk hr, h.seq, h.trace⟩

/-- At IDLE with the same registers and the same trace. -/
theorem staysGood_idle {s t : State} (h : GoodState s) (hs : s.seq = .idle)
    (hregs : RegsStep Config.cfg s.regs t.regs t.status) (hidle : t.seq = .idle) (htrace : t.trace = s.trace) :
    StaysGood s t := by
  obtain ⟨hr, -, ht⟩ := h
  refine ⟨hregs, hregs.regsOk hr, by rw [SeqOk, hidle]; trivial, ?_⟩
  rw [TraceOk, hs] at ht
  rw [TraceOk, hidle, htrace]
  exact ht

/-- The body of a host operation, in a good state at IDLE. -/
theorem staysGood_bodyResult {op : Option SeqOp} {s t : State} {o : HostOp} {rest : List HostEvent} (h : GoodState s)
    (hs : s.seq = .idle) (hf : s.fault = none) (hbody : bodyResult op (clearPorts (accepted s o rest)) t) :
    StaysGood s t := by
  obtain ⟨st, rfl⟩ | ⟨f, rfl⟩ | ⟨v, rfl⟩ | ⟨v, v', rfl⟩ | ⟨kk, v, hv, -, rfl⟩ | ⟨p, rfl, -, -, hw⟩ := hbody
  case inr.inr.inr.inr.inl => exact staysGood_idle h hs (.counter hv (kk + 1) _) rfl rfl
  case inr.inr.inr.inr.inr =>
    obtain ⟨hr, -, ht⟩ := h
    rw [TraceOk, hs] at ht
    exact (goodAfter_advance (s := s) (u := clearPorts (accepted s o rest)) (.same _) hf ht hw).staysGood hr
  all_goals exact staysGood_idle h hs (.same _) rfl rfl

theorem step_staysGood {s t : State} (h : GoodState s) (hreset : resetNext s = false) (hstep : step s = .next t) :
    StaysGood s t := by
  have hpass := goodState_afterPass h
  cases step_cases hstep with
  | reset hhost => simp [resetNext, hhost] at hreset
  | pass => exact ⟨by simpa using RegsStep.same _, hpass⟩
  | latched hseq => exact staysGood_idle h hseq (.same _) hseq rfl
  | illegal hseq _ hfault => exact staysGood_bodyResult h hseq hfault (bodyResult_raise (op := none) _ _)
  | operation hseq _ hfault _ _ hbody => exact staysGood_bodyResult h hseq hfault hbody
  | @sequencer p w hseq =>
    obtain ⟨hr, -⟩ := h
    obtain hgood | ⟨r, hrun, -, hraise⟩ := seqStep_good (p := p) (w := w) hpass (by simpa using hseq)
    · obtain ⟨hregs, hgood⟩ := hgood.staysGood (by simpa using hr)
      exact ⟨by simpa using hregs, hgood⟩
    · obtain ⟨-, -, ht, -⟩ := good_run hpass hrun
      have hregs : (raiseUnwritten (afterPass s) r).regs = s.regs := afterPass_regs s
      rw [hraise, StaysGood, GoodState, hregs]
      exact ⟨.same _, hr, trivial, ht⟩

/-- Settles O14: a block reset gives the reset state, and every other step is `step_staysGood`. -/
theorem stepKeepsTheRegisterInvariant : Obligations.StepKeepsTheRegisterInvariant := by
  intro s t hgood hstep
  cases hreset : resetNext s with
  | false => exact (step_staysGood hgood hreset hstep).2
  | true =>
    obtain ⟨rest, hhost⟩ := (resetNext_eq_true_iff s).1 hreset
    rw [step_blockReset hhost] at hstep
    cases hstep
    exact goodState_reset

/-! ## The edges of `ENC_STATE` -/

section Edges

variable {cfg : Cfg} {r r' : Regs} {st : Option Status}

theorem encState_of_capturing (h : capturing r r') : r'.encState = r.encState := by
  obtain ⟨_, _, _, _, _, rfl⟩ := exists_of_capturing h
  rfl

/-- R22: the register file's state is kept, or it moved along an edge with the status of its entry. -/
theorem RegsStep.encState (h : RegsStep cfg r r' st) : r'.encState = r.encState
    ∨ encEdge r.encState r'.encState = true
      ∧ st = some (if r'.encState = .unknown then errStatus .verificationMismatch else okStatus) := by
  cases h with
  | same | counter | schedule => exact .inl rfl
  | captures he hcapt =>
    rw [encState_of_capturing hcapt, he]
    exact .inr ⟨rfl, rfl⟩
  | @entersKey1 he _ rawId _ _ id | @entersKey2 he _ rawId _ _ id =>
    rw [he]
    by_cases hid : id = rawId <;> simp [hid, verdict, encEdge]

/-- R171: what the step into a state has compared. -/
theorem RegsStep.entered (h : RegsStep cfg r r' st) (hne : r'.encState ≠ r.encState) :
    (r'.encState = .unknown → r'.k2ChipId ≠ r'.rawChipId)
      ∧ (r'.encState = .key1 ∨ r'.encState = .key2 → r'.k2ChipId = r'.rawChipId ∧ r'.schedValid = true) := by
  cases h with
  | same | counter | schedule => exact absurd rfl hne
  | captures _ hcapt =>
    rw [encState_of_capturing hcapt]
    simp
  | @entersKey1 _ hv rawId hraw _ id | @entersKey2 _ hv rawId hraw _ id =>
    by_cases hid : id = rawId <;> simp [hid, begun1, loadConstants, hraw, hv]

/-- R24: the captured registers are kept, but by the step into RAW. -/
theorem RegsStep.captured (h : RegsStep cfg r r' st) :
    (r'.rawChipId = r.rawChipId ∧ r'.hdrGameCode = r.hdrGameCode ∧ r'.hdrKey1Timing = r.hdrKey1Timing
        ∧ r'.hdrKey2Timing = r.hdrKey2Timing ∧ r'.k2SeedByte = r.k2SeedByte)
      ∨ r.encState = .uninit ∧ r'.encState = .raw ∧ st = some okStatus := by
  cases h with
  | captures he hcapt => exact .inr ⟨he, encState_of_capturing hcapt, rfl⟩
  | _ => exact .inl ⟨rfl, rfl, rfl, rfl, rfl⟩

end Edges

/-- Settles O16: without a block reset the registers change as `RegsStep` says. -/
theorem encStateMovesAlongItsEdges : Obligations.EncStateMovesAlongItsEdges := by
  intro s t hgood hstep
  cases hreset : resetNext s with
  | false => exact .inr ⟨rfl, (step_staysGood hgood hreset hstep).1.encState⟩
  | true =>
    obtain ⟨rest, hhost⟩ := (resetNext_eq_true_iff s).1 hreset
    rw [step_blockReset hhost] at hstep
    cases hstep
    exact .inl ⟨rfl, rfl⟩

/-- Settles O17: a step that changes `ENC_STATE` to a state other than UNINIT is no block reset, and its edge tells where it
came from. -/
theorem regimesAreEnteredByTheChipIdCheck : Obligations.RegimesAreEnteredByTheChipIdCheck := by
  intro s t hgood hstep hne
  cases hreset : resetNext s with
  | true =>
    obtain ⟨rest, hhost⟩ := (resetNext_eq_true_iff s).1 hreset
    rw [step_blockReset hhost] at hstep
    cases hstep
    simp [Regs.reset]
  | false =>
    have hregs := (step_staysGood hgood hreset hstep).1
    obtain ⟨hunknown, hmatch⟩ := hregs.entered hne
    obtain hsame | ⟨hedge, hst⟩ := hregs.encState
    · exact absurd hsame hne
    refine ⟨fun he => ⟨by rw [hst, he]; rfl, hunknown he, ?_⟩, fun he => ⟨?_, hmatch he⟩⟩
    · rw [he] at hedge
      cases hs : s.regs.encState <;> simp [hs, encEdge] at hedge ⊢
    · rw [hst, if_neg (by obtain he | he := he <;> simp [he])]
      rfl

/-- Settles O18. -/
theorem capturedRegistersAreReadOnly : Obligations.CapturedRegistersAreReadOnly := by
  intro s t hgood hreset hstep
  exact (step_staysGood hgood hreset hstep).1.captured

/-! ## Faults -/

/-- A latched fault is not running an operation, so only a block reset clears it. -/
theorem step_keeps_latched {s t : State} {f : FaultRecord} (h : GoodState s) (hreset : resetNext s = false)
    (hstep : step s = .next t) (hf : s.fault = some f) : t.fault = some f := by
  cases step_cases hstep with
  | reset hhost => simp [resetNext, hhost] at hreset
  | pass => simpa using hf
  | latched => exact hf
  | illegal _ _ hnone | operation _ _ hnone => simp [hf] at hnone
  | @sequencer p w hseq =>
    have hnone : s.fault = none := by
      obtain hs | hs := hseq
      · exact (good_run h hs).2.1
      · exact (good_wait h hs).2.1
    simp [hf] at hnone

/-- Settles O19: no edge leads out of UNKNOWN, and a latched fault stays. -/
theorem onlyBlockResetLeavesUnknownOrFault : Obligations.OnlyBlockResetLeavesUnknownOrFault := by
  intro s t hgood hreset hstep
  refine ⟨fun he => ?_, fun f hf => step_keeps_latched hgood hreset hstep hf⟩
  obtain hsame | ⟨hedge, -⟩ := (step_staysGood hgood hreset hstep).1.encState
  · exact hsame.trans he
  · simp [he, encEdge] at hedge

/-- A step from a good state without a fault to one with a fault: the host's operation faulted at once, or an INSPECT's check
did. -/
theorem step_faults {s t : State} {f : FaultRecord} (h : GoodState s) (hstep : step s = .next t) (hs : s.fault = none)
    (ht : t.fault = some f) :
    (∃ o rest, s.seq = .idle ∧ s.host = .op o :: rest ∧ t = raise (clearPorts (accepted s o rest)) f
        ∧ (f.reason = .illegalOp ∨ ∃ i, encode i = .how o.how ∧ exec i (accepted s o rest) = .next t))
      ∨ ∃ r w, s.seq = .run (.inspectCheck r) w ∧ inspected Config.cfg s r = none
          ∧ t = raiseUnwritten (afterPass s) r := by
  cases step_cases hstep with
  | reset => cases ht
  | pass => simp [hs] at ht
  | latched _ _ hf => simp [hs] at hf
  | illegal hseq hhost =>
    cases ht
    exact .inl ⟨_, _, hseq, hhost, rfl, .inl rfl⟩
  | @operation o rest i _ hseq hhost _ hword hexec hbody =>
    obtain ⟨st, rfl⟩ | ⟨f', rfl⟩ | ⟨v, rfl⟩ | ⟨v, v', rfl⟩ | ⟨kk, v, -, -, rfl⟩ | ⟨p, rfl, -⟩ := hbody
    case inr.inl =>
      cases ht
      exact .inl ⟨o, rest, hseq, hhost, rfl, .inr ⟨i, hword, hexec⟩⟩
    all_goals cases hs.symm.trans ht
  | @sequencer p w hseq =>
    obtain hgood | ⟨r, hrun, hunwritten, hraise⟩ :=
      seqStep_good (p := p) (w := w) (goodState_afterPass h) (by simpa using hseq)
    · rw [hgood.fault] at ht
      cases ht
    · refine .inr ⟨r, w, by simpa using hrun, ?_, hraise⟩
      simpa [inspected, State.portA] using hunwritten

/-- Settles O22: either way the state after is `raise` of the state before. -/
theorem faultHappensBeforeAnyEffect : Obligations.FaultHappensBeforeAnyEffect := by
  intro s t hgood hstep hs ht
  obtain ⟨f, hf⟩ := Option.ne_none_iff_exists'.1 ht
  obtain ⟨o, rest, hseq, -, rfl, -⟩ | ⟨r, w, hseq, -, rfl⟩ := step_faults hgood hstep hs hf
  · exact ⟨.inl hseq, rfl, rfl, rfl, rfl, rfl, rfl, rfl, rfl⟩
  · exact ⟨.inr ⟨r, w, hseq⟩, afterPass_regs s, afterPass_trace s, afterPass_answers s, rfl, rfl, rfl, rfl, rfl⟩

end Sys2Proof.Proofs
end

