-- ==== Sys2Proof/Proofs/Requests.lean ====
section
/-!
SUPPORT. The requests of a good state (10_state R28, 60_exceptions R203, R214): which steps make one, what is recorded when it is
made, that an unanswered one is stuck, and what a failing command does; and where UNWRITTEN_READ comes from (10_state R23).
-/

namespace Sys2Proof.Proofs

open Sys2Proof.Machine Sys2Proof.Safety Sys2Proof.Laws

/-! ## Which steps make a request -/

/-- The link reset, the delay, the seed in hardware, and the commands. -/
theorem exchangeOf_isSome_iff (cfg : Cfg) (p : Position) : (exchangeOf cfg p).isSome = true ↔
    p = .initReset ∨ p = .initDelay ∨ (p = .begin1PlatformSeed ∧ cfg.hwSeed = true)
      ∨ (positionInstr p).isSome = true := by
  cases p
  case begin1PlatformSeed => cases h : cfg.hwSeed <;> simp [exchangeOf, positionInstr, h]
  all_goals simp [exchangeOf, positionInstr]

/-- A step that sends a bus command makes a request. -/
theorem exchangeOf_of_positionInstr {cfg : Cfg} {p : Position} {i : Instr} (hi : positionInstr p = some i) :
    ∃ q, exchangeOf cfg p = some q :=
  exists_of_isSome ((exchangeOf_isSome_iff cfg p).2 (.inr (.inr (.inr (by rw [hi]; rfl)))))

/-! ## An unanswered request -/

theorem seqStep_unanswered {cfg : Cfg} {s : State} {p : Position} {w : Work} (hs : s.seq = .wait p w)
    (hans : s.answers = []) : seqStep cfg s = s := by
  cases hf : s.fault with
  | some f => exact seqStep_latched cfg hf
  | none =>
    rw [seqStep_wait cfg hs hf, answerPosition]
    cases hq : exchangeOf cfg p with
    | some q => exact exchangeOf_waits hq w hans
    | none => rfl

theorem hostQuiet_iff (s : State) : hostQuiet s = true ↔ resetNext s = false ∧ afterPass s = s := by
  unfold hostQuiet resetNext afterPass
  match hh : s.host with
  | [] => simp
  | .op o :: rest => simp
  | .blockReset :: rest => simp
  | .pass :: rest =>
    have hne : { s with host := rest } ≠ s := fun h => by
      have hhost := congrArg State.host h
      rw [hh] at hhost
      exact List.cons_ne_self _ _ hhost.symm
    simpa using hne

theorem step_unanswered {s : State} {p : Position} {w : Work} (hs : s.seq = .wait p w) (hans : s.answers = [])
    (hquiet : hostQuiet s = true) : step s = .next s := by
  obtain ⟨hreset, hpass⟩ := (hostQuiet_iff s).1 hquiet
  rw [step_running (.inr hs) hreset, hpass, seqStep_unanswered hs hans]

/-- The state with other lists of what the host and the platform will still do. -/
def withInputs (s : State) (h : List HostEvent) (l : List (Option Answer)) : State := { s with host := h, answers := l }

theorem readReg_withInputs {α : Type} {s : State} {h : List HostEvent} {l : List (Option Answer)} {r : RegName}
    {v : Option α} {k k' : α → State} (hk : ∀ x, k' x = withInputs (k x) h l) :
    readReg (withInputs s h l) r v k' = withInputs (readReg s r v k) h l := by
  cases v with
  | some x => exact hk x
  | none => rfl

/-- What a request records does not depend on what the host and the platform will do. -/
theorem request_withInputs {cfg : Cfg} {p : Position} {q : Exchange} (hq : exchangeOf cfg p = some q) (s : State) (w : Work)
    (h : List HostEvent) (l : List (Option Answer)) : q.1 (withInputs s h l) w = withInputs (q.1 s w) h l := by
  refine exchangeOf_cases hq (fun _ q => q.1 (withInputs s h l) w = withInputs (q.1 s w) h l) ?reset ?dummy
    ?delay ?rawChipid ?header ?activate1 ?seedInit ?seed ?chipid1 ?read ?activate2 ?chipid2
  case reset | dummy | delay | rawChipid | header => rfl
  case activate1 => exact fun _ _ => readReg_withInputs fun _ => rfl
  case chipid2 => exact readReg_withInputs fun _ => rfl
  case seed => exact fun _ => readReg_withInputs fun _ => readReg_withInputs fun _ => rfl
  all_goals
    intros
    exact readReg_withInputs fun _ => readReg_withInputs fun _ => readReg_withInputs fun _ => rfl

/-- Taking an answer when the request is made, or later, is the same. -/
theorem seqStep_late_answer {s : State} {p : Position} {w : Work} {q : Exchange} (h : GoodState s)
    (hs : s.seq = .run p w) (hq : exchangeOf Config.cfg p = some q) (hans : s.answers = []) (l : List (Option Answer)) :
    seqStep Config.cfg (withInputs (seqStep Config.cfg s) (seqStep Config.cfg s).host l)
      = seqStep Config.cfg (withInputs s s.host l) := by
  rw [seqStep_host]
  obtain ⟨hr, hf, -, hw⟩ := good_run h hs
  obtain ⟨e, -, hreq⟩ := request_of_workOk hq hr hw
  have hreq' : q.1 (withInputs s s.host l) w = request (withInputs s s.host l) p (requested p w) e :=
    (request_withInputs hq s w s.host l).trans (by rw [hreq]; rfl)
  have hlate : seqStep Config.cfg (withInputs (request s p (requested p w) e) s.host l)
      = q.2 (request (withInputs s s.host l) p (requested p w) e) (requested p w) :=
    (seqStep_wait (s := request (withInputs s s.host l) p (requested p w) e) _ rfl hf).trans
      (by rw [answerPosition, hq])
  have hprompt : seqStep Config.cfg (withInputs s s.host l)
      = q.2 (request (withInputs s s.host l) p (requested p w) e) (requested p w) :=
    (seqStep_run (s := withInputs s s.host l) _ hs hf).trans
      (by rw [runPosition_exchange _ _ hq, exchange_requests hreq'])
  rw [seqStep_run _ hs hf, runPosition_unanswered hq hreq hans, hlate, hprompt]

theorem afterPass_eq_withInputs (s : State) : afterPass s = withInputs s (afterPass s).host s.answers := by
  unfold afterPass
  split <;> rfl

/-- Settles O10: an unanswered request is at a fixed point of the step, and the request records the same whatever the answers
are. -/
theorem unansweredRequestIsStuck : Obligations.UnansweredRequestIsStuck := by
  refine ⟨exchangeOf_isSome_iff Config.cfg, fun s p w hs hans hquiet n => ?stuck,
    fun s p w rest hgood hs hans hreset => ?silent, fun s p w a rest hgood hs hq hans => ?late⟩
  case stuck =>
    have hstep : Sys2Proof.core.step s = .next s := step_unanswered hs hans hquiet
    induction n with
    | zero => rfl
    | succ n ih => simpa only [Host.Core.run, hstep] using ih
  case silent =>
    obtain ⟨-, hf, ⟨q, hq⟩, -⟩ := good_wait hgood hs
    rw [step_running (.inr hs) hreset, seqStep_wait _ ((afterPass_seq s).trans hs) ((afterPass_fault s).trans hf),
      answerPosition, hq]
    exact congrArg _ (exchangeOf_silent hq w ((afterPass_answers s).trans hans))
  case late =>
    obtain ⟨q, hq⟩ := exists_of_isSome hq
    exact seqStep_late_answer hgood hs hq hans (some a :: rest)

/-! ## What a request records -/

/-- Settles O21: `step_appended`, and the request that the step of a good state makes. -/
theorem traceIsAppendOnly : Obligations.TraceIsAppendOnly := by
  refine ⟨fun s t hreset hstep => step_appended hreset hstep, fun s p w q hgood hs hq hans hreset => ?_⟩
  obtain ⟨hr, hf, -, hw⟩ := good_run hgood hs
  obtain ⟨e, he, hreq⟩ := request_of_workOk hq hr hw
  refine ⟨e, he, hreq, ?_⟩
  have hreq' : q.1 (afterPass s) w = request (afterPass s) p (requested p w) e := by
    rw [afterPass_eq_withInputs, request_withInputs hq, hreq]
    rfl
  rw [step_running (.inl hs) hreset, seqStep_run _ ((afterPass_seq s).trans hs) ((afterPass_fault s).trans hf),
    runPosition_unanswered hq hreq' ((afterPass_answers s).trans hans), request, record, afterPass_trace]

/-! ## A failing command -/

/-- While a command is outstanding, its event is a send without a status. -/
theorem send_of_outstanding {p : Position} {i : Instr} {e : Event} (hi : positionInstr p = some i)
    (he : outstanding p e = true) : ∃ cmd size flags, e = .send cmd size flags none := by
  cases p <;> cases hi
  all_goals
    cases e with
    | send cmd size flags st =>
      cases st with
      | none => exact ⟨cmd, size, flags, rfl⟩
      | some st => cases he
    | reset | delay | seed => cases he

/-- The stage of a command, as 43_state_machine R163, R166 and R168 number them. -/
theorem callOf_of_positionInstr {p : Position} {i : Instr} (hi : positionInstr p = some i)
    (hread : ∀ j a n k20, p ≠ .readsecRead j a n k20) : ∃ c, callOf p = some c := by
  cases p <;> cases hi
  case readsecRead j a n k20 => exact absurd rfl (hread j a n k20)
  all_goals exact ⟨_, rfl⟩

/-- The stage of a command's failure, as 43_state_machine R163, R166 and R168 number them. -/
def stageOf : Position → U8
  | .initDummy => 1 | .initRawChipid => 2 | .initHeaderRead => 3 | .begin1Activate _ _ => 1
  | .begin1SeedInit _ _ _ => 2 | .begin1Chipid _ _ _ => 3 | .begin2Activate _ _ _ => 1 | .begin2Chipid => 2
  | _ => 0

/-- The counter that a command's failure leaves (43_state_machine R160). -/
def counterOf (r : Regs) (w : Work) : Position → Option U24
  | .begin1SeedInit _ _ _ => w.regs.k1K.map (· + 1)
  | .begin1Chipid _ _ _ => w.regs.k1K.map (· + 1)
  | .begin2Activate _ _ _ => w.regs.k1K.map (· + 1)
  | .begin2Chipid => w.regs.k1K
  | _ => r.k1K

theorem stage_of_callOf {p : Position} {c : Call} (hc : callOf p = some c) : c.stage = stageOf p := by
  cases p <;> cases hc <;> rfl

/-- What an abort keeps is the counter that the encoder has consumed, or the register's. -/
theorem counter_of_callOf {cfg : Cfg} {s : State} {p : Position} {w : Work} {c : Call} (hc : callOf p = some c)
    (hw : WorkOk cfg s p w) :
    (if (requested p w).kused then (requested p w).regs.k1K else s.regs.k1K) = counterOf s.regs w p := by
  cases p <;> cases hc
  case initReset | initDummy | initRawChipid | initHeaderRead =>
    obtain ⟨-, hk, -⟩ := hw
    exact if_neg (by simp [requested, encodes, hk])
  case begin1Activate =>
    obtain ⟨-, -, hk, -⟩ := hw
    exact if_neg (by simp [requested, encodes, hk])
  case begin2Chipid =>
    obtain ⟨-, hk, -⟩ := hw
    exact if_pos (by simp [requested, encodes, hk])
  case begin1SeedInit | begin1Chipid | begin2Activate => exact if_pos rfl

/-- Settles O60: the step makes the request and takes the failing answer, which aborts at the stage of `callOf`. -/
theorem failingCommandAborts : Obligations.FailingCommandAborts := by
  intro s w p i ans rest hgood hs hi hread hans herr stage counter
  obtain ⟨hr, hf, -, hw⟩ := good_run hgood hs
  obtain ⟨q, hq⟩ := exchangeOf_of_positionInstr (cfg := Config.cfg) hi
  obtain ⟨e, he, hreq⟩ := request_of_workOk hq hr hw
  obtain ⟨cmd, size, flags, rfl⟩ := send_of_outstanding hi he
  obtain ⟨c, hc⟩ := callOf_of_positionInstr hi hread
  refine ⟨cmd, size, flags, ?_⟩
  rw [exec_positionInstr hi (.inl hs), seqStep_run _ hs hf, runPosition_call_fails hq hreq hans hc herr]
  rw [abort_afterRequest, counter_of_callOf hc hw, stage_of_callOf hc]
  cases p <;> cases hc <;> rfl

/-! ## UNWRITTEN_READ -/

/-- In a good state a host operation that finds a register unwritten is `k1.encode`: in KEY1 the first regime is written. -/
theorem findsUnwritten_good {cfg : Cfg} {i : Instr} {r : Regs} (hr : RegsOk cfg r) (h : FindsUnwritten i r) : i = .k1Encode := by
  obtain rfl | ⟨he, hnone⟩ := h
  · rfl
  · obtain ⟨-, -, hregime⟩ := regsOk_key1_written hr he
    obtain ⟨ij, kk, l, f, hij, hkk, hl, -⟩ := regimeWritten_values hregime
    simp [hij, hkk, hl] at hnone

/-- The registers that can be unwritten are those of the selectors from 3 (10_state R23). -/
theorem regSelector_of_unwritten {cfg : Cfg} {s : State} {r : RegName} (h : inspected cfg s r = none) :
    3 ≤ ((regSelector r).setWidth 32).toNat := by
  cases r
  case encState | schedValid | hwSeed => cases h
  all_goals decide

/-- The register of an INSPECT operation (30_encoding R74). -/
def inspectedReg : Instr → Option RegName
  | .inspectEncState => some .encState
  | .inspectSchedValid => some .schedValid
  | .inspectHwSeed => some .hwSeed
  | .inspectRawChipId => some .rawChipId
  | .inspectHdrGameCode => some .hdrGameCode
  | .inspectHdrKey1Timing => some .hdrKey1Timing
  | .inspectHdrKey2Timing => some .hdrKey2Timing
  | .inspectK2SeedByte => some .k2SeedByte
  | .inspectK1Key0 => some .k1Key0
  | .inspectK1Key1 => some .k1Key1
  | .inspectK1Key2 => some .k1Key2
  | .inspectK1Ij => some .k1Ij
  | .inspectK1K => some .k1K
  | .inspectK1L => some .k1L
  | .inspectK1Flags => some .k1Flags
  | .inspectK1Sched => some .k1Sched
  | .inspectK2Mn => some .k2Mn
  | .inspectK2Flags => some .k2Flags
  | .inspectK2ChipId => some .k2ChipId
  | .inspectK2X => some .k2X
  | .inspectK2Y => some .k2Y
  | _ => none

theorem encode_of_inspectedReg {i : Instr} {r : RegName} (h : inspectedReg i = some r) :
    encode i = howWord (regSelector r) inspectOpc := by
  cases i <;> cases h <;> rfl

/-- The operations of the step list of INSPECT are those of an INSPECT word. -/
theorem inspectedReg_of_listedOperation {i : Instr} {how : U32} (hi : encode i = .how how)
    (h : listedOperation how = some .inspect) : ∃ r, inspectedReg i = some r := by
  cases i <;> simp only [encode, howWord, Code.how.injEq, reduceCtorEq] at hi <;> subst hi
  case init | setup | begin1 | readsec | begin2 | nfConstruct | nfGetPredelay | nfSetPredelay | nfGetPostdelay
      | nfSetPostdelay | nfGetPulse | nfSetPulse | nfGetCmdenc | nfSetCmdenc | nfGetDataenc | nfSetDataenc | nfGetSlow
      | nfSetSlow | nfGetSecen | k1Encode | k1Derive | k2Seed => cases h
  all_goals exact ⟨_, rfl⟩

theorem exec_of_inspectedReg {i : Instr} {r : RegName} (h : inspectedReg i = some r) (hr : r ≠ .k1Sched) (s : State) :
    exec i s = inspectReg s r := by
  cases i <;> cases h
  case inspectK1Sched => exact absurd rfl hr
  all_goals rfl

theorem inspectSchedOp_seq {cfg : Cfg} {s t : State} (hf : s.fault = none) (h : inspectSchedOp cfg s = .next t) :
    t.seq = .idle ∨ t.seq = .run (.inspectCheck .k1Sched) (beginWork s) := by
  obtain ⟨-, ⟨f, hlatched, -⟩ | ⟨-, rfl⟩⟩ := hostOp_next h
  · simp [hf] at hlatched
  · split
    · exact .inl rfl
    · exact .inr rfl

/-- INSPECT begins at the check of its register. -/
theorem exec_inspect_seq {i : Instr} {r : RegName} {s t : State} (hi : inspectedReg i = some r) (hf : s.fault = none)
    (h : exec i s = .next t) : t.seq = .idle ∨ t.seq = .run (.inspectCheck r) (beginWork s) := by
  by_cases hr : r = .k1Sched
  · subst hr
    cases i <;> cases hi
    exact inspectSchedOp_seq hf h
  · rw [exec_of_inspectedReg hi hr] at h
    obtain ⟨-, ⟨f, hlatched, -⟩ | ⟨-, rfl⟩⟩ := hostOp_next h
    · simp [hf] at hlatched
    · exact .inr rfl

/-- Settles O23: a fault comes from the body of a host operation or from an INSPECT's check, and no step of the sequencer comes
to such a check, which is the first of its list. -/
theorem unwrittenReadOnlyFromInspectOrEncode : Obligations.UnwrittenReadOnlyFromInspectOrEncode := by
  constructor
  · intro s t info hgood hstep hs ht
    obtain ⟨o, rest, hseq, hhost, rfl, hreason⟩ | ⟨r, w, hseq, hunwritten, rfl⟩ := step_faults hgood hstep hs ht
    · refine .inr ⟨o, rest, hseq, hhost, ?_⟩
      obtain hillegal | ⟨i, hword, hexec⟩ := hreason
      · cases hillegal
      · obtain ⟨body, hbody, hcases⟩ := exists_body_of_isHostOperation ((isHostOperation_iff i).2 ⟨_, hword⟩)
        rw [hbody, hostOp_runs (s := accepted s o rest) _ hseq hs] at hexec
        have hi : i = .k1Encode := by
          obtain hno | hfinds := hcases (clearPorts (accepted s o rest)) hs
          · rw [Host.Outcome.next.inj hexec] at hno
            exact absurd rfl (hno info)
          · exact findsUnwritten_good hgood.1 hfinds
        subst hi
        exact (Code.how.inj hword).symm
    · cases ht
      exact .inl ⟨r, w, hseq, rfl, regSelector_of_unwritten hunwritten⟩
  · intro s t r w hs hstep hrun
    cases step_cases hstep with
    | reset => cases hrun
    | pass hseq => simp [hseq] at hrun
    | latched hseq _ hf => simp [hs] at hf
    | illegal => cases hrun
    | @operation o rest i _ hseq hhost _ hword hexec hbody =>
      refine ⟨o, rest, hseq, hhost, ?_⟩
      obtain hidle | ⟨p, hp, -, hop⟩ := bodyResult_seq hbody
      · simp [hidle] at hrun
      · obtain ⟨r', hr'⟩ : ∃ r', inspectedReg i = some r' := by
          refine inspectedReg_of_listedOperation hword ?_
          rw [hrun] at hp
          cases hp
          exact hop
        obtain rfl : r = r' := by
          obtain hidle | hcheck := exec_inspect_seq (s := accepted s o rest) hr' hs hexec
          · simp [hidle] at hrun
          · rw [hcheck] at hrun
            cases hrun
            rfl
        rw [← Code.how.inj ((encode_of_inspectedReg hr').symm.trans hword)]
        cases r <;> exact ⟨rfl, rfl⟩
    | @sequencer p w' hseq =>
      obtain hidle | ⟨_, hwait⟩ | ⟨p', _, hp', -, hindex⟩ :=
        seqStep_inOrder (cfg := Config.cfg) (p := p) (w := w') ((afterPass_fault s).trans hs) (by simpa using hseq)
      · simp [hidle] at hrun
      · simp [hwait] at hrun
      · rw [hp'] at hrun
        cases hrun
        cases hindex

end Sys2Proof.Proofs
end

