-- ==== Sys2Proof/Proofs/BusCommands.lean ====
section
/-!
SUPPORT. A run of the sequencer step by step (43_state_machine R163, R166 to R168), where the platform answers: one lemma for each
step, and what each bus command does at its step and up to the next one (30_encoding R81).
-/

namespace Sys2Proof.Proofs

open Sys2Proof.Machine Sys2Proof.Safety Sys2Proof.Laws

/-! ## A run from the step that comes next -/

theorem advance_self {s : State} {p : Position} {w : Work} (hs : s.seq = .run p w) : advance s p w = s := by
  rw [advance, ← hs]

/-- A bus command at its step is the first step of a run from there. -/
theorem exec_eq_drive {s : State} {p : Position} {w : Work} {i : Instr} (hi : positionInstr p = some i)
    (hs : s.seq = .run p w) : exec i s = .next (drive Config.cfg 1 (advance s p w)) := by
  rw [exec_positionInstr hi (.inl hs), advance_self hs]
  rfl

section Run

variable {cfg : Cfg} {s : State} (n : Nat) {p p' : Position} {w w' : Work} {q : Exchange} {e : Event} {a : Answer}
  {rest : List (Option Answer)} (hfault : s.fault = none)
include hfault

theorem drive_moves (h : runPosition cfg (advance s p w) w p = advance (advance s p w) p' w') :
    drive cfg (n + 1) (advance s p w) = drive cfg n (advance s p' w') := by
  rw [drive_advance _ _ _ _ _ hfault, h]
  rfl

theorem drive_ends {st : Status} {t : State} (h : runPosition cfg (advance s p w) w p = finish t st) :
    drive cfg (n + 1) (advance s p w) = finish t st := by
  rw [drive_advance _ _ _ _ _ hfault, h, drive_idle _ _ _ rfl]

theorem drive_call {c : Call} (hq : exchangeOf cfg p = some q) (hc : callOf p = some c)
    (hreq : q.1 (advance s p w) w = request (advance s p w) p w' e) (hans : s.answers = some a :: rest)
    (hok : 0 ≤ a.st.toInt) :
    drive cfg (n + 1) (advance s p w) = drive cfg n
      (advance (afterRequest s (e.answered a.st) rest) c.next (deliver w' c.dest (a.bytes.restrict c.size.toNat))) := by
  rw [drive_advance _ _ _ _ _ hfault, runPosition_call_succeeds hq hreq (by exact hans) hc hok]
  rfl

theorem drive_call_fails {c : Call} (hq : exchangeOf cfg p = some q) (hc : callOf p = some c)
    (hreq : q.1 (advance s p w) w = request (advance s p w) p w' e) (hans : s.answers = some a :: rest)
    (herr : a.st.toInt < 0) :
    drive cfg (n + 1) (advance s p w) = { s with
      seq := .idle, status := some ⟨1, c.stage, a.st⟩
      regs := { s.regs with k1K := if w'.kused then w'.regs.k1K else s.regs.k1K }
      answers := rest, trace := s.trace ++ [e.answered a.st] } := by
  rw [drive_advance _ _ _ _ _ hfault, runPosition_call_fails hq hreq (by exact hans) hc herr, drive_idle _ _ _ rfl]
  rfl

/-- A request that the platform does not answer ends the run where it is (60_exceptions R203). -/
theorem drive_waits (hq : exchangeOf cfg p = some q)
    (hreq : q.1 (advance s p w) w = request (advance s p w) p w' e) (hans : s.answers = []) :
    drive cfg 1 (advance s p w) = request s p w' e := by
  rw [drive_advance _ _ _ _ _ hfault, runPosition_unanswered hq hreq (by exact hans)]
  rfl

end Run

/-! ## BEGIN1 (R166) -/

section Begin1

variable {cfg : Cfg} {s : State} (n : Nat) {w : Work} {a : Answer} {rest : List (Option Answer)}
  (hfault : s.fault = none)
include hfault

theorem drive_begin1Activate (ij : U24) (k20 : U20) {t2 : U32} (ht2 : s.regs.hdrKey2Timing = some t2)
    (hans : s.answers = some a :: rest) (hok : 0 ≤ a.st.toInt) :
    drive cfg (n + 1) (advance s (.begin1Activate ij k20) w) = drive cfg n
      (advance (afterRequest s (.send (cfg.actLayout cfg.act1Opc ij k20) 0 (actFlags cfg t2) (some a.st)) rest)
        .begin1Word w) :=
  drive_call n hfault rfl rfl (activateKey1_request ij k20 ht2) hans hok

theorem drive_begin1Word {t1 t2 : U32} {l : U16} {mn kk : U24} (ht2 : s.regs.hdrKey2Timing = some t2)
    (ht1 : s.regs.hdrKey1Timing = some t1) (hl : w.regs.k1L = some l) (hmn : w.regs.k2Mn = some mn)
    (hkk : w.regs.k1K = some kk) :
    drive cfg (n + 1) (advance s .begin1Word w) = drive cfg n (advance s (.begin1SeedInit l mn (lowCounter kk)) { w with
      regs := { w.regs with k1Flags := some (k1WorkingWord cfg t1 (actFlags cfg t2)) } }) :=
  drive_moves n hfault (k1WordStep_eq ht2 ht1 hl hmn hkk)

theorem drive_begin1SeedInit (arg : U16) (nonce : U24) (k20 : U20) {kk : U24} {sched : List U32} {f : U32}
    (hkk : w.regs.k1K = some kk) (hsched : w.regs.k1Sched = some sched) (hf : w.regs.k1Flags = some f)
    (hans : s.answers = some a :: rest) (hok : 0 ≤ a.st.toInt) :
    drive cfg (n + 1) (advance s (.begin1SeedInit arg nonce k20) w) = drive cfg n
      (advance (afterRequest s
        (.send (k1Wire cfg sched (cfg.key1Layout cfg.k1CmdSeed arg nonce k20)) 0 f (some a.st)) rest)
        .begin1SeedPair (consumed w kk)) :=
  drive_call n hfault rfl rfl (key2SeedInit_request arg nonce k20 hkk hsched hf) hans hok

theorem drive_begin1SeedPair {sb : U8} {mn : U24} (hsb : s.regs.k2SeedByte = some sb) (hmn : w.regs.k2Mn = some mn) :
    drive cfg (n + 1) (advance s .begin1SeedPair w) = drive cfg n (advance s .begin1PlatformSeed { w with
      regs := { w.regs with k2X := some (k2SeedX cfg sb mn), k2Y := some k2SeedY } }) :=
  drive_moves n hfault (seedPairStep_eq hsb hmn)

/-- The seed is handed over only where the platform seeds in hardware, and it cannot fail (60_exceptions R213). -/
theorem drive_begin1PlatformSeed {d : Answer} {x y : U64} (hx : w.regs.k2X = some x) (hy : w.regs.k2Y = some y)
    (hans : s.answers = if cfg.hwSeed then some d :: rest else rest) :
    drive cfg (n + 1) (advance s .begin1PlatformSeed w) = drive cfg n (advance { s with
      answers := rest, trace := s.trace ++ if cfg.hwSeed then [.seed x y] else [] } .begin1Enable w) := by
  cases hseed : cfg.hwSeed with
  | true =>
    rw [hseed, if_pos rfl] at hans
    rw [drive_advance _ _ _ _ _ hfault,
      runPosition_return (p := .begin1PlatformSeed) (if_pos hseed) (platformSeed_request hx hy) (by exact hans) rfl]
    rfl
  | false =>
    rw [hseed, if_neg Bool.false_ne_true] at hans
    rw [drive_moves (p := .begin1PlatformSeed) n hfault (platformSeedStep_software _ w hseed), ← hans,
      if_neg Bool.false_ne_true, List.append_nil]

theorem drive_begin1Enable {f : U32} {l : U16} {ij kk : U24} (hf : w.regs.k1Flags = some f) (hl : w.regs.k1L = some l)
    (hij : w.regs.k1Ij = some ij) (hkk : w.regs.k1K = some kk) :
    drive cfg (n + 1) (advance s .begin1Enable w) = drive cfg n (advance s (.begin1Chipid l ij (lowCounter kk)) { w with
      regs := { w.regs with k1Flags := some (enableBoth f) } }) :=
  drive_moves n hfault (enableStep_eq hf hl hij hkk)

theorem drive_begin1Chipid (arg : U16) (nonce : U24) (k20 : U20) {kk : U24} {sched : List U32} {f : U32}
    (hkk : w.regs.k1K = some kk) (hsched : w.regs.k1Sched = some sched) (hf : w.regs.k1Flags = some f)
    (hans : s.answers = some a :: rest) (hok : 0 ≤ a.st.toInt) :
    drive cfg (n + 1) (advance s (.begin1Chipid arg nonce k20) w) = drive cfg n
      (advance (afterRequest s
        (.send (k1Wire cfg sched (cfg.key1Layout cfg.k1CmdChipid arg nonce k20)) 4 f (some a.st)) rest)
        .begin1StoreId { consumed w kk with rsp4 := a.bytes.restrict 4 }) :=
  drive_call n hfault rfl rfl (key1Chipid_request arg nonce k20 hkk hsched hf) hans hok

/-- The steps after the chip id is read: it is stored and compared, and BEGIN1 ends. -/
theorem drive_begin1StoreId {bytes : Memory} {rawId : U32} (hbytes : w.rsp4 = bytes.restrict 4)
    (hraw : s.regs.rawChipId = some rawId) :
    drive cfg (n + 2) (advance s .begin1StoreId w) = finish { s with regs := { w.regs with
      k2ChipId := some (le32 bytes 0), encState := if le32 bytes 0 = rawId then .key1 else .unknown } }
      (verdict (le32 bytes 0) rawId) := by
  rw [← le32_restrict bytes (off := 0) (n := 4) (by decide), ← hbytes]
  refine (drive_moves (n + 1) hfault rfl).trans ?_
  exact (drive_ends (p := .begin1Compare) n hfault
    (compareStep_eq (s := advance s .begin1Compare _) rfl hraw .key1)).trans rfl

end Begin1

/-! ## BEGIN2 (R168) -/

section Begin2

variable {cfg : Cfg} {s : State} (n : Nat) {w : Work} {a : Answer} {rest : List (Option Answer)}
  (hfault : s.fault = none)
include hfault

theorem drive_begin2Activate (arg : U16) (nonce : U24) (k20 : U20) {kk : U24} {sched : List U32} {f : U32}
    (hkk : w.regs.k1K = some kk) (hsched : w.regs.k1Sched = some sched) (hf : w.regs.k1Flags = some f)
    (hans : s.answers = some a :: rest) (hok : 0 ≤ a.st.toInt) :
    drive cfg (n + 1) (advance s (.begin2Activate arg nonce k20) w) = drive cfg n
      (advance (afterRequest s
        (.send (k1Wire cfg sched (cfg.key1Layout cfg.k1CmdAct2 arg nonce k20)) 0 f (some a.st)) rest)
        .begin2Word (consumed w kk)) :=
  drive_call n hfault rfl rfl (activateKey2_request arg nonce k20 hkk hsched hf) hans hok

theorem drive_begin2Word {t2 : U32} (ht2 : s.regs.hdrKey2Timing = some t2) :
    drive cfg (n + 1) (advance s .begin2Word w) = drive cfg n (advance s .begin2Chipid { w with
      regs := { w.regs with k2Flags := some (k2WorkingWord cfg t2) } }) :=
  drive_moves n hfault (k2WordStep_eq ht2)

theorem drive_begin2Chipid {f : U32} (hf : w.regs.k2Flags = some f) (hans : s.answers = some a :: rest)
    (hok : 0 ≤ a.st.toInt) :
    drive cfg (n + 1) (advance s .begin2Chipid w) = drive cfg n
      (advance (afterRequest s (.send cfg.k2ChipidCmd 4 f (some a.st)) rest) .begin2StoreId
        { w with rsp4 := a.bytes.restrict 4 }) :=
  drive_call n hfault rfl rfl (key2Chipid_request hf) hans hok

/-- The steps after the chip id is read: it is stored and compared, and BEGIN2 ends. -/
theorem drive_begin2StoreId {bytes : Memory} {rawId : U32} (hbytes : w.rsp4 = bytes.restrict 4)
    (hraw : s.regs.rawChipId = some rawId) :
    drive cfg (n + 2) (advance s .begin2StoreId w) = finish { s with regs := { w.regs with
      k2ChipId := some (le32 bytes 0), encState := if le32 bytes 0 = rawId then .key2 else .unknown } }
      (verdict (le32 bytes 0) rawId) := by
  rw [← le32_restrict bytes (off := 0) (n := 4) (by decide), ← hbytes]
  refine (drive_moves (n + 1) hfault rfl).trans ?_
  exact (drive_ends (p := .begin2Compare) n hfault
    (compareStep_eq (s := advance s .begin2Compare _) rfl hraw .key2)).trans rfl

end Begin2

/-! ## The commands of INIT, BEGIN1 and BEGIN2 -/

/-- Settles O54: each command at its step is one answered `call`, and the steps after it are those of INIT. -/
theorem initCommandsRunTheirStages : Obligations.InitCommandsRunTheirStages := by
  intro s w a rest hfault hans hok
  refine ⟨?dummy, ?rawChipid, ?header⟩
  case dummy =>
    intro hs t
    refine ⟨?sent, fun hrest => ?waits, fun d later hrest => ?returns⟩
    case sent => rw [exec_eq_drive rfl hs, drive_initDummy 0 w hfault hans hok]; rfl
    case waits => exact drive_waits (s := t) (p := .initDelay) hfault rfl rfl hrest
    case returns => exact drive_initDelay (s := t) 0 w hfault hrest
  case rawChipid =>
    intro hs w' t
    refine ⟨?sent, ?captured⟩
    case sent => rw [exec_eq_drive rfl hs, drive_initRawChipid 0 w hfault hans hok]; rfl
    case captured =>
      have hid : le32 w'.rsp4 0 = le32 a.bytes 0 := le32_restrict a.bytes (by decide)
      have hcapture := drive_initCapture (cfg := Config.cfg) (s := t) 0 w' hfault
      rw [hid] at hcapture
      exact hcapture
  case header =>
    intro hs t
    refine ⟨?sent, ?ends⟩
    case sent => rw [exec_eq_drive rfl hs, drive_initHeaderRead 0 w hfault hans hok]; rfl
    case ends =>
      have hend := drive_initParse (cfg := Config.cfg) (s := t) { w with hdrBuf := a.bytes.restrict 0x1000 } hfault
      rw [headerParse_restrict] at hend
      exact (congrArg (drive Config.cfg 6) hend).trans (drive_idle _ _ _ rfl)

/-- Settles O55. -/
theorem activateKey1RunsItsStage : Obligations.ActivateKey1RunsItsStage := by
  intro s w ij mn kk k20 l t1 t2 a rest hfault hs ht2 ht1 hl hmn hkk hans hok cfg fAct t
  refine ⟨?sent, ?formed⟩
  case sent => rw [exec_eq_drive rfl hs, drive_begin1Activate 0 hfault ij k20 ht2 hans hok]; rfl
  case formed => exact drive_begin1Word (s := t) 0 hfault ht2 ht1 hl hmn hkk

/-- Settles O56: the pair is computed in the step after the command, and the seed is outstanding or returns in the next one. -/
theorem key2SeedInitRunsItsStage : Obligations.Key2SeedInitRunsItsStage := by
  intro s w a n k20 mn ij kk l f sb sched ans d rest later hfault hs hsb hf hkk hsched hmn hl hij hans hok cfg x t
  have hpair (m : Nat) := drive_begin1SeedPair (cfg := cfg) (s := t) (w := consumed w kk) m hfault hsb hmn
  refine ⟨?sent, fun hseed hrest => ?waits, fun hrest => ?enabled⟩
  case sent => rw [exec_eq_drive rfl hs, drive_begin1SeedInit 0 hfault a n k20 hkk hsched hf hans hok]; rfl
  case waits =>
    refine (hpair 1).trans ?_
    exact drive_waits (p := .begin1PlatformSeed) hfault (if_pos hseed) (platformSeed_request rfl rfl) hrest
  case enabled =>
    refine (hpair 2).trans ((drive_begin1PlatformSeed (s := t) (d := d) 1 hfault rfl rfl hrest).trans ?_)
    rw [← enableBoth_eq]
    exact drive_begin1Enable (kk := kk + 1) 0 (by exact hfault) (by exact hf) (by exact hl) (by exact hij) (by rfl)

/-- Settles O57. -/
theorem chipIdCommandsVerify : Obligations.ChipIdCommandsVerify := by
  intro s w f rawId ans rest hfault hraw hans hok cfg id verdict
  refine ⟨?key1, ?key2⟩
  case key1 =>
    intro a n kk k20 sched hs hf hkk hsched t
    refine ⟨?sent, ?ends⟩
    case sent => rw [exec_eq_drive rfl hs, drive_begin1Chipid 0 hfault a n k20 hkk hsched hf hans hok]; rfl
    case ends =>
      exact drive_begin1StoreId (s := t) (w := { consumed w kk with rsp4 := ans.bytes.restrict 4 }) 8 hfault rfl hraw
  case key2 =>
    intro hs hf t
    refine ⟨?sent, ?ends⟩
    case sent => rw [exec_eq_drive rfl hs, drive_begin2Chipid 0 hfault hf hans hok]; rfl
    case ends => exact drive_begin2StoreId (s := t) (w := { w with rsp4 := ans.bytes.restrict 4 }) 8 hfault rfl hraw

/-- Settles O59. -/
theorem activateKey2RunsItsStage : Obligations.ActivateKey2RunsItsStage := by
  intro s w a n kk k20 f t2 sched ans rest hfault hs ht2 hf hkk hsched hans hok cfg w' t
  refine ⟨?sent, ?formed⟩
  case sent => rw [exec_eq_drive rfl hs, drive_begin2Activate 0 hfault a n k20 hkk hsched hf hans hok]; rfl
  case formed => exact drive_begin2Word (s := t) 0 hfault ht2

end Sys2Proof.Proofs
end

