-- ==== Sys2Proof/Proofs/SecureReads.lean ====
section
/-!
SUPPORT. READSEC (43_state_machine R167, 20_memory R51): what the answer of a secure read, good or not, leaves in the result
ports, the steps of READSEC one after another, and that none of them depends on the raw chip id (70_reset_and_hazards R240).
-/

namespace Sys2Proof.Proofs

open Sys2Proof.Machine Sys2Proof.Safety Sys2Proof.Laws

/-! ## The answer of a secure read -/

/-- What `CHUNK` holds for the secure read of a stage (R167). -/
def report (stage : U8) (st : U32) : Status := if st.toInt < 0 then ⟨1, stage, st⟩ else ⟨0, 0, 0⟩

/-- `SEC_OUT` once the answer to the secure read of chunk `j` is in it (20_memory R51). -/
def filled (s : State) (j : Fin 4) (a : Answer) : Memory :=
  Memory.memWrite (s.secOut.getD []) (chunkOffset j) Config.chunkSize.toNat
    (if isError a.st then freeChunk s.freeCount else a.bytes)

/-- The state once the answer to the secure read of chunk `j` is stored: `e` is the event with its status. -/
def afterSecureRead (s : State) (j : Fin 4) (e : Event) (a : Answer) (rest : List (Option Answer)) : State :=
  { afterRequest s e rest with
    secOut := some (filled s j a)
    freeCount := if isError a.st then s.freeCount + 1 else s.freeCount
    chunk := s.chunk.set j.val (some (report (BitVec.ofNat 8 (j.val + 1)) a.st)) }

theorem report_eq (stage : U8) (st : U32) : report stage st = if isError st then ioStatus stage st else okStatus := by
  simp only [report, isError_iff]
  rfl

theorem storeChunk_answered (s : State) (j : Fin 4) (e : Event) (a : Answer) (rest : List (Option Answer)) (q : Seq) :
    storeChunk { afterRequest s e rest with seq := q } j a.st a.bytes = { afterSecureRead s j e a rest with seq := q } := by
  rw [storeChunk_eq, ← report_eq]
  rfl

/-- A good answer fills its quarter of `SEC_OUT` (R51). -/
theorem read_filled_inside {s : State} (j : Fin 4) {a : Answer} (hok : 0 ≤ a.st.toInt) {i : Nat} (hi : i < 0x1000) :
    (filled s j a).read (j.val * 0x1000 + i) = a.bytes.read i := by
  rw [filled, read_memWrite_chunk, if_pos (by omega), isError_eq_false_of_nonneg hok, Nat.add_sub_cancel_left]
  rfl

theorem read_filled_outside (s : State) (j : Fin 4) (a : Answer) {i : Nat}
    (hi : i < j.val * 0x1000 ∨ j.val * 0x1000 + 0x1000 ≤ i) :
    (filled s j a).read i = Memory.read (s.secOut.getD []) i := by
  rw [filled, read_memWrite_chunk, if_neg (by omega)]

/-! ## The steps of READSEC -/

/-- The event of an answered secure read. -/
def secureEvent (cfg : Cfg) (sched : List U32) (t1 : U32) (arg : U16) (n : U24) (k20 : U20) (st : U32) : Event :=
  .send (k1Wire cfg sched (cfg.key1Layout cfg.k1CmdSecread arg n k20)) 0x1000 (secureFlags cfg t1) (some st)

/-- READSEC runs with these values: the timing of the register file, and what the working copy holds. -/
structure Reading (s : State) (w : Work) (t1 : U32) (ij kk : U24) (sched : List U32) : Prop where
  fault : s.fault = none
  timing : s.regs.hdrKey1Timing = some t1
  nonce : w.regs.k1Ij = some ij
  counter : w.regs.k1K = some kk
  schedule : w.regs.k1Sched = some sched

theorem Reading.after {s : State} {w : Work} {t1 : U32} {ij kk : U24} {sched : List U32} (h : Reading s w t1 ij kk sched)
    (j : Fin 4) (e : Event) (a : Answer) (rest : List (Option Answer)) :
    Reading (afterSecureRead s j e a rest) (consumed w kk) t1 ij (kk + 1) sched :=
  ⟨h.fault, h.timing, h.nonce, rfl, h.schedule⟩

/-- The step after the secure read of chunk `j`: the next read, or the one that writes the counter (R167). -/
def nextRead (j : Fin 4) (ij : U24) (k20 : U20) : Position :=
  if h : j.val + 1 < 4 then .readsecRead ⟨j.val + 1, h⟩ (secureArgument ⟨j.val + 1, h⟩) ij k20 else .readsecCounter

theorem nextRead_zero (ij : U24) (k20 : U20) : nextRead 0 ij k20 = .readsecRead 1 5 ij k20 := rfl
theorem nextRead_one (ij : U24) (k20 : U20) : nextRead 1 ij k20 = .readsecRead 2 6 ij k20 := rfl
theorem nextRead_two (ij : U24) (k20 : U20) : nextRead 2 ij k20 = .readsecRead 3 7 ij k20 := rfl
theorem nextRead_three (ij : U24) (k20 : U20) : nextRead 3 ij k20 = .readsecCounter := rfl

section Steps

variable {cfg : Cfg} {s : State} (n : Nat) {w : Work} {a : Answer} {rest : List (Option Answer)} {kk ij : U24}
  {sched : List U32} {t1 : U32}

theorem afterChunk_eq (j : Fin 4) (hij : w.regs.k1Ij = some ij) (hkk : w.regs.k1K = some kk) :
    afterChunk s w j = advance s (nextRead j ij (lowCounter kk)) w := by
  unfold nextRead
  split
  next hj => exact afterChunk_next hj hij hkk
  next hj => exact afterChunk_last hj

/-- A secure read with its answer, good or not. -/
theorem drive_readsecRead (j : Fin 4) (arg : U16) (nonce : U24) (k20 : U20) (h : Reading s w t1 ij kk sched)
    (hans : s.answers = some a :: rest) :
    drive cfg (n + 1) (advance s (.readsecRead j arg nonce k20) w) = drive cfg n
      (advance (afterSecureRead s j (secureEvent cfg sched t1 arg nonce k20 a.st) a rest)
        (nextRead j ij (lowCounter (kk + 1))) (consumed w kk)) := by
  have hreq := secureRead_request (cfg := cfg) (s := advance s (.readsecRead j arg nonce k20) w)
    arg nonce k20 h.counter h.schedule j h.timing
  rw [drive_advance _ _ _ _ _ h.fault, runPosition_readsecRead hreq (by exact hans), storeChunk_answered,
    afterChunk_eq (w := consumed w kk) (kk := kk + 1) j h.nonce rfl]
  rfl

/-- The last two steps: the counter is the only register that READSEC writes, and the summary is its status (R167). -/
theorem drive_readsecCounter (hfault : s.fault = none) :
    drive cfg (n + 2) (advance s .readsecCounter w)
      = finish { s with regs := { s.regs with k1K := w.regs.k1K } } (summaryStatus s.chunk.toList) := by
  refine (drive_advance _ (n + 1) _ .readsecCounter _ hfault).trans ?_
  refine (drive_advance _ n { s with regs := { s.regs with k1K := w.regs.k1K } } .readsecReturn w hfault).trans ?_
  exact drive_idle _ _ _ rfl

end Steps

/-- Settles O58: the command is one step of READSEC, and what it leaves in the ports is `afterSecureRead`. -/
theorem secureReadRunsItsStage : Obligations.SecureReadRunsItsStage := by
  intro s w j a n ij kk k20 t1 sched ans rest hfault hs ht1 hkk hsched hij hans cfg fs w'
  have hfs : secureFlags cfg t1 = fs := enableBoth_eq _
  have hsent := exec_eq_drive (i := .busSecureRead a n k20) rfl hs
  rw [drive_readsecRead 0 j a n k20 ⟨hfault, ht1, hij, hkk, hsched⟩ hans] at hsent
  refine ⟨_, _, hsent, rfl, fun hok i hi => read_filled_inside j hok hi, fun i hi => read_filled_outside s j ans hi, rfl,
    by rw [← hfs]; rfl, rfl, hfault, rfl, rfl, rfl, rfl, rfl, rfl, rfl, ?next, ?last⟩
  case next =>
    intro hj
    have hj' : j.val + 1 < 4 := by omega
    have harg : secureArgument ⟨j.val + 1, hj'⟩ = BitVec.ofNat 16 (j.val + 5) := by
      simp only [secureArgument]
      bv_omega
    refine ⟨hj', ?_⟩
    rw [drive, advance, nextRead, dif_pos hj', harg]
    rfl
  case last =>
    intro hj
    have hcounter : nextRead j ij (lowCounter (kk + 1)) = .readsecCounter := dif_neg (by omega)
    rw [drive, hcounter]
    exact ⟨rfl, _, drive_readsecCounter (s := afterSecureRead s j _ ans rest) 8 hfault⟩

/-! ## READSEC from its first step to its end -/

/-- The four secure reads of READSEC have run: the states after each, one after another. -/
def afterReads (cfg : Cfg) (s : State) (sched : List U32) (t1 : U32) (ij kk : U24) (a0 a1 a2 a3 : Answer)
    (rest : List (Option Answer)) : State :=
  let e := fun (arg : U16) (k : U24) (a : Answer) => secureEvent cfg sched t1 arg ij (lowCounter k) a.st
  let s1 := afterSecureRead s 0 (e 4 kk a0) a0 (some a1 :: some a2 :: some a3 :: rest)
  let s2 := afterSecureRead s1 1 (e 5 (kk + 1) a1) a1 (some a2 :: some a3 :: rest)
  let s3 := afterSecureRead s2 2 (e 6 (kk + 2) a2) a2 (some a3 :: rest)
  afterSecureRead s3 3 (e 7 (kk + 3) a3) a3 rest

/-- The six steps of READSEC where the platform answers each read, good or not. -/
theorem drive_readsec {cfg : Cfg} {s : State} {w : Work} {a0 a1 a2 a3 : Answer} {rest : List (Option Answer)} {t1 : U32}
    {ij kk : U24} {sched : List U32} (n : Nat) (h : Reading s w t1 ij kk sched)
    (hans : s.answers = some a0 :: some a1 :: some a2 :: some a3 :: rest) :
    drive cfg (n + 6) (advance s (.readsecRead 0 4 ij (lowCounter kk)) w) =
      finish { afterReads cfg s sched t1 ij kk a0 a1 a2 a3 rest with regs := { s.regs with k1K := some (kk + 4) } }
        (summaryStatus (afterReads cfg s sched t1 ij kk a0 a1 a2 a3 rest).chunk.toList) := by
  have htwo : kk + 1 + 1 = kk + 2 := by bv_omega
  have hthree : kk + 2 + 1 = kk + 3 := by bv_omega
  have hfour : kk + 3 + 1 = kk + 4 := by bv_omega
  have h1 := h.after 0 (secureEvent cfg sched t1 4 ij (lowCounter kk) a0.st) a0 (some a1 :: some a2 :: some a3 :: rest)
  have h2 := h1.after 1 (secureEvent cfg sched t1 5 ij (lowCounter (kk + 1)) a1.st) a1 (some a2 :: some a3 :: rest)
  rw [htwo] at h2
  have h3 := h2.after 2 (secureEvent cfg sched t1 6 ij (lowCounter (kk + 2)) a2.st) a2 (some a3 :: rest)
  rw [hthree] at h3
  have h4 := h3.after 3 (secureEvent cfg sched t1 7 ij (lowCounter (kk + 3)) a3.st) a3 rest
  rw [drive_readsecRead (n + 5) 0 _ _ _ h hans, nextRead_zero, drive_readsecRead (n + 4) 1 _ _ _ h1 rfl, nextRead_one,
    htwo, drive_readsecRead (n + 3) 2 _ _ _ h2 rfl, nextRead_two, hthree, drive_readsecRead (n + 2) 3 _ _ _ h3 rfl,
    nextRead_three, drive_readsecCounter n h4.fault, h4.counter, hfour]
  rfl

section AfterReads

variable (cfg : Cfg) (s : State) (sched : List U32) (t1 : U32) (ij kk : U24) (a0 a1 a2 a3 : Answer)
  (rest : List (Option Answer))

/-- The events of the four secure reads of READSEC. -/
def readEvents : List Event :=
  [secureEvent cfg sched t1 4 ij (lowCounter kk) a0.st, secureEvent cfg sched t1 5 ij (lowCounter (kk + 1)) a1.st,
    secureEvent cfg sched t1 6 ij (lowCounter (kk + 2)) a2.st, secureEvent cfg sched t1 7 ij (lowCounter (kk + 3)) a3.st]

theorem afterReads_trace : (afterReads cfg s sched t1 ij kk a0 a1 a2 a3 rest).trace
    = s.trace ++ readEvents cfg sched t1 ij kk a0 a1 a2 a3 := by
  simp [afterReads, afterSecureRead, afterRequest, readEvents]

theorem afterReads_chunk (h : s.chunk = #v[none, none, none, none]) :
    (afterReads cfg s sched t1 ij kk a0 a1 a2 a3 rest).chunk = #v[some (report 1 a0.st), some (report 2 a1.st),
      some (report 3 a2.st), some (report 4 a3.st)] := by
  simp only [afterReads, afterSecureRead, afterRequest, h]
  rfl

/-- Each quarter of `SEC_OUT` is written once, so that its good bytes are still there at the end (R51). -/
theorem afterReads_secOut :
    ∃ out, (afterReads cfg s sched t1 ij kk a0 a1 a2 a3 rest).secOut = some out ∧ ∀ i, i < 0x1000 →
    (0 ≤ a0.st.toInt → out.read i = a0.bytes.read i)
    ∧ (0 ≤ a1.st.toInt → out.read (0x1000 + i) = a1.bytes.read i)
    ∧ (0 ≤ a2.st.toInt → out.read (0x2000 + i) = a2.bytes.read i)
    ∧ (0 ≤ a3.st.toInt → out.read (0x3000 + i) = a3.bytes.read i) := by
  refine ⟨_, rfl, fun i hi => ⟨fun h0 => ?chunk0, fun h1 => ?chunk1, fun h2 => ?chunk2, fun h3 => ?chunk3⟩⟩
  case chunk3 => exact read_filled_inside 3 h3 hi
  case chunk2 =>
    refine (read_filled_outside _ 3 _ (.inl ?_)).trans (read_filled_inside 2 h2 hi)
    change 0x2000 + i < 0x3000
    omega
  case chunk1 =>
    refine (read_filled_outside _ 3 _ (.inl ?_)).trans ((read_filled_outside _ 2 _ (.inl ?_)).trans
      (read_filled_inside 1 h1 hi))
    · change 0x1000 + i < 0x3000
      omega
    · change 0x1000 + i < 0x2000
      omega
  case chunk0 =>
    refine (read_filled_outside _ 3 _ (.inl ?_)).trans ((read_filled_outside _ 2 _ (.inl ?_)).trans
      ((read_filled_outside _ 1 _ (.inl ?_)).trans ?_))
    · change i < 0x3000
      omega
    · change i < 0x2000
      omega
    · exact hi
    · exact (congrArg _ (Nat.zero_add i).symm).trans (read_filled_inside 0 h0 hi)

theorem afterReads_eq (h : s.chunk = #v[none, none, none, none]) {out : Memory}
    (hout : (afterReads cfg s sched t1 ij kk a0 a1 a2 a3 rest).secOut = some out) :
    ∃ free, afterReads cfg s sched t1 ij kk a0 a1 a2 a3 rest = { s with
      secOut := some out
      freeCount := free
      chunk := #v[some (report 1 a0.st), some (report 2 a1.st), some (report 3 a2.st), some (report 4 a3.st)]
      answers := rest
      trace := s.trace ++ readEvents cfg sched t1 ij kk a0 a1 a2 a3 } := by
  have htrace := afterReads_trace cfg s sched t1 ij kk a0 a1 a2 a3 rest
  have hchunk := afterReads_chunk cfg s sched t1 ij kk a0 a1 a2 a3 rest h
  refine ⟨(afterReads cfg s sched t1 ij kk a0 a1 a2 a3 rest).freeCount, ?_⟩
  rw [← hout, ← hchunk, ← htrace]
  simp only [afterReads, afterSecureRead, afterRequest]

end AfterReads

/-- The first chunk that is not OK gives the summary (R167). -/
theorem summaryStatus_report (stage : U8) (st : U32) (l : List (Option Status)) :
    summaryStatus (some (report stage st) :: l) = if st.toInt < 0 then ⟨1, stage, st⟩ else summaryStatus l := by
  have hio : (⟨1, stage, st⟩ : Status) ≠ okStatus := fun h => by cases h
  by_cases h : st.toInt < 0
  · rw [report, if_pos h, if_pos h, summaryStatus, if_neg hio]
  · rw [report, if_neg h, if_neg h]
    rfl

theorem summaryStatus_reports (st0 st1 st2 st3 : U32) :
    summaryStatus #v[some (report 1 st0), some (report 2 st1), some (report 3 st2), some (report 4 st3)].toList =
      if st0.toInt < 0 then ⟨1, 1, st0⟩ else if st1.toInt < 0 then ⟨1, 2, st1⟩
      else if st2.toInt < 0 then ⟨1, 3, st2⟩ else report 4 st3 := by
  change summaryStatus [some (report 1 st0), some (report 2 st1), some (report 3 st2), some (report 4 st3)] = _
  rw [summaryStatus_report, summaryStatus_report, summaryStatus_report, summaryStatus_report]
  rfl

/-- Settles O32. -/
theorem readsecReportsEveryChunk : Obligations.ReadsecReportsEveryChunk := by
  intro s a0 a1 a2 a3 rest t1 ij kk sched hs hkey1 hij hkk hsched ht1 hans cfg fs word report' t
  refine ⟨?begins, ?runs⟩
  case begins =>
    refine (hostOp_requireState_holds hs hkey1 _).trans ?_
    exact congrArg _ (formKey1_runs (w := beginWork (clearPorts s)) _ _ _ _ _ hij hkk)
  case runs =>
    have hend := drive_readsec (cfg := cfg) 4 (s := clearPorts s) (w := beginWork s) ⟨hs.2, ht1, hij, hkk, hsched⟩ hans
    obtain ⟨out, hout, hread⟩ := afterReads_secOut cfg (clearPorts s) sched t1 ij kk a0 a1 a2 a3 rest
    have hfs : secureFlags cfg t1 = fs := enableBoth_eq _
    obtain ⟨free, heq⟩ := afterReads_eq cfg (clearPorts s) sched t1 ij kk a0 a1 a2 a3 rest rfl hout
    rw [afterReads_chunk _ (clearPorts s) _ _ _ _ _ _ _ _ _ rfl, summaryStatus_reports, heq] at hend
    refine ⟨out, free, hend.trans ((finish_of_idle (by exact hs.1) _).trans ?_), hread⟩
    simp only [readEvents, secureEvent, hfs]
    rfl

/-! ## READSEC and the raw chip id (70_reset_and_hazards R240) -/

/-- The working copy with another raw chip id. -/
def workWithChipId (id : U32) (w : Work) : Work := { w with regs := { w.regs with rawChipId := some id } }

/-- The sequencer is IDLE or stands at a step of READSEC. -/
def InReadsec (s : State) : Prop := ∀ p w, s.seq = .run p w ∨ s.seq = .wait p w → p.op = .readsec

theorem inReadsec_of_idle {s : State} (hs : s.seq = .idle) : InReadsec s := by
  rintro p w (h | h) <;> rw [hs] at h <;> cases h

/-- A step of READSEC goes to another one, waits, or ends READSEC. -/
theorem seqStep_inReadsec {cfg : Cfg} {s : State} (h : InReadsec s) : InReadsec (seqStep cfg s) := by
  cases hf : s.fault with
  | some f => rwa [seqStep, hf]
  | none =>
    have moves {p : Position} {w : Work} (hs : s.seq = .run p w ∨ s.seq = .wait p w) : InReadsec (seqStep cfg s) := by
      obtain hidle | ⟨w', hwait⟩ | ⟨p', w', hrun, hop, -⟩ := seqStep_inOrder (cfg := cfg) hf hs
      · exact inReadsec_of_idle hidle
      · rintro q v (hq | hq) <;> rw [hwait] at hq <;> cases hq
        exact h p w hs
      · rintro q v (hq | hq) <;> rw [hrun] at hq <;> cases hq
        exact hop.trans (h p w hs)
    cases hs : s.seq with
    | idle => rwa [seqStep_idle _ hs]
    | run p w => exact moves (.inl hs)
    | wait p w => exact moves (.inr hs)

section ChipId

variable (id : U32) {cfg : Cfg} {s : State}

theorem readReg_withRawChipId {α : Type} (r : RegName) (v : Option α) {k k' : α → State}
    (h : ∀ x, v = some x → k' x = withRawChipId id (k x)) :
    readReg (withRawChipId id s) r v k' = withRawChipId id (readReg s r v k) := by
  cases v with
  | none => rfl
  | some x => exact h x rfl

theorem formKey1_withRawChipId (w : Work) (a : U16) (r : RegName) (v : Option U24) (mk : U16 → U24 → U20 → Position) :
    formKey1 (withRawChipId id s) (workWithChipId id w) a r v mk = withRawChipId id (formKey1 s w a r v mk) :=
  readReg_withRawChipId id _ _ fun _ _ => readReg_withRawChipId id _ _ fun _ _ => rfl

theorem storeChunk_withRawChipId (j : Fin 4) (st : U32) (bytes : Memory) :
    storeChunk (withRawChipId id s) j st bytes = withRawChipId id (storeChunk s j st bytes) := by
  rw [storeChunk_eq, storeChunk_eq]
  rfl

theorem afterChunk_withRawChipId (w : Work) (j : Fin 4) :
    afterChunk (withRawChipId id s) (workWithChipId id w) j = withRawChipId id (afterChunk s w j) := by
  unfold afterChunk
  split
  · exact formKey1_withRawChipId id w _ _ _ _
  · rfl

theorem secureRead_request_withRawChipId (w : Work) (j : Fin 4) (a : U16) (n : U24) (k20 : U20) :
    (secureReadCommand cfg j a n k20).1 (withRawChipId id s) (workWithChipId id w)
      = withRawChipId id ((secureReadCommand cfg j a n k20).1 s w) :=
  readReg_withRawChipId id _ _ fun _ _ => readReg_withRawChipId id _ _ fun _ _ => readReg_withRawChipId id _ _ fun _ _ => rfl

theorem onAnswer_withRawChipId {k k' : State → Answer → State}
    (h : ∀ t a, k' (withRawChipId id t) a = withRawChipId id (k t a)) :
    onAnswer (withRawChipId id s) k' = withRawChipId id (onAnswer s k) := by
  obtain ⟨hans, heq⟩ | ⟨rest, hans, heq⟩ | ⟨a, rest, hans, heq⟩ := onAnswer_cases s k
  · rw [heq, onAnswer_waits _ (by exact hans)]
  · rw [heq, onAnswer_silent _ (by exact hans)]
    rfl
  · rw [heq, onAnswer_answered _ (by exact hans), ← h]
    rfl

theorem secureRead_answer_withRawChipId (w : Work) (j : Fin 4) (a : U16) (n : U24) (k20 : U20) :
    (secureReadCommand cfg j a n k20).2 (withRawChipId id s) (workWithChipId id w)
      = withRawChipId id ((secureReadCommand cfg j a n k20).2 s w) :=
  onAnswer_withRawChipId (s := s) id (k := fun t ans => afterChunk (storeChunk t j ans.st ans.bytes) w j)
    (k' := fun t ans => afterChunk (storeChunk t j ans.st ans.bytes) (workWithChipId id w) j)
    fun t ans => by rw [storeChunk_withRawChipId, afterChunk_withRawChipId]

theorem secureRead_withRawChipId (w : Work) (j : Fin 4) (a : U16) (n : U24) (k20 : U20) :
    exchange (secureReadCommand cfg j a n k20) (withRawChipId id s) (workWithChipId id w)
      = withRawChipId id (exchange (secureReadCommand cfg j a n k20) s w) := by
  have hreq := secureRead_request_withRawChipId (cfg := cfg) (s := s) id w j a n k20
  obtain ⟨r, hq⟩ | ⟨w', e, hq, -⟩ := exchangeOf_request (cfg := cfg) (p := .readsecRead j a n k20) rfl s w
  · rw [exchange_ends (s := s) (by rw [hq]; rfl), exchange_ends (s := withRawChipId id s) (by rw [hreq, hq]; rfl), hreq]
  · rw [hq] at hreq
    rw [exchange_requests hq, exchange_requests (p := .readsecRead j a n k20) (w' := workWithChipId id w') (by exact hreq)]
    exact secureRead_answer_withRawChipId (s := request s (.readsecRead j a n k20) w' e) id w' j a n k20

theorem runPosition_withRawChipId (w : Work) {p : Position} (hp : p.op = .readsec) :
    runPosition cfg (withRawChipId id s) (workWithChipId id w) p = withRawChipId id (runPosition cfg s w p) := by
  cases p with
  | readsecRead j a n k20 => exact secureRead_withRawChipId id w j a n k20
  | readsecCounter | readsecReturn => rfl
  | _ => cases hp

theorem answerPosition_withRawChipId (w : Work) {p : Position} (hp : p.op = .readsec) :
    answerPosition cfg (withRawChipId id s) (workWithChipId id w) p = withRawChipId id (answerPosition cfg s w p) := by
  cases p with
  | readsecRead j a n k20 => exact secureRead_answer_withRawChipId id w j a n k20
  | readsecCounter | readsecReturn => rfl
  | _ => cases hp

theorem seqStep_withRawChipId (h : InReadsec s) :
    seqStep cfg (withRawChipId id s) = withRawChipId id (seqStep cfg s) := by
  cases hf : s.fault with
  | some f => rw [seqStep_latched _ hf, seqStep_latched _ (by exact hf)]
  | none =>
    cases hs : s.seq with
    | idle => rw [seqStep_idle _ hs, seqStep_idle _ (by rw [withRawChipId, hs])]
    | run p w =>
      have hs' : (withRawChipId id s).seq = .run p (workWithChipId id w) := by rw [withRawChipId, hs]; rfl
      rw [seqStep_run _ hs hf, seqStep_run _ hs' (by exact hf), runPosition_withRawChipId id w (h p w (.inl hs))]
    | wait p w =>
      have hs' : (withRawChipId id s).seq = .wait p (workWithChipId id w) := by rw [withRawChipId, hs]; rfl
      rw [seqStep_wait _ hs hf, seqStep_wait _ hs' (by exact hf), answerPosition_withRawChipId id w (h p w (.inr hs))]

theorem drive_withRawChipId (n : Nat) (h : InReadsec s) :
    drive cfg n (withRawChipId id s) = withRawChipId id (drive cfg n s) := by
  induction n generalizing s with
  | zero => rfl
  | succ n ih => rw [drive_succ, drive_succ, seqStep_withRawChipId id h, ih (seqStep_inReadsec h)]

end ChipId

/-- What READSEC does at IDLE with no fault latched, up to the end of its first step. -/
def readsecBody (s : State) : State :=
  requireState s .key1 fun s => formKey1 s (beginWork s) (secureArgument 0) .k1Ij s.regs.k1Ij (.readsecRead 0)

theorem readsecBody_withRawChipId (id : U32) (s : State) :
    readsecBody (withRawChipId id s) = withRawChipId id (readsecBody s) := by
  by_cases h : s.regs.encState = .key1
  · rw [readsecBody, readsecBody, requireState_holds _ h, requireState_holds _ (by exact h)]
    exact formKey1_withRawChipId id (beginWork s) _ _ _ _
  · rw [readsecBody, readsecBody, requireState_fails _ h, requireState_fails _ (by exact h)]
    rfl

theorem readsecBody_inReadsec (s : State) : InReadsec (readsecBody s) := by
  by_cases h : s.regs.encState = .key1
  · rw [readsecBody, requireState_holds _ h]
    refine formKey1_elim InReadsec (fun _ => inReadsec_of_idle rfl) (fun _ => inReadsec_of_idle rfl) ?_
    rintro n kk - - p w (hs | hs) <;> cases hs
    rfl
  · rw [readsecBody, requireState_fails _ h]
    exact inReadsec_of_idle rfl

/-- Settles O33: from IDLE the sequencer only ever stands at steps of READSEC, and none of them reads the raw chip id. -/
theorem readsecIgnoresTheRawChipId : Obligations.ReadsecIgnoresTheRawChipId := by
  intro s id hs
  have hs' : (withRawChipId id s).seq = .idle := by rw [withRawChipId, hs]
  cases hf : s.fault with
  | some f =>
    refine ⟨_, hostOp_latched readsecBody hs hf, ?_, fun n => drive_withRawChipId id n (inReadsec_of_idle hs)⟩
    exact hostOp_latched readsecBody hs' hf
  | none =>
    refine ⟨_, hostOp_runs readsecBody hs hf, ?_, fun n => drive_withRawChipId id n (readsecBody_inReadsec _)⟩
    exact (hostOp_runs readsecBody hs' hf).trans (congrArg _ (readsecBody_withRawChipId id (clearPorts s)))

end Sys2Proof.Proofs
end

