-- ==== Sys2Proof/Proofs/Runs.lean ====
section
/-!
SUPPORT. INIT, SETUP, BEGIN1 and BEGIN2 from their first step to their end (43_state_machine R163, R165, R166, R168): where
every request succeeds, and where one fails at each stage.
-/

namespace Sys2Proof.Proofs

open Sys2Proof.Machine Sys2Proof.Safety Sys2Proof.Laws

/-! ## An operation that aborts -/

/-- The state of an operation that began at `s` and whose requests so far have these events: no register is written yet. -/
def made (s : State) (es : List Event) (rest : List (Option Answer)) : State :=
  { clearPorts s with answers := rest, trace := s.trace ++ es }

theorem clearPorts_eq_made {s : State} {l : List (Option Answer)} (h : s.answers = l) : clearPorts s = made s [] l := by
  rw [made, List.append_nil, ← h]
  rfl

theorem afterRequest_made (s : State) (es : List Event) (e : Event) (l rest : List (Option Answer)) :
    afterRequest (made s es l) e rest = made s (es ++ [e]) rest := by
  simp [afterRequest, made]

theorem made_fault {s : State} (hs : Ready s) (es : List Event) (l : List (Option Answer)) : (made s es l).fault = none :=
  hs.2

theorem made_answers (s : State) (es : List Event) (l : List (Option Answer)) : (made s es l).answers = l := rfl

theorem made_append (s : State) (es es' : List Event) (l rest : List (Option Answer)) :
    { made s es l with answers := rest, trace := (made s es l).trace ++ es' } = made s (es ++ es') rest := by
  simp [made]

/-- A failing request ends its operation: only the counter is kept, if the encoder has run (R160, R162). -/
theorem drive_aborts {cfg : Cfg} {s : State} (n : Nat) {p : Position} {w w' : Work} {q : Exchange} {e : Event} {a : Answer}
    {rest : List (Option Answer)} {es : List Event} {c : Call} (hs : Ready s) (hq : exchangeOf cfg p = some q)
    (hc : callOf p = some c)
    (hreq : q.1 (advance (made s es (some a :: rest)) p w) w
      = request (advance (made s es (some a :: rest)) p w) p w' e) (herr : a.st.toInt < 0) :
    drive cfg (n + 1) (advance (made s es (some a :: rest)) p w) = { clearPorts s with
      regs := { s.regs with k1K := if w'.kused then w'.regs.k1K else s.regs.k1K }
      status := some ⟨1, c.stage, a.st⟩, answers := rest, trace := s.trace ++ (es ++ [e.answered a.st]) } := by
  rw [drive_call_fails n (by exact hs.2) hq hc hreq rfl herr, ← hs.1, ← List.append_assoc]
  rfl

/-! ## INIT (R163) -/

/-- Settles O26: the requests before the failing one go by `drive_init…`, and the failing one is `drive_aborts`. -/
theorem initAbortsAtTheFailingStage : Obligations.InitAbortsAtTheFailingStage := by
  intro s a0 a1 d a2 a3 rest hs huninit fd e0 e1 e2 e3 e4 t
  have begins {l : List (Option Answer)} (hans : s.answers = l) :
      toEnd t = drive Config.cfg 10 (advance (made s [] l) .initReset (beginWork s)) := by
    rw [← clearPorts_eq_made hans]
    rfl
  refine ⟨hostOp_requireState_holds hs huninit _, fun hans h0 => ?reset, fun hans h0 h1 => ?dummy,
    fun hans h0 h1 h2 => ?rawChipid, fun hans h0 h1 h2 h3 => ?header⟩ <;> rw [begins hans]
  case reset => exact drive_aborts 9 (p := .initReset) hs rfl rfl rfl h0
  case dummy =>
    rw [drive_initReset 9 _ (made_fault hs _ _) (made_answers _ _ _) h0, afterRequest_made]
    exact drive_aborts 8 (p := .initDummy) hs rfl rfl rfl h1
  case rawChipid =>
    rw [drive_initReset 9 _ (made_fault hs _ _) (made_answers _ _ _) h0, afterRequest_made,
      drive_initDummy 8 _ (made_fault hs _ _) (made_answers _ _ _) h1, afterRequest_made,
      drive_initDelay 7 _ (made_fault hs _ _) (made_answers _ _ _), afterRequest_made]
    exact drive_aborts 6 (p := .initRawChipid) hs rfl rfl rfl h2
  case header =>
    rw [drive_initReset 9 _ (made_fault hs _ _) (made_answers _ _ _) h0, afterRequest_made,
      drive_initDummy 8 _ (made_fault hs _ _) (made_answers _ _ _) h1, afterRequest_made,
      drive_initDelay 7 _ (made_fault hs _ _) (made_answers _ _ _), afterRequest_made,
      drive_initRawChipid 6 _ (made_fault hs _ _) (made_answers _ _ _) h2, afterRequest_made,
      drive_initCapture 5 _ (made_fault hs _ _)]
    exact drive_aborts 4 (p := .initHeaderRead) hs rfl rfl rfl h3

/-! ## SETUP (R165) -/

/-- A fault of an operation that is at its first step: SEQ is IDLE, as it was. -/
theorem raise_clearPorts {s : State} (hs : Ready s) (f : FaultRecord) :
    raise (clearPorts s) f = { clearPorts s with fault := some f, status := some (faultStatus f) } := by
  rw [raise, finish_of_idle (by exact hs.1)]
  rfl

section Setup

variable {cfg : Cfg} {s : State} (n : Nat) {w : Work} (hfault : s.fault = none)
include hfault

theorem drive_setupFirst {gc : U32} (hgc : s.regs.hdrGameCode = some gc) :
    drive cfg (n + 1) (advance s .setupFirst w)
      = drive cfg n (advance s .setupSecond (keepApplied w (applyKey cfg s.portSched (deriveKey gc)))) :=
  drive_moves n hfault (firstApplication_eq (s := advance s .setupFirst w) hgc)

theorem drive_setupSecond {l : List U32} {key : Key} (hl : w.regs.k1Sched = some l) (hkey : w.regs.k1Key = some key) :
    drive cfg (n + 1) (advance s .setupSecond w)
      = drive cfg n (advance s .setupWrite (keepApplied w (applyKey cfg l key))) :=
  drive_moves n hfault (secondApplication_eq (s := advance s .setupSecond w) hl hkey)

theorem drive_setupWrite :
    drive cfg (n + 2) (advance s .setupWrite w) = finish { s with
      regs := { s.regs with k1Sched := w.regs.k1Sched, k1Key := w.regs.k1Key, schedValid := true } } okStatus := by
  refine (drive_advance _ (n + 1) s .setupWrite w hfault).trans ?_
  refine (drive_advance _ n { s with
    regs := { s.regs with k1Sched := w.regs.k1Sched, k1Key := w.regs.k1Key, schedValid := true } } .setupReturn w
    hfault).trans ?_
  exact drive_idle _ _ _ rfl

end Setup

/-- The cipher adapter on a table of the right size. -/
theorem applyKey_toList (cfg : Cfg) (l : Vector U32 cfg.schedWords) (key : Key) :
    applyKey cfg l.toList key = ((cfg.applyKey l key).1.toList, (cfg.applyKey l key).2) := by
  have hvector : schedVector cfg.schedWords l.toList = l := Vector.toList_inj.1 (schedVector_toList _ _ l.length_toList)
  rw [applyKey, hvector]

/-- Settles O28. -/
theorem setupChecksTheTableSize : Obligations.SetupChecksTheTableSize := by
  intro s hs hraw hlen
  refine (hostOp_requireState_holds hs hraw _).trans ?_
  rw [if_pos (show (clearPorts s).portSched.length ≠ _ from hlen), raiseContract, raise_clearPorts hs]
  rfl

/-- Settles O29. -/
theorem begin1NeedsASchedule : Obligations.Begin1NeedsASchedule := by
  intro s hs hraw hvalid
  refine (hostOp_requireState_holds hs hraw _).trans ?_
  rw [if_pos (show (clearPorts s).regs.schedValid = false from hvalid), raiseContract, raise_clearPorts hs]
  rfl

/-- Settles O27: the second application takes the key and the schedule that the first has kept in the working copy. -/
theorem setupAppliesTheKeyTwice : Obligations.SetupAppliesTheKeyTwice := by
  intro s gc h hs hraw hgc table first second t
  refine ⟨?begins, ?ends⟩
  case begins =>
    refine (hostOp_requireState_holds hs hraw _).trans ?_
    rw [if_neg (show ¬(clearPorts s).portSched.length ≠ _ from not_not.2 h)]
    rfl
  case ends =>
    have hfault : (clearPorts s).fault = none := hs.2
    have htable : (clearPorts s).portSched = table.toList := rfl
    change drive Config.cfg 10 (advance (clearPorts s) .setupFirst (beginWork s)) = _
    rw [drive_setupFirst 9 hfault hgc, htable, applyKey_toList, drive_setupSecond 8 hfault rfl rfl, applyKey_toList,
      drive_setupWrite 6 hfault, finish_of_idle (by exact hs.1)]
    rfl

/-! ## BEGIN1 (R166) -/

/-- The working copy's registers once the first regime's word is formed. -/
def firstRegime (cfg : Cfg) (r : Regs) (t1 t2 : U32) : Regs :=
  { loadConstants r with k1Flags := some (k1WorkingWord cfg t1 (actFlags cfg t2)) }

/-- The working copy's registers once both sub-flags are enabled: one counter value is consumed, and the pair is there. -/
def seededRegime (cfg : Cfg) (r : Regs) (t1 t2 : U32) (sb : U8) : Regs :=
  { loadConstants r with
    k1K := some 0x39D47, k1Flags := some (enableBoth (k1WorkingWord cfg t1 (actFlags cfg t2)))
    k2X := some (k2SeedX cfg sb 0xC99ACE), k2Y := some k2SeedY }

/-- The event of the answered activation. -/
def activateEvent (cfg : Cfg) (t2 : U32) (st : U32) : Event :=
  .send (cfg.actLayout cfg.act1Opc 0x11A473 0x39D46) 0 (actFlags cfg t2) (some st)

/-- The event of the answered seed command. -/
def seedInitEvent (cfg : Cfg) (sched : List U32) (t1 t2 : U32) (st : U32) : Event :=
  .send (k1Wire cfg sched (cfg.key1Layout cfg.k1CmdSeed 0 0xC99ACE 0x39D46)) 0 (k1WorkingWord cfg t1 (actFlags cfg t2))
    (some st)

/-- The pair handed to a platform that seeds in hardware. -/
def seedEvents (cfg : Cfg) (sb : U8) : List Event :=
  if cfg.hwSeed then [.seed (k2SeedX cfg sb 0xC99ACE) k2SeedY] else []

section Begin1Run

variable {cfg : Cfg} {s : State} (n : Nat) {w : Work} {a1 a2 d : Answer} {l : List (Option Answer)} {t1 t2 : U32}
  {sb : U8} {sched : List U32} (hs : Ready s)
include hs

theorem drive_begin1Constants :
    drive cfg (n + 1) (advance (made s [] l) .begin1Constants w) = drive cfg n
      (advance (made s [] l) (.begin1Activate 0x11A473 0x39D46) { w with regs := loadConstants w.regs }) :=
  drive_moves n (made_fault hs _ _) rfl

variable (ht1 : s.regs.hdrKey1Timing = some t1) (ht2 : s.regs.hdrKey2Timing = some t2) (h1 : 0 ≤ a1.st.toInt)
include ht1 ht2 h1

/-- The steps up to the seed command. -/
theorem drive_begin1_activated :
    drive cfg (n + 3) (advance (made s [] (some a1 :: l)) .begin1Constants w) = drive cfg n
      (advance (made s [activateEvent cfg t2 a1.st] l) (.begin1SeedInit 0 0xC99ACE 0x39D46)
        { w with regs := firstRegime cfg w.regs t1 t2 }) := by
  rw [drive_begin1Constants (n + 2) hs,
    drive_begin1Activate (n + 1) (made_fault hs _ _) _ _ (by exact ht2) (made_answers _ _ _) h1, afterRequest_made,
    drive_begin1Word n (made_fault hs _ _) (by exact ht2) (by exact ht1) rfl rfl rfl]
  rfl

/-- The steps up to the chip-id request. -/
theorem drive_begin1_seeded (hsb : s.regs.k2SeedByte = some sb) (hsched : w.regs.k1Sched = some sched)
    (h2 : 0 ≤ a2.st.toInt) :
    drive cfg (n + 7)
        (advance (made s [] (some a1 :: some a2 :: ((if cfg.hwSeed then [some d] else []) ++ l))) .begin1Constants w)
      = drive cfg n (advance
        (made s ([activateEvent cfg t2 a1.st, seedInitEvent cfg sched t1 t2 a2.st] ++ seedEvents cfg sb) l)
        (.begin1Chipid 0 0x11A473 0x39D47) { w with kused := true, regs := seededRegime cfg w.regs t1 t2 sb }) := by
  have hseed : (if cfg.hwSeed then [some d] else []) ++ l = if cfg.hwSeed then some d :: l else l := by
    split <;> rfl
  rw [drive_begin1_activated (n + 4) hs ht1 ht2 h1,
    drive_begin1SeedInit (n + 3) (made_fault hs _ _) _ _ _ rfl (by exact hsched) rfl (made_answers _ _ _) h2,
    afterRequest_made, drive_begin1SeedPair (n + 2) (made_fault hs _ _) (by exact hsb) rfl,
    drive_begin1PlatformSeed (n + 1) (made_fault hs _ _) rfl rfl hseed, made_append,
    drive_begin1Enable n (made_fault hs _ _) rfl rfl rfl rfl]
  rfl

end Begin1Run

theorem begin1_begins {s : State} (hs : Ready s) (hraw : s.regs.encState = .raw) (hvalid : s.regs.schedValid = true) :
    exec .begin1 s = .next (advance (clearPorts s) .begin1Constants (beginWork s)) := by
  refine (hostOp_requireState_holds hs hraw _).trans ?_
  rw [if_neg (show ¬(clearPorts s).regs.schedValid = false from by simp [hvalid])]
  rfl

/-- Settles O30: `drive_begin1_seeded` and the three steps of the chip-id check. -/
theorem begin1EntersKey1OrUnknown : Obligations.Begin1EntersKey1OrUnknown := by
  intro s a1 a2 d a3 rest rawId t1 t2 sb sched hs hraw hvalid hsched hrawId ht1 ht2 hsb hans h1 h2 h3
    cfg fAct f c2 c3 x y id t
  refine ⟨begin1_begins hs hraw hvalid, ?_⟩
  change drive cfg 10 (advance (clearPorts s) .begin1Constants (beginWork s)) = _
  rw [clearPorts_eq_made hans, drive_begin1_seeded 3 hs ht1 ht2 h1 hsb hsched h2,
    drive_begin1Chipid 2 (made_fault hs _ _) _ _ _ rfl (by exact hsched) rfl (made_answers _ _ _) h3, afterRequest_made,
    drive_begin1StoreId 0 (made_fault hs _ _) rfl (by exact hrawId), finish_of_idle (by exact hs.1)]
  simp only [seededRegime, activateEvent, seedInitEvent, seedEvents, enableBoth_eq, made, List.append_assoc]
  rfl

/-- Settles O31: the requests before the failing one succeed, and the failing one is `drive_aborts`. -/
theorem begin1AbortKeepsOnlyTheCounter : Obligations.Begin1AbortKeepsOnlyTheCounter := by
  intro s a1 a2 d a3 rest t1 t2 sb sched hs hraw hvalid hsched ht1 ht2 hsb cfg fAct f e1 e2 seeding e3 t
  have begins {l : List (Option Answer)} (hans : s.answers = l) :
      toEnd t = drive cfg 10 (advance (made s [] l) .begin1Constants (beginWork s)) := by
    rw [← clearPorts_eq_made hans]
    rfl
  refine ⟨begin1_begins hs hraw hvalid, fun hans h1 => ?activate, fun hans h1 h2 => ?seed,
    fun hans h1 h2 h3 => ?chipid⟩
    <;> rw [begins hans]
  case activate =>
    rw [drive_begin1Constants 9 hs]
    exact drive_aborts 8 (p := .begin1Activate _ _) hs rfl rfl (activateKey1_request _ _ (by exact ht2)) h1
  case seed =>
    rw [drive_begin1_activated 7 hs ht1 ht2 h1]
    exact drive_aborts 6 (p := .begin1SeedInit _ _ _) (w := { beginWork s with regs := firstRegime cfg s.regs t1 t2 }) hs
      rfl rfl (key2SeedInit_request _ _ _ rfl hsched rfl) h2
  case chipid =>
    rw [drive_begin1_seeded 3 hs ht1 ht2 h1 hsb hsched h2]
    refine (drive_aborts 2 (p := .begin1Chipid _ _ _)
      (w := { beginWork s with kused := true, regs := seededRegime cfg s.regs t1 t2 sb }) hs
      rfl rfl (key1Chipid_request _ _ _ rfl hsched rfl) h3).trans ?_
    simp only [activateEvent, seedInitEvent, seedEvents, enableBoth_eq, List.append_assoc]
    rfl

/-! ## BEGIN2 (R168) -/

theorem begin2_begins {s : State} {l : U16} {ij kk : U24} (hs : Ready s) (hkey1 : s.regs.encState = .key1)
    (hij : s.regs.k1Ij = some ij) (hkk : s.regs.k1K = some kk) (hl : s.regs.k1L = some l) :
    exec .begin2 s = .next (advance (clearPorts s) (.begin2Activate l ij (lowCounter kk)) (beginWork s)) := by
  refine (hostOp_requireState_holds hs hkey1 _).trans (congrArg _ ?_)
  rw [show (clearPorts s).regs.k1L = some l from hl, readReg_some]
  exact formKey1_runs (w := beginWork (clearPorts s)) _ _ _ _ _ hij hkk

/-- The event of the answered second activation. -/
def activate2Event (cfg : Cfg) (sched : List U32) (l : U16) (ij kk : U24) (f : U32) (st : U32) : Event :=
  .send (k1Wire cfg sched (cfg.key1Layout cfg.k1CmdAct2 l ij (lowCounter kk))) 0 f (some st)

/-- The steps of BEGIN2 up to the chip-id request. -/
theorem drive_begin2_activated {cfg : Cfg} {s : State} (n : Nat) {w : Work} {a1 : Answer} {rest : List (Option Answer)}
    {t2 f : U32} {l : U16} {ij kk : U24} {sched : List U32} (hs : Ready s) (ht2 : s.regs.hdrKey2Timing = some t2)
    (hkk : w.regs.k1K = some kk) (hsched : w.regs.k1Sched = some sched) (hf : w.regs.k1Flags = some f)
    (h1 : 0 ≤ a1.st.toInt) :
    drive cfg (n + 2) (advance (made s [] (some a1 :: rest)) (.begin2Activate l ij (lowCounter kk)) w)
      = drive cfg n (advance (made s [activate2Event cfg sched l ij kk f a1.st] rest) .begin2Chipid { w with
        kused := true, regs := { w.regs with k1K := some (kk + 1), k2Flags := some (k2WorkingWord cfg t2) } }) := by
  rw [drive_begin2Activate (n + 1) (made_fault hs _ _) _ _ _ hkk hsched hf (made_answers _ _ _) h1, afterRequest_made,
    drive_begin2Word n (made_fault hs _ _) (by exact ht2)]
  rfl

/-- Settles O34: `drive_begin2_activated` and the three steps of the chip-id check. -/
theorem begin2EntersKey2OrUnknown : Obligations.Begin2EntersKey2OrUnknown := by
  intro s a1 a2 rest rawId t2 f ij kk l sched hs hkey1 hsched hrawId ht2 hij hkk hl hf hans h1 h2 cfg f2 c1 id t
  refine ⟨begin2_begins hs hkey1 hij hkk hl, ?_⟩
  change drive cfg 10 (advance (clearPorts s) (.begin2Activate l ij (lowCounter kk)) (beginWork s)) = _
  rw [clearPorts_eq_made hans, drive_begin2_activated 8 hs ht2 (by exact hkk) (by exact hsched) (by exact hf) h1,
    drive_begin2Chipid 7 (made_fault hs _ _) rfl (made_answers _ _ _) h2, afterRequest_made,
    drive_begin2StoreId 5 (made_fault hs _ _) rfl (by exact hrawId), finish_of_idle (by exact hs.1)]
  rfl

/-- Settles O35. -/
theorem begin2AbortKeepsOnlyTheCounter : Obligations.Begin2AbortKeepsOnlyTheCounter := by
  intro s a1 a2 rest t2 f ij kk l sched hs hkey1 hsched ht2 hij hkk hl hf cfg e1 e2 t
  have begins {r : List (Option Answer)} (hans : s.answers = r) :
      toEnd t = drive cfg 10 (advance (made s [] r) (.begin2Activate l ij (lowCounter kk)) (beginWork s)) := by
    rw [← clearPorts_eq_made hans]
    rfl
  refine ⟨begin2_begins hs hkey1 hij hkk hl, fun hans h1 => ?activate, fun hans h1 h2 => ?chipid⟩ <;> rw [begins hans]
  case activate =>
    exact drive_aborts 9 (p := .begin2Activate _ _ _) (w := beginWork s) hs rfl rfl
      (activateKey2_request _ _ _ hkk hsched hf) h1
  case chipid =>
    rw [drive_begin2_activated 8 hs ht2 (by exact hkk) (by exact hsched) (by exact hf) h1]
    exact drive_aborts 7 (p := .begin2Chipid) hs rfl rfl (key2Chipid_request rfl) h2

end Sys2Proof.Proofs
end

