-- ==== Sys2Proof/Proofs/Inspect.lean ====
section
/-!
SUPPORT. INSPECT (43_state_machine R169, 30_encoding R74): the check of the register, and the read that follows it.
-/

namespace Sys2Proof.Proofs

open Sys2Proof.Machine Sys2Proof.Safety Sys2Proof.Laws

theorem inspect_begins {i : Instr} {r : RegName} (hi : inspectedReg i = some r) (hr : r ≠ .k1Sched) {s : State}
    (hs : Ready s) : exec i s = .next (advance (clearPorts s) (.inspectCheck r) (beginWork s)) :=
  (exec_of_inspectedReg hi hr s).trans (hostOp_runs _ hs.1 hs.2)

section Steps

variable {cfg : Cfg} {s : State} (n : Nat) {w : Work} {r : RegName}

theorem inspectCheckStep_reads {v : U64} (hv : inspected cfg s r = some v) :
    inspectCheckStep cfg s w r = advance s (.inspectRead r) w := by
  rw [inspectCheckStep, hv, readReg_some]

theorem inspectCheckStep_faults (hv : inspected cfg s r = none) : inspectCheckStep cfg s w r = raiseUnwritten s r := by
  rw [inspectCheckStep, hv, readReg_none]

theorem inspectReadStep_reads {v : U64} (hv : inspected cfg s r = some v) : inspectReadStep cfg s r = returnRes0 s v := by
  rw [inspectReadStep, hv, readReg_some]

variable (hs : Ready s)
include hs

/-- A register that holds a value passes the check, and the step after gives it (R169). -/
theorem drive_inspect_reads {v : U64} (hv : regValue cfg s.regs s.ports.a.toNat r = some v) :
    drive cfg (n + 2) (advance (clearPorts s) (.inspectCheck r) w)
      = { clearPorts s with res0 := some v, status := some ⟨0, 0, 0⟩ } := by
  have hcheck := inspectCheckStep_reads (s := advance (clearPorts s) (.inspectCheck r) w) (w := w) hv
  have hread := inspectReadStep_reads (s := advance (clearPorts s) (.inspectRead r) w) hv
  rw [drive_moves (p := .inspectCheck r) (n + 1) (by exact hs.2) hcheck,
    drive_ends (p := .inspectRead r) n (by exact hs.2) hread]
  exact finish_of_idle (s := { clearPorts s with res0 := some v }) hs.1 okStatus

/-- An unwritten register does not pass the check (10_state R23). -/
theorem drive_inspect_faults (hv : regValue cfg s.regs s.ports.a.toNat r = none) :
    drive cfg (n + 1) (advance (clearPorts s) (.inspectCheck r) w) = { clearPorts s with
      fault := some ⟨.unwrittenRead, (regSelector r).setWidth 32⟩
      status := some ⟨0x12, 0, (regSelector r).setWidth 32⟩ } := by
  have hcheck : runPosition cfg (advance (clearPorts s) (.inspectCheck r) w) w (.inspectCheck r)
      = raiseUnwritten (advance (clearPorts s) (.inspectCheck r) w) r := inspectCheckStep_faults hv
  rw [drive_advance _ _ _ _ _ (by exact hs.2), hcheck, drive_idle _ _ _ rfl]
  exact raise_clearPorts hs _

end Steps

/-- Settles O36. -/
theorem inspectReadsWrittenRegisters : Obligations.InspectReadsWrittenRegisters := by
  intro s hs begun reads
  have read {i : Instr} {r : RegName} {v : U64} (hi : inspectedReg i = some r) (hr : r ≠ .k1Sched)
      (hv : regValue Config.cfg s.regs s.ports.a.toNat r = some v) : reads i r v :=
    ⟨inspect_begins hi hr hs, drive_inspect_reads 8 hs hv⟩
  have zext {α : Nat} {o : Option (BitVec α)} {v : BitVec α} (h : o = some v) :
      o.map (BitVec.setWidth 64) = some (v.setWidth 64) := by rw [h]; rfl
  have key {f : Key → U32} {k : Key} (h : s.regs.k1Key = some k) :
      (s.regs.k1Key.map fun key => (f key).setWidth 64) = some ((f k).setWidth 64) := by rw [h]; rfl
  have hstate : (encStateCode s.regs.encState).setWidth 64 = (match s.regs.encState with
      | .uninit => 0 | .raw => 1 | .key1 => 2 | .key2 => 3 | .unknown => 4 : U64) := by
    cases s.regs.encState <;> rfl
  exact ⟨read rfl (by decide) (congrArg some hstate), read rfl (by decide) rfl, read rfl (by decide) rfl,
    fun v h => read rfl (by decide) (zext h), fun v h => read rfl (by decide) (zext h),
    fun v h => read rfl (by decide) (zext h), fun v h => read rfl (by decide) (zext h),
    fun v h => read rfl (by decide) (zext h),
    fun k h => ⟨read rfl (by decide) (key h), read rfl (by decide) (key h), read rfl (by decide) (key h)⟩,
    fun v h => read rfl (by decide) (zext h), fun v h => read rfl (by decide) (zext h),
    fun v h => read rfl (by decide) (zext h), fun v h => read rfl (by decide) (zext h),
    fun v h => read rfl (by decide) (zext h), fun v h => read rfl (by decide) (zext h),
    fun v h => read rfl (by decide) (zext h), fun v h => read rfl (by decide) h, fun v h => read rfl (by decide) h⟩

/-- Settles O37. -/
theorem inspectFaultsOnUnwrittenRegisters : Obligations.InspectFaultsOnUnwrittenRegisters := by
  intro s hs begun faults
  have fault {i : Instr} {r : RegName} (hi : inspectedReg i = some r) (hr : r ≠ .k1Sched)
      (hv : regValue Config.cfg s.regs s.ports.a.toNat r = none) : faults i r ((regSelector r).setWidth 32) :=
    ⟨inspect_begins hi hr hs, drive_inspect_faults 9 hs hv⟩
  have unwritten {α β : Type} {o : Option α} {f : α → β} (h : o = none) : o.map f = none := by rw [h]; rfl
  exact ⟨fun h => fault rfl (by decide) (unwritten h), fun h => fault rfl (by decide) (unwritten h),
    fun h => fault rfl (by decide) (unwritten h), fun h => fault rfl (by decide) (unwritten h),
    fun h => fault rfl (by decide) (unwritten h),
    fun h => ⟨fault rfl (by decide) (unwritten h), fault rfl (by decide) (unwritten h),
      fault rfl (by decide) (unwritten h)⟩,
    fun h => fault rfl (by decide) (unwritten h), fun h => fault rfl (by decide) (unwritten h),
    fun h => fault rfl (by decide) (unwritten h), fun h => fault rfl (by decide) (unwritten h),
    fun h => fault rfl (by decide) (unwritten h), fun h => fault rfl (by decide) (unwritten h),
    fun h => fault rfl (by decide) (unwritten h), fun h => fault rfl (by decide) h, fun h => fault rfl (by decide) h⟩

/-! ## INSPECT of the schedule -/

theorem inspectSchedOp_begins {cfg : Cfg} {s : State} (hs : Ready s) (h : s.ports.a.toNat < cfg.schedWords) :
    inspectSchedOp cfg s = .next (advance (clearPorts s) (.inspectCheck .k1Sched) (beginWork s)) := by
  refine (hostOp_runs _ hs.1 hs.2).trans ?_
  rw [if_neg (show ¬cfg.schedWords ≤ (clearPorts s).portA.toNat from not_le.2 h)]
  rfl

theorem inspectSchedOp_index {cfg : Cfg} {s : State} (hs : Ready s) (h : cfg.schedWords ≤ s.ports.a.toNat) :
    inspectSchedOp cfg s = .next { clearPorts s with
      fault := some ⟨.contract, 4⟩, status := some ⟨0x11, 0, 4⟩ } := by
  refine (hostOp_runs _ hs.1 hs.2).trans ?_
  rw [if_pos (show cfg.schedWords ≤ (clearPorts s).portA.toNat from h), raiseContract, raise_clearPorts hs]
  rfl

theorem regValue_sched (cfg : Cfg) {r : Regs} {l : List U32} (i : Nat) (hvalid : r.schedValid = true)
    (hl : r.k1Sched = some l) : regValue cfg r i .k1Sched = some ((l.getD i 0).setWidth 64) := by
  simp only [regValue, hvalid, hl, if_true, Option.map_some]

theorem regValue_sched_invalid (cfg : Cfg) {r : Regs} (i : Nat) (hvalid : r.schedValid = false) :
    regValue cfg r i .k1Sched = none := by
  simp [regValue, hvalid]

/-- Settles O38. -/
theorem inspectScheduleEntry : Obligations.InspectScheduleEntry := by
  constructor
  · intro cfg s hs begun
    refine ⟨fun l hvalid hl h => ?entry, fun hvalid h => ?invalid, inspectSchedOp_index hs⟩
    case entry => exact ⟨inspectSchedOp_begins hs h, drive_inspect_reads 8 hs (regValue_sched cfg _ hvalid hl)⟩
    case invalid => exact ⟨inspectSchedOp_begins hs h, drive_inspect_faults 9 hs (regValue_sched_invalid cfg _ hvalid)⟩
  · intro s l hs hvalid hl
    by_cases h : s.ports.a.toNat < Config.cfg.schedWords
    · refine ⟨_, inspectSchedOp_begins hs h, ?_⟩
      rw [if_pos h]
      exact drive_inspect_reads 8 hs (regValue_sched _ _ hvalid hl)
    · refine ⟨_, inspectSchedOp_index hs (not_lt.1 h), ?_⟩
      rw [if_neg h]
      exact drive_idle _ _ _ hs.1

end Sys2Proof.Proofs
end

