-- ==== Sys2Proof/Proofs/EncoderAndWords.lean ====
section
/-!
SUPPORT. `k1.encode` on an idle engine (41_key1_encoder R134 to R137), the seeder's checks and its exact sum (42_keystream_seeder
R150, R152), which bits of a control word a setter cannot touch (30_encoding R77), the enable invariant (10_state R33), and the
legacy code of a status (60_exceptions R206).
-/

namespace Sys2Proof.Proofs

open Sys2Proof.Machine Sys2Proof.Safety Sys2Proof.Laws

/-! ## `k1.encode` -/

/-- The byte reversal byte by byte (00_scope R9). -/
theorem extractLsb'_bswap64 (v : U64) {i : Nat} (hi : i < 8) :
    (bswap64 v).extractLsb' (8 * i) 8 = v.extractLsb' (8 * (7 - i)) 8 := by
  apply BitVec.eq_of_getLsbD_eq
  intro b hb
  rw [BitVec.getLsbD_extractLsb', BitVec.getLsbD_extractLsb', getLsbD_bswap64 v hi hb]

section Encode

variable {cfg : Cfg} {s : State} (hs : Ready s)
include hs

/-- An operand too wide for its field is the first fault (R136). -/
theorem k1EncodeOp_tooWide
    (h : 2 ^ 4 ≤ s.ports.a.toNat ∨ 2 ^ 16 ≤ s.ports.b.toNat ∨ 2 ^ 24 ≤ s.ports.c.toNat) :
    k1EncodeOp cfg s = .next (raiseContract (clearPorts s) .operandWidth) := by
  have hwide : (tooWide s.ports.a 4 || tooWide s.ports.b 16 || tooWide s.ports.c 24) = true := by
    simpa [tooWide, or_assoc] using h
  exact (hostOp_runs _ hs.1 hs.2).trans (congrArg _ (if_pos hwide))

section InRange

variable (ha : s.ports.a.toNat < 2 ^ 4) (hb : s.ports.b.toNat < 2 ^ 16) (hc : s.ports.c.toNat < 2 ^ 24)
include ha hb hc

/-- With operands in range the schedule is checked next. -/
theorem k1EncodeOp_inRange :
    k1EncodeOp cfg s = .next (if s.regs.schedValid = false then raiseUnwritten (clearPorts s) .k1Sched
      else encodeInWork cfg (clearPorts s) (beginWork (clearPorts s))
        (k1Plain cfg (s.ports.a.setWidth 4) (s.ports.b.setWidth 16) (s.ports.c.setWidth 24))
        fun word w => returnRes0 { clearPorts s with regs := { s.regs with k1K := w.regs.k1K } } word) := by
  have hnarrow : ¬(tooWide s.ports.a 4 || tooWide s.ports.b 16 || tooWide s.ports.c 24) = true := by
    simp [tooWide_eq_false ha, tooWide_eq_false hb, tooWide_eq_false hc]
  exact (hostOp_runs _ hs.1 hs.2).trans (congrArg _ (if_neg hnarrow))

/-- `k1.encode` that passes its checks (R135, R136). -/
theorem k1EncodeOp_ready {kk : U24} {sched : List U32} (hvalid : s.regs.schedValid = true)
    (hsched : s.regs.k1Sched = some sched) (hkk : s.regs.k1K = some kk) :
    k1EncodeOp cfg s = .next (afterEncode cfg s sched kk) := by
  rw [k1EncodeOp_inRange hs ha hb hc, if_neg (by simp [hvalid]),
    encodeInWork_runs (w := beginWork (clearPorts s)) cfg _ _ _ hkk hsched]
  rfl

end InRange

end Encode

/-- The schedule of a list of the right length is that list (41_key1_encoder R131). -/
theorem schedVector_of_length {n : Nat} {l : List U32} (h : l.length = n) :
    schedVector n l = ⟨l.toArray, by simpa using h⟩ :=
  Vector.toList_inj.1 ((schedVector_toList n l h).trans rfl)

/-- Settles O40. -/
theorem encodeConsumesOneCounterValue : Obligations.EncodeConsumesOneCounterValue := by
  refine ⟨fun v i hi => extractLsb'_bswap64 v hi, ?_⟩
  intro s kk sched h hs ha hb hc hvalid hsched hkk table p
  refine (k1EncodeOp_ready (cfg := Config.cfg) hs ha hb hc hvalid hsched hkk).trans ?_
  have hword : encodedWord Config.cfg s.ports sched kk = bswap64 (Config.cfg.encryptBlock table (bswap64 p)) := by
    rw [encodedWord, k1Wire, schedVector_of_length h, BitVec.setWidth_eq_extractLsb' (by decide),
      BitVec.setWidth_eq_extractLsb' (by decide), BitVec.setWidth_eq_extractLsb' (by decide)]
    rfl
  rw [afterEncode, hword, returnRes0, finish_of_idle (by exact hs.1)]
  rfl

/-- Settles O41. -/
theorem encodeFaults : Obligations.EncodeFaults := by
  intro s hs faults wide
  refine ⟨fun hwide => ?width, fun hnarrow hvalid => ?schedule, fun hnarrow hvalid hkk => ?counter⟩
  case width =>
    refine (k1EncodeOp_tooWide (cfg := Config.cfg) hs hwide).trans ?_
    rw [raiseContract, raise_clearPorts hs]
    rfl
  all_goals
    obtain ⟨ha, hb, hc⟩ : s.ports.a.toNat < 2 ^ 4 ∧ s.ports.b.toNat < 2 ^ 16 ∧ s.ports.c.toNat < 2 ^ 24 := by
      simpa [wide] using hnarrow
    refine (k1EncodeOp_inRange (cfg := Config.cfg) hs ha hb hc).trans ?_
  case schedule =>
    rw [if_pos hvalid, raiseUnwritten, raise_clearPorts hs]
    rfl
  case counter =>
    rw [if_neg (by simp [hvalid]), encodeInWork, show (beginWork (clearPorts s)).regs.k1K = none from hkk, readReg_none,
      raiseUnwritten, raise_clearPorts hs]
    rfl

theorem afterEncode_status (cfg : Cfg) (s : State) (sched : List U32) (kk : U24) :
    (afterEncode cfg s sched kk).status = some okStatus := rfl

/-- Settles O42: both words are `encodedWord` of the same operands, schedule and low counter bits. -/
theorem encodeDependsOnItsInputsOnly : Obligations.EncodeDependsOnItsInputsOnly := by
  intro cfg s t sched k k' hs ht hvalid hvalid' hsched hsched' hk hk' hlow hA hB hC ha hb hc
  have hword : encodedWord cfg s.ports sched k = encodedWord cfg t.ports sched k' := by
    rw [encodedWord, encodedWord, k1Plain, k1Plain, lowCounter, lowCounter, hlow, hA, hB, hC]
  refine ⟨_, _, k1EncodeOp_ready hs ha hb hc hvalid hsched hk,
    k1EncodeOp_ready ht (hA ▸ ha) (hB ▸ hb) (hC ▸ hc) hvalid' hsched' hk', ?_, ?_, ?_, rfl, rfl⟩
  · rw [afterEncode_res0]
    exact Option.some_ne_none _
  · rw [afterEncode_res0, afterEncode_res0, hword]
  · rw [afterEncode_status, afterEncode_status]

/-! ## The seeder -/

/-- Settles O45. -/
theorem seedChecksOperandWidths : Obligations.SeedChecksOperandWidths := by
  intro s hs h
  have hwide : (tooWide s.ports.a 8 || tooWide s.ports.b 24) = true := by simpa [tooWide] using h
  change execK2Seed s = _
  rw [execK2Seed, k2SeedOp, hostOp_runs _ hs.1 hs.2,
    if_pos (show (tooWide (clearPorts s).portA 8 || tooWide (clearPorts s).portB 24) = true from hwide),
    raiseContract, raise_clearPorts hs]
  rfl

/-- Settles O46. -/
theorem seedSumIsExact : Obligations.SeedSumIsExact := by
  intro cfg sb mn
  refine ⟨k2SeedX_toNat cfg sb mn, ?_⟩
  rw [k2SeedX_toNat]
  exact seedSum_lt _ mn.isLt

/-! ## The unassigned bits of the control word -/

/-- The bits of the mask `0xE7808000` (30_encoding R77). -/
def unassignedBit (i : Nat) : Prop := i = 15 ∨ 23 ≤ i ∧ i ≤ 26 ∨ 29 ≤ i

theorem unassignedBit_of_mask {i : Nat} (hi : i < 32) (h : (0xE7808000 : U32).getLsbD i = true) : unassignedBit i := by
  have hmask : ∀ j < 32, (0xE7808000 : U32).getLsbD j = true → j = 15 ∨ 23 ≤ j ∧ j ≤ 26 ∨ 29 ≤ j := by decide
  exact hmask i hi h

/-- Two words that agree on the unassigned bits agree under the mask. -/
theorem and_unassigned_eq {w w' : U32} (h : ∀ i, unassignedBit i → w.getLsbD i = w'.getLsbD i) :
    w &&& 0xE7808000 = w' &&& 0xE7808000 := by
  apply BitVec.eq_of_getLsbD_eq
  intro i hi
  rw [BitVec.getLsbD_and, BitVec.getLsbD_and]
  cases hbit : (0xE7808000 : U32).getLsbD i with
  | false => rw [Bool.and_false, Bool.and_false]
  | true => rw [h i (unassignedBit_of_mask hi hbit)]

/-- Settles O52. -/
theorem unassignedBitsAreKept : Obligations.UnassignedBitsAreKept := by
  refine ⟨fun w v b => ⟨?predelay, ?postdelay, ?pulse, ?slow, ?cmdenc, ?dataenc⟩, fun p q pu c d sl => ?construct⟩
  case construct =>
    have hzero : (0 : U32) &&& 0xE7808000 = 0 := rfl
    refine (and_unassigned_eq fun i hi => ?_).trans hzero
    rw [getLsbD_nfConstruct]
    unfold unassignedBit at hi
    grind
  all_goals
    refine and_unassigned_eq fun i hi => ?_
    unfold unassignedBit at hi
  case predelay => rw [getLsbD_nfSetPredelay, if_neg (by omega)]
  case postdelay => rw [getLsbD_nfSetPostdelay, if_neg (by omega)]
  case pulse => rw [getLsbD_nfSetPulse, if_neg (by omega)]
  case slow => rw [getLsbD_nfSetSlow, if_neg (by omega)]
  case cmdenc => rw [getLsbD_nfSetCmdenc, if_neg (by omega), if_neg (by omega)]
  case dataenc => rw [getLsbD_nfSetDataenc, if_neg (by omega), if_neg (by omega)]

/-! ## The enable invariant -/

theorem enableInvariant_iff (w : U32) :
    enableInvariant w = true ↔ w.getLsbD 14 = (w.getLsbD 22 || w.getLsbD 13) := by
  rw [enableInvariant, beq_iff_eq]

/-- A setter that touches none of the three bits keeps the invariant. -/
theorem enableInvariant_of_bits {w w' : U32} (h : enableInvariant w = true) (h13 : w'.getLsbD 13 = w.getLsbD 13)
    (h14 : w'.getLsbD 14 = w.getLsbD 14) (h22 : w'.getLsbD 22 = w.getLsbD 22) : enableInvariant w' = true := by
  rw [enableInvariant_iff] at *
  rw [h13, h14, h22, h]

theorem enableInvariant_nfSetCmdenc {w : U32} {b : Bool} (h : b = true ∨ enableInvariant w = true) :
    enableInvariant (nfSetCmdenc w b) = true := by
  rw [enableInvariant_iff] at *
  rw [getLsbD_nfSetCmdenc, getLsbD_nfSetCmdenc, getLsbD_nfSetCmdenc]
  obtain rfl | h := h
  · simp
  · rw [h]
    cases b <;> simp +contextual

theorem enableInvariant_nfSetDataenc {w : U32} {b : Bool} (h : b = true ∨ enableInvariant w = true) :
    enableInvariant (nfSetDataenc w b) = true := by
  rw [enableInvariant_iff] at *
  rw [getLsbD_nfSetDataenc, getLsbD_nfSetDataenc, getLsbD_nfSetDataenc]
  obtain rfl | h := h
  · simp
  · rw [h]
    cases b <;> simp +contextual

/-- Settles O51: a word whose enable bit is 0 with one sub-flag set stays broken when the other sub-flag is cleared. -/
theorem settersKeepTheEnableInvariant : Obligations.SettersKeepTheEnableInvariant := by
  refine ⟨fun p q pu c d sl => ?construct, fun w v b h => ⟨?predelay, ?postdelay, ?pulse, ?slow, ?cmdenc, ?dataenc⟩,
    fun w => ⟨enableInvariant_nfSetCmdenc (.inl rfl), enableInvariant_nfSetDataenc (.inl rfl)⟩,
    ⟨0x00002000, rfl, rfl⟩, ⟨0x00400000, rfl, rfl⟩⟩
  case construct =>
    rw [enableInvariant_iff, getLsbD_nfConstruct, getLsbD_nfConstruct, getLsbD_nfConstruct]
    rfl
  case predelay =>
    exact enableInvariant_of_bits h (getLsbD_nfSetPredelay w v 13) (getLsbD_nfSetPredelay w v 14)
      (getLsbD_nfSetPredelay w v 22)
  case postdelay =>
    exact enableInvariant_of_bits h (getLsbD_nfSetPostdelay w v 13) (getLsbD_nfSetPostdelay w v 14)
      (getLsbD_nfSetPostdelay w v 22)
  case pulse =>
    exact enableInvariant_of_bits h (getLsbD_nfSetPulse w b 13) (getLsbD_nfSetPulse w b 14)
      (getLsbD_nfSetPulse w b 22)
  case slow =>
    exact enableInvariant_of_bits h (getLsbD_nfSetSlow w b 13) (getLsbD_nfSetSlow w b 14)
      (getLsbD_nfSetSlow w b 22)
  case cmdenc => exact enableInvariant_nfSetCmdenc (.inr h)
  case dataenc => exact enableInvariant_nfSetDataenc (.inr h)

/-! ## The legacy code -/

/-- Settles O53: the model's definition of the legacy code is this one. -/
theorem legacyCodeOfPlatformErrors : Obligations.LegacyCodeOfPlatformErrors := fun _ => rfl

end Sys2Proof.Proofs
end
